-- ==== Sys2Proof/Word.lean ====
section
/-! DEFINITION. The plain value types of the PSE: bytes of the program source, 3-bit line vectors,
the three axes (00_scope.md R3, R11), real numbers as plain data (00_scope.md R7, R10), and velocities
(10_state.md R47). -/

namespace Sys2Proof

/-- One byte of the program source (20_memory.md R80). -/
abbrev Byte := BitVec 8

/-- A 3-bit per-axis vector, bit 0 = x, bit 1 = y, bit 2 = z (00_scope.md R11). -/
abbrev Lines := BitVec 3

/-- The three axes, in the order every rule evaluates them (00_scope.md R3). -/
inductive Axis where
  | x | y | z
deriving DecidableEq, Repr, Inhabited

/-- The bit an axis has in a 3-bit vector (00_scope.md R11). -/
def Axis.index : Axis → Nat
  | .x => 0
  | .y => 1
  | .z => 2

/-- One value per axis: a register array `NAME[a]` (00_scope.md R11). -/
structure Axis3 (α : Type) where
  x : α
  y : α
  z : α
deriving DecidableEq, Repr, Inhabited

/-- Read element `a` of a per-axis register. -/
def Axis3.get {α : Type} (v : Axis3 α) : Axis → α
  | .x => v.x
  | .y => v.y
  | .z => v.z

/-- Write element `a` of a per-axis register. -/
def Axis3.set {α : Type} (v : Axis3 α) (a : Axis) (c : α) : Axis3 α :=
  match a with
  | .x => { v with x := c }
  | .y => { v with y := c }
  | .z => { v with z := c }

/-- Apply a function to every element. -/
def Axis3.map {α β : Type} (f : α → β) (v : Axis3 α) : Axis3 β :=
  ⟨f v.x, f v.y, f v.z⟩

/-- A real number held as plain data (log 6, DESIGN CHOICE): a rational, or the `n`-th of the real
constants of `Config.real`, of which nothing is known. `RealNumber.value` of Machine/Reals.lean is the
number it stands for. -/
inductive RealNumber where
  | rational (v : Rat)
  | constant (n : Nat)
deriving DecidableEq, Repr, Inhabited

/-- A velocity component: one real number of mm per second (10_state.md R47), held exactly as plain
data (log 12, DESIGN CHOICE).

`exact v` is the rational `v`, `constant n` the real constant `Config.real n`. `shaped c q m` is a
component the Velocity Shaper produced (45_collaborators.md R308): with `c / 128` the normalised
component R301, `sqrt q / 128` the norm of the whole normalised vector and `sqrt m / 128` that of the
part axis snapping kept (R305), it denotes `n * s` of R306 under the run's `DZ`, `FEED_MIN`,
`FEED_MAX`; `velReal` of Machine/Reals.lean writes that real out. -/
inductive Velocity where
  | exact (v : Rat)
  | constant (n : Nat)
  | shaped (c : Int) (q m : Nat)
deriving DecidableEq, Repr, Inhabited

end Sys2Proof
end

