-- ==== Sys2Proof/Machine/Arith.lean ====
section
/-! DEFINITION. The arithmetic of the rules: two's complement wrap, counting step flags, single
lines of a vector (00_scope.md R9 to R11), exact integer square roots, and rational bounds of real
numbers. -/

namespace Sys2Proof.Machine

/-- `wrap_N(i)` (00_scope.md R9): the `j` with `-2^(N-1) <= j < 2^(N-1)` and `j = i (mod 2^N)`. -/
def wrapN (n : Nat) (i : Int) : Int := i.bmod (2 ^ n)

/-- Bit `v[a]` of a per-axis vector (00_scope.md R11). -/
def line (v : Lines) (a : Axis) : Bool := v.getLsbD a.index

/-- `v` with `v[a]` set (00_scope.md R11). -/
def setLine (v : Lines) (a : Axis) : Lines := v ||| (1#3 <<< a.index)

/-- `popcount(s)`: the number of set bits (00_scope.md R10, 41_step_executor.md R171). -/
def popcount (v : Lines) : Fin 4 :=
  Fin.ofNat 4 ((line v .x).toNat + (line v .y).toNat + (line v .z).toNat)

/-- The quotient `m / n` rounded up. -/
def ceilDiv (m n : Nat) : Nat := (m + n - 1) / n

/-- One binary digit of the square root of `n` at a time, from digit `bits - 1` down, above the
part `r` already found. -/
def isqrtFrom : Nat → Nat → Nat → Nat
  | 0, _, r => r
  | bits + 1, n, r =>
    if (r + 2 ^ bits) * (r + 2 ^ bits) ≤ n then isqrtFrom bits n (r + 2 ^ bits)
    else isqrtFrom bits n r

/-- The whole part of the square root of `n`. -/
def isqrt (n : Nat) : Nat := isqrtFrom (n.log2 / 2 + 1) n 0

/-- The least natural `r` with `n <= r * r`: the square root of `n` rounded up. -/
def isqrtUp (n : Nat) : Nat :=
  if isqrt n * isqrt n = n then isqrt n else isqrt n + 1

/-- Rational bounds of a real number (log 13). -/
structure Bounds where
  lo : Rat
  hi : Rat
deriving DecidableEq, Repr

/-- The number of binary digits the bounds of a real number are worked out to (log 13). -/
def precision : Nat := 64

/-- Bounds of `sqrt n`; they meet when `n` is a square. -/
def sqrtBounds (n : Nat) : Bounds :=
  ⟨mkRat (isqrt (n * 4 ^ precision)) (2 ^ precision),
    mkRat (isqrtUp (n * 4 ^ precision)) (2 ^ precision)⟩

/-- Lower bound of `x ^ (a / 2^precision)`, scaled by `2^precision`, for `0 <= a < 2^precision`:
the product of the roots `x^(1/2), x^(1/4), ...` that the binary digits of `a` select, every
operation rounded down. `root` bounds the root before digit `i`, `acc` the product so far. -/
def powChainDown : Nat → Nat → Nat → Nat → Nat
  | 0, _, _, acc => acc
  | i + 1, root, a, acc =>
    powChainDown i (isqrt (root * 2 ^ precision)) a
      (if a.testBit i then acc * isqrt (root * 2 ^ precision) / 2 ^ precision else acc)

/-- The upper bound that goes with `powChainDown`: every operation rounded up. -/
def powChainUp : Nat → Nat → Nat → Nat → Nat
  | 0, _, _, acc => acc
  | i + 1, root, a, acc =>
    powChainUp i (isqrtUp (root * 2 ^ precision)) a
      (if a.testBit i then ceilDiv (acc * isqrtUp (root * 2 ^ precision)) (2 ^ precision) else acc)

/-- Bounds of `x ^ t` for `x >= 1` and `0 <= t <= 1`, `t` itself bounded by `e`. -/
def powBoundsUp (x : Rat) (e : Bounds) : Bounds :=
  let one : Nat := 2 ^ precision
  let a := (e.lo * one).floor.toNat
  let b := (e.hi * one).ceil.toNat
  ⟨if one ≤ a then x
    else mkRat (powChainDown precision (x * one).floor.toNat a one) one,
   if one ≤ b then x
    else mkRat (powChainUp precision (x * one).ceil.toNat b one) one⟩

/-- Bounds of `x ^ t` for `x > 0` and `0 <= t <= 1`, `t` itself bounded by `e`. -/
def powBounds (x : Rat) (e : Bounds) : Bounds :=
  if 1 ≤ x then powBoundsUp x e
  else
    let r := powBoundsUp x⁻¹ e
    ⟨r.hi⁻¹, r.lo⁻¹⟩

end Sys2Proof.Machine
end

