-- ==== Sys2Proof/Config.lean ====
section
/-! DEFINITION. What is fixed for a run (the parameters of 00_scope.md R7), the moves of the agents
(00_scope.md R13), and the free values of the model (log 1, log 6). -/

namespace Sys2Proof

/-- When the PSE appends `Moved` (42_pulse_scheduler.md R213). -/
inductive MovedPolicy where
  | never | manualStep | everyStep
deriving DecidableEq, Repr, Inhabited

/-- The parameters of 00_scope.md R7, one field a row, of the type its row names. Validity is
`Params.valid` (60_exceptions.md R346). -/
structure Params where
  /-- `F_CLK`, timer ticks per second. -/
  fClk : Rat
  /-- `SPM`, steps per millimetre. -/
  spm : Rat
  /-- `VMAX`, mm per minute. -/
  vmax : Rat
  /-- `AMAX`, read by no rule. -/
  amax : Rat
  /-- `DIR_POL[a]`, one bit an axis. -/
  dirPol : Axis3 (BitVec 1)
  /-- `TIMER_MAX`, the largest duration the timer accepts. -/
  timerMax : Nat
  /-- `POS_BITS`, the width of each Position counter. -/
  posBits : Nat
  /-- `TICK_BITS`, the width of TickCounter. -/
  tickBits : Nat
  /-- `TICK_HZ`, read by no rule. -/
  tickHz : Rat
  /-- `ZERO_RECORD_ENDS_PROGRAM`. -/
  zeroRecordEndsProgram : Bool
  /-- `MOVED_POLICY`. -/
  movedPolicy : MovedPolicy
  /-- `ORIENT[a]`, +1 or -1. -/
  orient : Axis3 Int
  /-- `DZ`, the deadzone radius. -/
  dz : RealNumber
  /-- `SNAP`, the axis-snap radius. -/
  snap : RealNumber
  /-- `FEED_MIN`, mm per minute. -/
  feedMin : RealNumber
  /-- `FEED_MAX`, mm per minute. -/
  feedMax : RealNumber
  /-- `DB_DIV`, ticks between debouncer samples. -/
  dbDiv : Nat
  /-- `DB_CAP`, the debouncer's stability cap. -/
  dbCap : Nat
  /-- `SHAPE_DIV`, ticks between shaper runs. -/
  shapeDiv : Nat
deriving DecidableEq, Repr

/-- One atomic move of one agent (00_scope.md R13, 20_memory.md R89, R90). -/
inductive Move where
  /-- One poll of the scheduler (42_pulse_scheduler.md R200). -/
  | poll
  /-- The timer's compare-match move (60_exceptions.md R353). -/
  | timerCompare
  /-- The timer's period-elapsed move (60_exceptions.md R354). -/
  | timerPeriod
  /-- The tick context's next move (60_exceptions.md R358). -/
  | tickContext
  /-- The host drives `estop_n` (45_collaborators.md R322). -/
  | estopPin (level : Bool)
  /-- The manual-mode button's raw level changes (60_exceptions.md R358). -/
  | buttonPin (level : Bool)
  /-- The sampling subsystem writes `RAW[a]` (45_collaborators.md R323). -/
  | rawSample (a : Axis) (v : Byte)
  /-- The program source gains bytes at its end (45_collaborators.md R320). -/
  | srcAppend (bytes : List Byte)
  /-- The host discards a short tail left by an ended program (45_collaborators.md R321, log 16). -/
  | srcDropTail
  /-- `CmdProgramStart` (44_mode_and_events.md R271). -/
  | programStart
  /-- `CmdResume` (44_mode_and_events.md R272). -/
  | resume
  /-- `ToggleManual` issued as a host command (44_mode_and_events.md R273, log 17). -/
  | manualToggle
  /-- The free host write of one velocity component that may stand for the shaper
  (00_scope.md R5, the opening of 45_collaborators.md, log 14). -/
  | velInput (a : Axis) (v : RealNumber)
  /-- The host reads `POS[a]` (20_memory.md R92). -/
  | readPos (a : Axis)
  /-- A read of other telemetry or of the event ring (45_collaborators.md R324,
  60_exceptions.md R360). -/
  | telemetryRead
deriving DecidableEq, Repr, Inhabited

/-- FREE VALUE (log 1): the `n`-th move that the interleaving makes after the listed ones. The spec
fixes no order of moves (20_memory.md R89, 93_implementation_defined.md U5), so nothing is known of
it. -/
opaque Config.freeMove : Nat → Move

/-- FREE VALUE (log 6): the real constants that parameters and host velocities may be. The spec gives
`DZ`, `SNAP` and the feeds any real value (00_scope.md R7) and velocities too (10_state.md R47), so
nothing is known of them. -/
opaque Config.real : Nat → ℝ

end Sys2Proof
end

