-- ==== Sys2Proof/Machine/Reals.lean ====
section
/-! DEFINITION. Real numbers: the number a `RealNumber` stands for, exact tests on reals, and the
real-number formulas of the rules, written out as the spec prints them (00_scope.md R10). Tests and
formulas on reals are not computed by any algorithm; the step evaluates by them only what its rational
arithmetic leaves open (log 6, log 13). -/

namespace Sys2Proof

/-- The real number a parameter or a host velocity stands for. -/
noncomputable def RealNumber.value : RealNumber → ℝ
  | .rational v => (v : ℝ)
  | .constant n => Config.real n

namespace Machine

/-- The truth of a statement about exact reals, as the test of a rule reads it (00_scope.md R10). -/
noncomputable def exactly (P : Prop) : Bool := @decide P (Classical.propDecidable P)

/-- `x < v`. -/
noncomputable def realBelow (x : RealNumber) (v : Rat) : Bool :=
  match x with
  | .rational u => decide (u < v)
  | .constant n => exactly (Config.real n < (v : ℝ))

/-- `v < x`. -/
noncomputable def realAbove (x : RealNumber) (v : Rat) : Bool :=
  match x with
  | .rational u => decide (v < u)
  | .constant n => exactly ((v : ℝ) < Config.real n)

/-- The geometry factor for the minimum duration, `g(k) = sqrt(max(k, 1))`
(41_step_executor.md R172). -/
noncomputable def geometryFactor (k : Nat) : ℝ := Real.sqrt (max k 1 : ℕ)

/-- `base = 60 * F_CLK / (VMAX * SPM)` (41_step_executor.md R173). -/
noncomputable def baseDuration (p : Params) : ℝ := 60 * (p.fClk : ℝ) / ((p.vmax : ℝ) * (p.spm : ℝ))

/-- `max(2, ceil(g(k) * base))` (41_step_executor.md R173). -/
noncomputable def minDurReal (p : Params) (k : Nat) : ℕ :=
  max 2 ⌈geometryFactor k * baseDuration p⌉₊

/-- `max(1, floor(F_CLK / (abs(v) * SPM)))` (43_manual_synthesizer.md R241). -/
noncomputable def realPeriod (p : Params) (v : ℝ) : ℕ :=
  max 1 ⌊(p.fClk : ℝ) / (|v| * (p.spm : ℝ))⌋₊

/-- A real vector's Euclidean norm. -/
noncomputable def realNorm (n : Axis3 ℝ) : ℝ := Real.sqrt (n.x ^ 2 + n.y ^ 2 + n.z ^ 2)

/-- `s = (FEED_MAX / 60)^mag * (FEED_MIN / 60)^(1 - mag)` (45_collaborators.md R306). -/
noncomputable def realScalar (feedMin feedMax mag : ℝ) : ℝ :=
  (feedMax / 60) ^ mag * (feedMin / 60) ^ (1 - mag)

/-- The norm after the deadzone for a vector of norm `m` (45_collaborators.md R302, R303). -/
noncomputable def realDeflection (dz m : ℝ) : ℝ := (min 1 m - dz) / (1 - dz)

/-- The real number a velocity component denotes (`Velocity` of Word.lean). For `shaped c q m`, with
`d` the norm left after the deadzone: `n[a] = c / sqrt q * d`, `mag = sqrt m / sqrt q * d`, and the
component is `n[a] * s` (45_collaborators.md R303, R306). -/
noncomputable def velReal (p : Params) : Velocity → ℝ
  | .exact v => (v : ℝ)
  | .constant n => Config.real n
  | .shaped c q m =>
    let d := realDeflection p.dz.value (Real.sqrt q / 128)
    (c : ℝ) / Real.sqrt q * d
      * realScalar p.feedMin.value p.feedMax.value (Real.sqrt m / Real.sqrt q * d)

/-- `n[a] <- (RAW[a] - ZERO[a]) / 128 * ORIENT[a]` (45_collaborators.md R301). -/
noncomputable def realNormalised (p : Params) (raw zero : Axis3 Byte) : Axis3 ℝ :=
  ⟨((raw.x.toNat : ℝ) - zero.x.toNat) / 128 * p.orient.x,
    ((raw.y.toNat : ℝ) - zero.y.toNat) / 128 * p.orient.y,
    ((raw.z.toNat : ℝ) - zero.z.toNat) / 128 * p.orient.z⟩

/-- `if m > 1: n <- n / m` with `m = norm(n)` (45_collaborators.md R302). -/
noncomputable def realClamp (n : Axis3 ℝ) : Axis3 ℝ :=
  if 1 < realNorm n then n.map (fun c => c / realNorm n) else n

/-- The deadzone with `m = norm(n)` (45_collaborators.md R303). -/
noncomputable def realDeadzone (dz : ℝ) (n : Axis3 ℝ) : Axis3 ℝ :=
  if realNorm n ≤ dz then ⟨0, 0, 0⟩
  else n.map (fun c => c * ((realNorm n - dz) / (1 - dz) / realNorm n))

/-- The dominant axis (45_collaborators.md R304). -/
noncomputable def realDominant (n : Axis3 ℝ) : Axis :=
  if |n.y| ≤ |n.x| ∧ |n.z| ≤ |n.x| then .x
  else if |n.z| ≤ |n.y| then .y
  else .z

/-- Axis snapping (45_collaborators.md R305). -/
noncomputable def realSnap (snap : ℝ) (n : Axis3 ℝ) : Axis3 ℝ :=
  match realDominant n with
  | .z => ⟨0, 0, n.z⟩
  | .x => if Real.sqrt (n.x ^ 2 + n.y ^ 2) ≤ snap then ⟨n.x, 0, 0⟩ else ⟨n.x, n.y, 0⟩
  | .y => if Real.sqrt (n.x ^ 2 + n.y ^ 2) ≤ snap then ⟨0, n.y, 0⟩ else ⟨n.x, n.y, 0⟩

/-- The speed mapping with `mag = norm(n)` (45_collaborators.md R306). -/
noncomputable def realSpeedMap (feedMin feedMax : ℝ) (n : Axis3 ℝ) : Axis3 ℝ :=
  if realNorm n = 0 then ⟨0, 0, 0⟩ else n.map (fun c => c * realScalar feedMin feedMax (realNorm n))

/-- `Shape()` on exact reals, line by line (45_collaborators.md R308). -/
noncomputable def shapeReal (p : Params) (raw zero : Axis3 Byte) : Axis3 ℝ :=
  realSpeedMap p.feedMin.value p.feedMax.value
    (realSnap p.snap.value (realDeadzone p.dz.value (realClamp (realNormalised p raw zero))))

end Machine

end Sys2Proof
end

