-- ==== Sys2Proof/Machine/Parameters.lean ====
section
/-! DEFINITION. The parameters: their validity (60_exceptions.md R346), the polarity table as a
3-bit vector, the parameter set whose real values are rational, and the set `State.reset` starts with
(log 5). -/

namespace Sys2Proof

/-- `F_PARAM`'s test (60_exceptions.md R346). That each `DIR_POL[a]` is 0 or 1 holds by its type. -/
noncomputable def Params.valid (p : Params) : Bool :=
  decide (0 < p.fClk) && decide (0 < p.spm) && decide (0 < p.vmax)
    && decide (65535 ≤ p.timerMax) && decide (2 ≤ p.posBits) && decide (1 ≤ p.tickBits)
    && (decide (p.orient.x = 1) || decide (p.orient.x = -1))
    && (decide (p.orient.y = 1) || decide (p.orient.y = -1))
    && (decide (p.orient.z = 1) || decide (p.orient.z = -1))
    && !Machine.realBelow p.dz 0 && Machine.realBelow p.dz 1 && !Machine.realBelow p.snap 0
    && Machine.realAbove p.feedMin 0 && Machine.realAbove p.feedMax 0
    && decide (1 ≤ p.dbDiv) && decide (1 ≤ p.dbCap) && decide (1 ≤ p.shapeDiv)

/-- The polarity table as a vector: `DIR_POL[z] ++ DIR_POL[y] ++ DIR_POL[x]`
(41_step_executor.md R180). -/
def Params.polarity (p : Params) : Lines := p.dirPol.z ++ p.dirPol.y ++ p.dirPol.x

/-- The real-valued parameters the period of a shaped velocity depends on, when they are rational. -/
structure ShaperRationals where
  dz : Rat
  feedMin : Rat
  feedMax : Rat
deriving DecidableEq, Repr

/-- `DZ`, `FEED_MIN` and `FEED_MAX`, if all three are rational (log 13). -/
def Params.shaperRationals (p : Params) : Option ShaperRationals :=
  match p.dz, p.feedMin, p.feedMax with
  | .rational dz, .rational feedMin, .rational feedMax => some ⟨dz, feedMin, feedMax⟩
  | _, _, _ => none

/-- The parameter set of `State.reset` (log 5, DESIGN CHOICE). The widths, `DZ`, `SNAP`, `DB_DIV`,
`DB_CAP` and the two policies are the values and defaults of 00_scope.md R7; the others are the S8
set of 95_test_vectors.md where it has one. -/
def Params.standard : Params where
  fClk := 200000
  spm := 640
  vmax := 3000
  amax := 0
  dirPol := ⟨0#1, 0#1, 0#1⟩
  timerMax := 65535
  posBits := 32
  tickBits := 32
  tickHz := 1
  zeroRecordEndsProgram := false
  movedPolicy := .never
  orient := ⟨1, 1, 1⟩
  dz := .rational (mkRat 3 25)
  snap := .rational (mkRat 7 10)
  feedMin := .rational 60
  feedMax := .rational 3000
  dbDiv := 50
  dbCap := 50
  shapeDiv := 1

end Sys2Proof
end

