-- ==== Sys2Proof/Machine/State.lean ====
section
/-! DEFINITION. The state: every register, interface input and piece of environment state of
10_state.md, the reasons a step can stop, and the state after reset (70_reset_and_hazards.md R380). -/

namespace Sys2Proof.Machine

/-- `PHASE` (10_state.md R32 #0, R33). -/
inductive Phase where
  | gate | arm | waitCmp | waitEnd
deriving DecidableEq, Repr, Inhabited

/-- `MODE`, the OperatingMode (10_state.md R32 #1, R34). -/
inductive Mode where
  | idle | runningProgram | pausedProgram | manualControl
deriving DecidableEq, Repr, Inhabited

/-- A notification of the EventLog (10_state.md R41, 44_mode_and_events.md R280). -/
inductive LogEvent where
  | none | programEnd | programStart | moved | enterManual | exitManual
deriving DecidableEq, Repr, Inhabited

/-- A model fault's reason (60_exceptions.md R343). -/
inductive FaultReason where
  /-- `F_TIMER_RANGE` (R344). -/
  | timerRange
  /-- `F_ARM_BUSY` (R345). -/
  | armBusy
  /-- `F_PARAM` (R346). -/
  | param
deriving DecidableEq, Repr, Inhabited

/-- `T_STATE` (10_state.md R48). -/
inductive TimerState where
  | stopped | run | cmpd
deriving DecidableEq, Repr, Inhabited

/-- An output action of TRACE (10_state.md R52). -/
inductive TraceEvent where
  | arm (d : Nat)
  | dir (v : Lines)
  | step (v : Lines)
  | spindleOff
  | log (e : LogEvent)
deriving DecidableEq, Repr, Inhabited

/-- A move the tick context owes before its next increment (60_exceptions.md R358,
45_collaborators.md R311). -/
inductive TickDuty where
  /-- One `DebounceSample` move. -/
  | sample
  /-- One shaper run. -/
  | shape
  /-- The write of one component of a shaper run's result. -/
  | writeVel (a : Axis) (v : Velocity)
deriving DecidableEq, Repr, Inhabited

/-- `SPEED_DUR` and `SPEED_K` (10_state.md R36). -/
structure Speed where
  dur : Nat
  k : Fin 4
deriving DecidableEq, Repr, Inhabited

/-- The in-flight event latch `EV_DUR`, `EV_STEP`, `EV_DIR`, `EV_K` (10_state.md R37). -/
structure Latch where
  dur : Nat
  step : Lines
  dir : Lines
  k : Fin 4
deriving DecidableEq, Repr, Inhabited

/-- The EventLog: `LOG[0..3]` and `LOG_HEAD` (10_state.md R41). -/
structure EventLog where
  ring : Vector LogEvent 4
  head : Fin 4
deriving DecidableEq, Repr

/-- The synthesizer's telemetry `SYN_VEL`, `SYN_TICK` (10_state.md R42). -/
structure SynRecord where
  vel : Axis3 Velocity
  tick : Nat
deriving DecidableEq, Repr, Inhabited

/-- The one-shot timer: `T_STATE`, `T_DUR`, `T_CMP`, `T_END` (10_state.md R48). -/
structure Timer where
  state : TimerState
  dur : Nat
  cmp : Bool
  elapsed : Bool
deriving DecidableEq, Repr, Inhabited

/-- The debouncer: `DB_LAST`, `DB_COUNT`, `DB_STATE` (10_state.md R51). -/
structure Debouncer where
  last : Bool
  count : Nat
  state : Bool
deriving DecidableEq, Repr, Inhabited

/-- The machine's state. Each field names the register or registers of 10_state.md it holds. -/
structure State where
  /-- The parameters of 00_scope.md R7, fixed for a run: no move writes them. -/
  params : Params
  /-- `PHASE`. -/
  phase : Phase
  /-- `MODE`. -/
  mode : Mode
  /-- `POS[x]`, `POS[y]`, `POS[z]`: signed, `POS_BITS` bits wide (R35, log 25). -/
  pos : Axis3 Int
  /-- `SPEED_DUR`, `SPEED_K`. -/
  speed : Speed
  /-- `EV_DUR`, `EV_STEP`, `EV_DIR`, `EV_K`. -/
  ev : Latch
  /-- `DIR_OUT`. -/
  dirOut : Lines
  /-- `STEP_OUT`. -/
  stepOut : Lines
  /-- `ZREC`. -/
  zrec : Bool
  /-- `LOG[0..3]`, `LOG_HEAD`. -/
  log : EventLog
  /-- `SYN_VEL[x]`, `SYN_VEL[y]`, `SYN_VEL[z]`, `SYN_TICK`. -/
  syn : SynRecord
  /-- `FAULT` (60_exceptions.md R343). -/
  fault : Option FaultReason
  /-- `estop_n`, the pin; `ESTOP` is its negation (R45). -/
  estopN : Bool
  /-- The manual-mode button's raw level (60_exceptions.md R358). -/
  button : Bool
  /-- `TICK`: unsigned, `TICK_BITS` bits wide (R46, log 25). -/
  tick : Nat
  /-- `VEL[x]`, `VEL[y]`, `VEL[z]` (R47). -/
  vel : Axis3 Velocity
  /-- The tick context's moves still owed after the last increment (60_exceptions.md R358). -/
  tickTodo : List TickDuty
  /-- `T_STATE`, `T_DUR`, `T_CMP`, `T_END`. -/
  timer : Timer
  /-- `SRC`: the bytes the program source can deliver, in delivery order (R49). -/
  src : List Byte
  /-- `SRC_POS` (R50). -/
  srcPos : Nat
  /-- `RAW[a]` (R51). -/
  raw : Axis3 Byte
  /-- `ZERO[a]` (R51). -/
  zero : Axis3 Byte
  /-- `DB_LAST`, `DB_COUNT`, `DB_STATE`. -/
  db : Debouncer
  /-- `TRACE`, oldest event first (R52). -/
  trace : List TraceEvent
  /-- The model's own: what the host's latest read of each `POS[a]` gave (20_memory.md R92,
  log 26). -/
  posRead : Axis3 Int
  /-- The model's own: the coming moves, next one first (log 1). -/
  inputs : List Move
  /-- The model's own: the index of the next free move (log 1). -/
  moveCount : Nat
deriving DecidableEq, Repr

/-- Why a step has no next state. -/
inductive Fault where
  /-- Raised by `step` in a state with `FAULT = F_PARAM`: no agent moves (60_exceptions.md R346).
  Safe: the machine stops where the spec refuses the parameter set (log 3). -/
  | paramRefused
deriving DecidableEq, Repr

/-- Why an instruction has no meaning. -/
inductive Refusal where
  /-- Raised by `exec` for an instruction without a meaning; no arm raises it, all are modelled.
  Safe: nothing is claimed of such an instruction. -/
  | notModelled (mnemonic : String)
deriving DecidableEq, Repr

/-- What the outside fixes at reset: the parameters, the input levels, what the host has loaded and
the values the spec leaves open (70_reset_and_hazards.md R380; 93_implementation_defined.md U1 to
U3), and the coming moves. -/
structure Boot where
  params : Params
  estopN : Bool
  button : Bool
  src : List Byte
  raw : Axis3 Byte
  zero : Axis3 Byte
  dirOut : Lines
  inputs : List Move
deriving DecidableEq, Repr

/-- The registers after reset, with the given `FAULT` (70_reset_and_hazards.md R380). -/
def State.power (b : Boot) (fault : Option FaultReason) : State where
  params := b.params
  phase := .gate
  mode := .idle
  pos := ⟨0, 0, 0⟩
  speed := ⟨0, 0⟩
  ev := ⟨0, 0#3, 0#3, 0⟩
  dirOut := b.dirOut
  stepOut := 0#3
  zrec := false
  log := ⟨#v[.none, .none, .none, .none], 0⟩
  syn := ⟨⟨.exact 0, .exact 0, .exact 0⟩, 0⟩
  fault := fault
  estopN := b.estopN
  button := b.button
  tick := 0
  vel := ⟨.exact 0, .exact 0, .exact 0⟩
  tickTodo := []
  timer := ⟨.stopped, 0, false, false⟩
  src := b.src
  srcPos := 0
  raw := b.raw
  zero := b.zero
  db := ⟨false, 0, false⟩
  trace := []
  posRead := ⟨0, 0, 0⟩
  inputs := b.inputs
  moveCount := 0

/-- The state after reset, for every choice the spec leaves to the outside
(70_reset_and_hazards.md R380): a refused parameter set sets `FAULT` (60_exceptions.md R346). -/
noncomputable def State.boot (b : Boot) : State :=
  State.power b (if b.params.valid then none else some .param)

/-- The choices `State.reset` makes where the spec makes none (log 5, 7 to 11, DESIGN CHOICE): the
standard parameters, the e-stop not asserted, the button low, every other value zero or empty. -/
def Boot.standard : Boot where
  params := .standard
  estopN := true
  button := false
  src := []
  raw := ⟨0#8, 0#8, 0#8⟩
  zero := ⟨0#8, 0#8, 0#8⟩
  dirOut := 0#3
  inputs := []

/-- The machine right after reset (70_reset_and_hazards.md R380), with the choices of
`Boot.standard`. Its parameters are valid: it is `State.boot Boot.standard`
(`reset_eq_boot` of Laws/Reals.lean). -/
def State.reset : State := State.power Boot.standard none

end Sys2Proof.Machine
end

