-- ==== Sys2Proof/Syntax.lean ====
section
/-! DEFINITION. The syntax: one constructor per row of spec/opcode_table.json, the three classes of
program step records (30_encoding.md R115). -/

namespace Sys2Proof

/-- A program step record (30_encoding.md R112). `step` and `dir` are the step and direction flags
as 3-bit vectors (R113); the reserved bits are not part of a record's content (R116). -/
inductive Instr where
  /-- `NULL_REC` (40_program_records.md R144): duration 0; the flags are any values. -/
  | nullRec (step dir : Lines)
  /-- `DWELL_REC` (40_program_records.md R145): a duration and no step flag. -/
  | dwellRec (dur : BitVec 16) (dir : Lines)
  /-- `STEP_REC` (40_program_records.md R146): a duration and one to three step flags. -/
  | stepRec (dur : BitVec 16) (step dir : Lines)
deriving DecidableEq, Repr, Inhabited

/-- The notation `NOP` (30_encoding.md R121): the bytes `00 00 00`. -/
def Instr.nop : Instr := .nullRec 0#3 0#3

/-- The notation `DWELL d`, `d >= 1` (30_encoding.md R121). -/
def Instr.dwell (d : BitVec 16) : Instr := .dwellRec d 0#3

end Sys2Proof
end

