-- ==== Sys2Proof/Machine/Operands.lean ====
section
/-! DEFINITION. The operand forms: the StepEvent every step source produces (00_scope.md R14,
30_encoding.md R113, R119), the event a record stands for, and the values the Step Executor computes
from an event (41_step_executor.md R171 to R177, R181). -/

namespace Sys2Proof.Machine

/-- A StepEvent `{dur, step, dir}` (30_encoding.md R119, 41_step_executor.md R170). -/
structure StepEvent where
  dur : Nat
  step : Lines
  dir : Lines
deriving DecidableEq, Repr, Inhabited

/-- `ZERO_EVENT` (40_program_records.md R140). -/
def zeroEvent : StepEvent := ⟨0, 0#3, 0#3⟩

/-- The event a record decodes to (30_encoding.md R113, 40_program_records.md R140). -/
def recordEvent : Instr → StepEvent
  | .nullRec step dir => ⟨0, step, dir⟩
  | .dwellRec dur dir => ⟨dur.toNat, 0#3, dir⟩
  | .stepRec dur step dir => ⟨dur.toNat, step, dir⟩

/-- `MinDur(k)`: `max(2, n0)` with `n0` the least natural `n` with `n * n * A >= B`,
`A = (VMAX * SPM)^2`, `B = max(k, 1) * (60 * F_CLK)^2` (41_step_executor.md R173). Both sides are
multiplied by the parameters' denominators, so that `A` and `B` are naturals. -/
def minDur (p : Params) (k : Nat) : Nat :=
  let a := p.vmax.num.natAbs * p.spm.num.natAbs * p.fClk.den
  let b := 60 * p.fClk.num.natAbs * p.vmax.den * p.spm.den
  max 2 (isqrtUp (ceilDiv (max k 1 * (b * b)) (a * a)))

/-- The duration armed for an event with `dur > 0` (41_step_executor.md R176, R177). -/
def armedDur (p : Params) (mode : Mode) (dur k : Nat) : Nat :=
  if mode = .manualControl then max dur 2 else max dur (minDur p k)

/-- The direction lines of an event: `ev.dir XOR DIR_POL` (41_step_executor.md R181). -/
def dirLevels (p : Params) (dir : Lines) : Lines := dir ^^^ p.polarity

end Sys2Proof.Machine
end

