-- ==== Sys2Proof/Machine/Flags.lean ====
section
/-! DEFINITION. Every flag and condition the rules compute. The PSE has no condition codes
(10_state.md R30); its flags are ESTOP, ZREC, the timer's conditions and the tests of the scheduler's
sub-steps. -/

namespace Sys2Proof.Machine

/-- `ESTOP = NOT estop_n` (10_state.md R45). -/
def estop (s : State) : Bool := !s.estopN

/-- The new `ZREC` of an ARM sub-step: a record was consumed and its duration is 0
(42_pulse_scheduler.md R206). -/
def zrecFlag (ev : StepEvent) (consumed : Bool) : Bool := consumed && decide (ev.dur = 0)

/-- `SrcAvail()` (20_memory.md R81). -/
def srcAvail (s : State) : Nat := s.src.length

/-- The program-end condition of a GATE sub-step (42_pulse_scheduler.md R203). -/
def programEnds (s : State) : Bool :=
  decide (s.mode = .runningProgram)
    && (decide (srcAvail s < 3) || (s.params.zeroRecordEndsProgram && s.zrec))

/-- Whether a compare-match of an event with `k` step flags appends `Moved`
(42_pulse_scheduler.md R210, R213). -/
def movedDue (policy : MovedPolicy) (mode : Mode) (k : Fin 4) : Bool :=
  match policy with
  | .never => false
  | .manualStep => decide (1 ≤ k.val) && decide (mode = .manualControl)
  | .everyStep => decide (1 ≤ k.val)

/-- `F_ARM_BUSY`'s condition: `T_STATE != STOPPED or T_CMP = 1 or T_END = 1`
(60_exceptions.md R345). -/
def timerBusy (t : Timer) : Bool := decide (t.state ≠ .stopped) || t.cmp || t.elapsed

/-- The number of a mode (10_state.md R32 #1, R34). -/
def modeCode : Mode → BitVec 2
  | .idle => 0#2
  | .runningProgram => 1#2
  | .pausedProgram => 2#2
  | .manualControl => 3#2

/-- The number of a phase (10_state.md R32 #0). -/
def phaseCode : Phase → BitVec 2
  | .gate => 0#2
  | .arm => 1#2
  | .waitCmp => 2#2
  | .waitEnd => 3#2

/-- The number of a notification (44_mode_and_events.md R280). -/
def logCode : LogEvent → BitVec 3
  | .none => 0#3
  | .programEnd => 1#3
  | .programStart => 2#3
  | .moved => 3#3
  | .enterManual => 4#3
  | .exitManual => 5#3

end Sys2Proof.Machine
end

