-- ==== Sys2Proof/Machine/Ops.lean ====
section
/-! DEFINITION. The named operations: one update per field of State, raising a model fault, the event
ring, the output lines, the program source and the one-shot timer. Every other definition writes
State through these. -/

namespace Sys2Proof.Machine

/-- `PHASE <- p` (00_scope.md R11). -/
def State.setPhase (s : State) (v : Phase) : State := { s with phase := v }

/-- `MODE <- v` (10_state.md R34). -/
def State.setMode (s : State) (v : Mode) : State := { s with mode := v }

/-- Write the Position triple (10_state.md R35). -/
def State.setPos (s : State) (v : Axis3 Int) : State := { s with pos := v }

/-- Write `SPEED_DUR`, `SPEED_K` (10_state.md R36). -/
def State.setSpeed (s : State) (v : Speed) : State := { s with speed := v }

/-- Write the event latch (10_state.md R37). -/
def State.setEv (s : State) (v : Latch) : State := { s with ev := v }

/-- Write `DIR_OUT` (10_state.md R38). -/
def State.setDirOut (s : State) (v : Lines) : State := { s with dirOut := v }

/-- Write `STEP_OUT` (10_state.md R39). -/
def State.setStepOut (s : State) (v : Lines) : State := { s with stepOut := v }

/-- Write `ZREC` (10_state.md R40). -/
def State.setZrec (s : State) (v : Bool) : State := { s with zrec := v }

/-- Write the EventLog (10_state.md R41). -/
def State.setLog (s : State) (v : EventLog) : State := { s with log := v }

/-- Write `SYN_VEL`, `SYN_TICK` (10_state.md R42). -/
def State.setSyn (s : State) (v : SynRecord) : State := { s with syn := v }

/-- Write `FAULT` (10_state.md R43). -/
def State.setFault (s : State) (v : Option FaultReason) : State := { s with fault := v }

/-- Drive `estop_n` (10_state.md R44). -/
def State.setEstopN (s : State) (v : Bool) : State := { s with estopN := v }

/-- Set the button's raw level (60_exceptions.md R358). -/
def State.setButton (s : State) (v : Bool) : State := { s with button := v }

/-- Write `TICK` (10_state.md R46). -/
def State.setTick (s : State) (v : Nat) : State := { s with tick := v }

/-- Write the velocity vector (10_state.md R47). -/
def State.setVel (s : State) (v : Axis3 Velocity) : State := { s with vel := v }

/-- Write the tick context's owed moves (60_exceptions.md R358). -/
def State.setTickTodo (s : State) (v : List TickDuty) : State := { s with tickTodo := v }

/-- Write the timer (10_state.md R48). -/
def State.setTimer (s : State) (v : Timer) : State := { s with timer := v }

/-- Write `SRC` (10_state.md R49). -/
def State.setSrc (s : State) (v : List Byte) : State := { s with src := v }

/-- Write `SRC_POS` (10_state.md R50). -/
def State.setSrcPos (s : State) (v : Nat) : State := { s with srcPos := v }

/-- Write the raw samples (10_state.md R51). -/
def State.setRaw (s : State) (v : Axis3 Byte) : State := { s with raw := v }

/-- Write the zero calibration (10_state.md R51). -/
def State.setZero (s : State) (v : Axis3 Byte) : State := { s with zero := v }

/-- Write the debouncer (10_state.md R51). -/
def State.setDb (s : State) (v : Debouncer) : State := { s with db := v }

/-- Append one event to TRACE (10_state.md R52). -/
def State.emit (s : State) (e : TraceEvent) : State := { s with trace := s.trace ++ [e] }

/-- Record what the host's reads of Position gave (20_memory.md R92, log 26). -/
def State.setPosRead (s : State) (v : Axis3 Int) : State := { s with posRead := v }

/-- Write the coming moves (log 1). -/
def State.setInputs (s : State) (v : List Move) : State := { s with inputs := v }

/-- Write the free-move counter (log 1). -/
def State.setMoveCount (s : State) (v : Nat) : State := { s with moveCount := v }

/-- `raise Fault(reason)` (60_exceptions.md R343): `FAULT <- reason` if not already set. Whoever
raises it makes no other write of the sub-step after it. It is the one exception entry of this
hardware; there is no return from it (R349): FAULT is never cleared. -/
def raiseFault (r : FaultReason) (s : State) : State :=
  s.setFault (match s.fault with
    | none => some r
    | some r0 => some r0)

/-- `LOG[LOG_HEAD] <- e; LOG_HEAD <- (LOG_HEAD + 1) mod 4` (44_mode_and_events.md R281). -/
def EventLog.push (l : EventLog) (e : LogEvent) : EventLog :=
  ⟨l.ring.set l.head.val e l.head.isLt, l.head + 1⟩

/-- `LogAppend(e)` (44_mode_and_events.md R281), recorded in TRACE (10_state.md R52). -/
def logAppend (e : LogEvent) (s : State) : State := (s.setLog (s.log.push e)).emit (.log e)

/-- `SpindleOff()` (44_mode_and_events.md R277). -/
def spindleOff (s : State) : State := s.emit .spindleOff

/-- `DIR_OUT <- v`, recorded in TRACE even when no level changes (10_state.md R52). -/
def writeDir (v : Lines) (s : State) : State := (s.setDirOut v).emit (.dir v)

/-- `STEP_OUT <- v`, recorded in TRACE even when no level changes (10_state.md R52). -/
def writeStep (v : Lines) (s : State) : State := (s.setStepOut v).emit (.step v)

/-- `SrcRead(3)` (20_memory.md R82): the next three bytes, with the state that has consumed them;
`none` is the answer "exhausted". -/
def srcRead (s : State) : Option ((Byte × Byte × Byte) × State) :=
  match s.src with
  | b0 :: b1 :: b2 :: rest => some ((b0, b1, b2), (s.setSrc rest).setSrcPos (s.srcPos + 3))
  | _ => none

/-- `TimerArm(d)` (60_exceptions.md R352). The error case is the state in which `F_ARM_BUSY` has
been raised. -/
def timerArm (d : Nat) (s : State) : Except State State :=
  if timerBusy s.timer then .error (raiseFault .armBusy s)
  else .ok ((s.setTimer { s.timer with state := .run, dur := d }).emit (.arm d))

/-- `TimerClearCmp()` (60_exceptions.md R355). -/
def timerClearCmp (s : State) : State := s.setTimer { s.timer with cmp := false }

/-- `TimerClearEnd()` (60_exceptions.md R355). -/
def timerClearEnd (s : State) : State := s.setTimer { s.timer with elapsed := false }

end Sys2Proof.Machine
end

