-- ==== Sys2Proof/Machine/Executor.lean ====
section
/-! DEFINITION. The Step Executor (41_step_executor.md) and what the ARM sub-step does with the event
its step source gave (42_pulse_scheduler.md R206, R207). -/

namespace Sys2Proof.Machine

/-- What `StartStep` returns (41_step_executor.md R170). -/
structure StartResult where
  started : Bool
  dur : Nat
  k : Fin 4
deriving DecidableEq, Repr

/-- `StartStep(ev, mode)` (41_step_executor.md R180). The error case is the state in which a model
fault has been raised: the sub-step ends there. -/
def startStep (ev : StepEvent) (mode : Mode) (s : State) : Except State (StartResult × State) :=
  let k := popcount ev.step
  if ev.dur = 0 then .ok (⟨false, 0, k⟩, s)
  else
    let d := armedDur s.params mode ev.dur k.val
    if s.params.timerMax < d then .error (raiseFault .timerRange s)
    else
      match timerArm d s with
      | .error s1 => .error s1
      | .ok s1 => .ok (⟨true, d, k⟩, writeDir (dirLevels s.params ev.dir) s1)

/-- The ARM sub-step from the line `ZREC <- ...` on (42_pulse_scheduler.md R206): the event is
started and latched, or nothing is started and the speed is zeroed (R207), or a model fault ends the
sub-step (60_exceptions.md R343). -/
def armEvent (ev : StepEvent) (consumed : Bool) (s : State) : State :=
  let s0 := s.setZrec (zrecFlag ev consumed)
  match startStep ev s0.mode s0 with
  | .error s1 => s1
  | .ok (r, s1) =>
    if r.started then (s1.setEv ⟨r.dur, ev.step, ev.dir, r.k⟩).setPhase .waitCmp
    else (s1.setSpeed ⟨0, 0⟩).setPhase .gate

end Sys2Proof.Machine
end

