-- ==== Sys2Proof/Machine/Records.lean ====
section
/-! DEFINITION. The meanings of the three record classes (40_program_records.md R144 to R146): what
the ARM sub-step does with a record it has consumed. The record's bytes are gone from the program
source when a meaning runs (log 18); the rest of a record's effect is made by the later polls. -/

namespace Sys2Proof.Machine

/-- `NULL_REC` (40_program_records.md R144): nothing is started, `ZREC` is set, the speed pair is
zeroed and the scheduler is back at GATE. -/
def execNullRec (step dir : Lines) (s : State) : Host.Outcome State Fault Refusal :=
  .next (armEvent (recordEvent (.nullRec step dir)) true s)

/-- `DWELL_REC` (40_program_records.md R145): a pulse period with no step line, clamped with
geometry factor 1; the direction latch is written. -/
def execDwellRec (dur : BitVec 16) (dir : Lines) (s : State) : Host.Outcome State Fault Refusal :=
  .next (armEvent (recordEvent (.dwellRec dur dir)) true s)

/-- `STEP_REC` (40_program_records.md R146): a pulse on the flagged axes. -/
def execStepRec (dur : BitVec 16) (step dir : Lines) (s : State) :
    Host.Outcome State Fault Refusal :=
  .next (armEvent (recordEvent (.stepRec dur step dir)) true s)

end Sys2Proof.Machine
end

