-- ==== Sys2Proof/Machine/Dispatch.lean ====
section
/-! DEFINITION. One arm per record class, each a direct call of its meaning. -/

namespace Sys2Proof.Machine

def exec (i : Instr) (s : State) : Host.Outcome State Fault Refusal :=
  match i with
  | .nullRec step dir => Sys2Proof.Machine.execNullRec step dir s
  | .dwellRec dur dir => Sys2Proof.Machine.execDwellRec dur dir s
  | .stepRec dur step dir => Sys2Proof.Machine.execStepRec dur step dir s

end Sys2Proof.Machine
end

