-- ==== Sys2Proof/WellFormed.lean ====
section
/-! DEFINITION. Which terms of `Instr` are records: the side conditions of the three classes
(30_encoding.md R115). Each check refuses the records another class takes. -/

namespace Sys2Proof

/-- A well-formed record: a timed class has a duration other than 0, and `STEP_REC` has a step flag
(30_encoding.md R115; the operand lines of 40_program_records.md R144 to R146). -/
def Instr.wf : Instr → Bool
  | .nullRec _ _ => true
  | .dwellRec dur _ => dur != 0#16
  | .stepRec dur step _ => dur != 0#16 && step != 0#3

end Sys2Proof
end

