-- ==== Sys2Proof/Decode.lean ====
section
/-! DEFINITION. The record decoder, total on any bytes, and the encoder (30_encoding.md R110 to
R118, 40_program_records.md R140 to R142, R147). -/

namespace Sys2Proof

/-- The 24-bit word `W = b2 ++ b1 ++ b0` of a record (30_encoding.md R111). -/
def recordWord (b0 b1 b2 : Byte) : BitVec 24 := b2 ++ b1 ++ b0

/-- `DUR = W[15:0]` (30_encoding.md R112, R113). -/
def fieldDur (w : BitVec 24) : BitVec 16 := w.extractLsb' 0 16

/-- The step flags `W[20] ++ W[18] ++ W[16]` (30_encoding.md R113, 40_program_records.md R140). -/
def fieldStep (w : BitVec 24) : Lines :=
  w.extractLsb' 20 1 ++ w.extractLsb' 18 1 ++ w.extractLsb' 16 1

/-- The direction flags `W[21] ++ W[19] ++ W[17]` (30_encoding.md R113). -/
def fieldDir (w : BitVec 24) : Lines :=
  w.extractLsb' 21 1 ++ w.extractLsb' 19 1 ++ w.extractLsb' 17 1

/-- The record a word stands for: the first matching row of 30_encoding.md R115, masks and matches
as spec/opcode_table.json has them. Total: no record is illegal (R117). -/
def decodeWord (w : BitVec 24) : Instr :=
  if w &&& 0x00FFFF#24 = 0x000000#24 then .nullRec (fieldStep w) (fieldDir w)
  else if w &&& 0x150000#24 = 0x000000#24 then .dwellRec (fieldDur w) (fieldDir w)
  else .stepRec (fieldDur w) (fieldStep w) (fieldDir w)

/-- Why no record can be read. The names are those of 60_exceptions.md R341. -/
inductive DecodeStop where
  /-- `S_EXHAUSTED`: no byte is available (40_program_records.md R141). -/
  | exhausted
  /-- `S_SHORT`: one or two bytes are available (40_program_records.md R142). -/
  | short
deriving DecidableEq, Repr

/-- Read one record from the front of a byte stream; what is left of the stream comes back with it.
A stream of fewer than 3 bytes is turned away by name and nothing of it is consumed
(40_program_records.md R140 to R142). -/
def decode : List Byte → Except DecodeStop (Instr × List Byte)
  | b0 :: b1 :: b2 :: rest => .ok (decodeWord (recordWord b0 b1 b2), rest)
  | [] => .error .exhausted
  | [_] => .error .short
  | [_, _] => .error .short

/-- The bit of axis `i` in a 3-bit vector, as a 1-bit string. -/
def lineBit (v : Lines) (i : Nat) : BitVec 1 := v.extractLsb' i 1

/-- Byte 2 of a record: `RSV = 00`, then ZD, ZS, YD, YS, XD, XS (30_encoding.md R112, R116). -/
def flagsByte (step dir : Lines) : Byte :=
  0#2 ++ lineBit dir 2 ++ lineBit step 2 ++ lineBit dir 1 ++ lineBit step 1
    ++ lineBit dir 0 ++ lineBit step 0

/-- The word of a record, with `RSV = 0` (30_encoding.md R112, R116). -/
def encodeWord : Instr → BitVec 24
  | .nullRec step dir => flagsByte step dir ++ 0#16
  | .dwellRec dur dir => flagsByte 0#3 dir ++ dur
  | .stepRec dur step dir => flagsByte step dir ++ dur

/-- The bytes of a word in delivery order, `b0` first (30_encoding.md R111). -/
def wordBytes (w : BitVec 24) : List Byte :=
  [w.extractLsb' 0 8, w.extractLsb' 8 8, w.extractLsb' 16 8]

/-- The three bytes of a record in delivery order (30_encoding.md R110, R112). -/
def encode (i : Instr) : List Byte := wordBytes (encodeWord i)

/-- The bytes, in delivery order, of an instruction whose bits are `w`, the bits from `nbits` on
being 0. -/
def tableBytes (nbits w : Nat) : List Byte := wordBytes (BitVec.ofNat 24 (w % 2 ^ nbits))

/-- The instruction the decoder reads from an instruction word of the opcode table. -/
def decodeTableWord (nbits w : Nat) : Option Instr :=
  match decode (tableBytes nbits w) with
  | .ok (i, _) => some i
  | .error _ => none

end Sys2Proof
end

