-- ==== Sys2Proof/Machine/Fetch.lean ====
section
/-! DEFINITION. The Program Step Decoder (40_program_records.md R140): reading the next record from
the program source. -/

namespace Sys2Proof.Machine

/-- The next record and the state that has consumed it; `none` is exhaustion, a short record
included, and nothing is consumed then (40_program_records.md R140 to R142). -/
def fetchRecord (s : State) : Option (Instr × State) :=
  match srcRead s with
  | some ((b0, b1, b2), s1) => some (decodeWord (recordWord b0 b1 b2), s1)
  | none => none

/-- `DecodeNext()`: the event, whether a record was consumed, and the state after
(40_program_records.md R140). -/
def decodeNext (s : State) : StepEvent × Bool × State :=
  match fetchRecord s with
  | some (i, s1) => (recordEvent i, true, s1)
  | none => (zeroEvent, false, s)

end Sys2Proof.Machine
end

