-- ==== Sys2Proof/Machine/Velocity.lean ====
section
/-! DEFINITION. What the synthesizer asks of a velocity component: whether it is zero, its sign, and
its step period (43_manual_synthesizer.md R241, R244). All three are exact (log 13). -/

namespace Sys2Proof.Machine

/-- `vel[a] = 0`. -/
noncomputable def velIsZero : Velocity → Bool
  | .exact v => v.num == 0
  | .constant n => exactly (Config.real n = 0)
  | .shaped c _ _ => c == 0

/-- `vel[a] > 0`. A shaped component has the sign of its normalised component: the factors of
45_collaborators.md R302 to R306 are positive. -/
noncomputable def velIsPositive : Velocity → Bool
  | .exact v => decide (0 < v.num)
  | .constant n => exactly (0 < Config.real n)
  | .shaped c _ _ => decide (0 < c)

/-- `Period` of a rational velocity: `max(1, floor(F_CLK / (abs(v) * SPM)))`, on numerators and
denominators (43_manual_synthesizer.md R241). -/
def exactPeriod (p : Params) (v : Rat) : Nat :=
  max 1 (p.fClk.num.natAbs * v.den * p.spm.den / (p.fClk.den * v.num.natAbs * p.spm.num.natAbs))

/-- Bounds of the norm left after the deadzone, `(m - DZ) / (1 - DZ)` with
`m = min(1, sqrt q / 128)` (45_collaborators.md R302, R303). -/
def deflectionBounds (r : ShaperRationals) (q : Nat) : Bounds :=
  if 16384 ≤ q then ⟨1, 1⟩
  else
    let w := sqrtBounds q
    ⟨max 0 ((w.lo / 128 - r.dz) / (1 - r.dz)), (w.hi / 128 - r.dz) / (1 - r.dz)⟩

/-- Bounds of the final norm `mag` of the snapped vector (45_collaborators.md R306): the kept share
`sqrt (m * q) / q` of the norm left after the deadzone. -/
def magnitudeBounds (r : ShaperRationals) (q m : Nat) : Bounds :=
  let w := sqrtBounds (m * q)
  let d := deflectionBounds r q
  ⟨w.lo / q * d.lo, w.hi / q * d.hi⟩

/-- Bounds of `s = (FEED_MAX / 60)^mag * (FEED_MIN / 60)^(1 - mag)` (45_collaborators.md R306),
as `FEED_MIN / 60 * (FEED_MAX / FEED_MIN)^mag`. -/
def scalarBounds (r : ShaperRationals) (q m : Nat) : Bounds :=
  let w := powBounds (r.feedMax / r.feedMin) (magnitudeBounds r q m)
  ⟨r.feedMin / 60 * w.lo, r.feedMin / 60 * w.hi⟩

/-- Bounds of `abs(vel[a])` of a shaped component: `abs(n[a]) * s` with
`abs(n[a]) = abs(c) / sqrt q * (m - DZ) / (1 - DZ)` (45_collaborators.md R303, R306). -/
def speedBounds (r : ShaperRationals) (c : Int) (q m : Nat) : Bounds :=
  let u := sqrtBounds q
  let d := deflectionBounds r q
  let w := scalarBounds r q m
  ⟨c.natAbs * (u.lo / q) * d.lo * w.lo, c.natAbs * (u.hi / q) * d.hi * w.hi⟩

/-- `max(1, floor(F_CLK / (v * SPM)))` of a positive rational speed. -/
def speedPeriod (p : Params) (v : Rat) : Nat :=
  max 1 (p.fClk / (v * p.spm)).floor.toNat

/-- The bounds of a shaped component's speed settle its period: both give one period. -/
def periodSettled (p : Params) (b : Bounds) : Bool :=
  decide (0 < b.lo) && decide (speedPeriod p b.lo ≤ speedPeriod p b.hi)

/-- `Period` of a shaped component (43_manual_synthesizer.md R241, log 13): the whole part of the
exact real quotient. Where the parameters are rational and the bounds of the speed settle it, it is
computed from them. -/
noncomputable def shapedPeriod (p : Params) (c : Int) (q m : Nat) : Nat :=
  match p.shaperRationals with
  | some r =>
    if periodSettled p (speedBounds r c q m) then speedPeriod p (speedBounds r c q m).hi
    else realPeriod p (velReal p (.shaped c q m))
  | none => realPeriod p (velReal p (.shaped c q m))

/-- `Period(vel[a])` of a component that is not zero (43_manual_synthesizer.md R241). -/
noncomputable def period (p : Params) : Velocity → Nat
  | .exact v => exactPeriod p v
  | .constant n => realPeriod p (velReal p (.constant n))
  | .shaped c q m => shapedPeriod p c q m

end Sys2Proof.Machine
end

