-- ==== Sys2Proof/Machine/Synthesizer.lean ====
section
/-! DEFINITION. The Manual Step Synthesizer (43_manual_synthesizer.md). It keeps no deadline between
calls: every axis's next edge is computed from the current tick. -/

namespace Sys2Proof.Machine

/-- `rem(a) = P - (t mod P)` (43_manual_synthesizer.md R242). -/
def remaining (t per : Nat) : Nat := per - t % per

/-- The locals of `Synthesize`'s loop (43_manual_synthesizer.md R243). -/
structure SynthAcc where
  dur : Nat
  found : Bool
  step : Lines
  dir : Lines
deriving DecidableEq, Repr

/-- One turn of the loop, for axis `a` (43_manual_synthesizer.md R243): strictly smaller replaces,
equal includes, larger leaves the axis out (R245); the direction flag is written in every case
(R244). -/
noncomputable def synthAxis (p : Params) (t : Nat) (a : Axis) (v : Velocity)
    (acc : SynthAcc) : SynthAcc :=
  let acc := if velIsPositive v then { acc with dir := setLine acc.dir a } else acc
  if velIsZero v then acc
  else
    let r := remaining t (period p v)
    if !acc.found || decide (r < acc.dur) then
      { acc with step := setLine 0#3 a, dur := r, found := true }
    else if r = acc.dur then { acc with step := setLine acc.step a }
    else acc

/-- The event of `Synthesize(t, vel)`: the loop over x, y, z (43_manual_synthesizer.md R243). -/
noncomputable def synthEvent (p : Params) (t : Nat) (vel : Axis3 Velocity) : StepEvent :=
  let acc := synthAxis p t .z vel.z (synthAxis p t .y vel.y
    (synthAxis p t .x vel.x ⟨0, false, 0#3, 0#3⟩))
  ⟨acc.dur, acc.step, acc.dir⟩

/-- `Synthesize(TICK, VEL)` with its telemetry writes (43_manual_synthesizer.md R243, R247). -/
noncomputable def synthesize (s : State) : StepEvent × State :=
  (synthEvent s.params s.tick s.vel, s.setSyn ⟨s.vel, s.tick⟩)

end Sys2Proof.Machine
end

