-- ==== Sys2Proof/Machine/Scheduler.lean ====
section
/-! DEFINITION. The Pulse Scheduler (42_pulse_scheduler.md): the four sub-steps and the poll that
selects one of them. -/

namespace Sys2Proof.Machine

/-- The program-end part of GATE (42_pulse_scheduler.md R203). -/
def gateProgramEnd (s : State) : State :=
  if programEnds s then logAppend .programEnd (s.setMode .idle) else s

/-- The e-stop part of GATE (42_pulse_scheduler.md R204). -/
def gateEstop (s : State) : State :=
  if s.mode = .runningProgram ∧ estop s = true then spindleOff (s.setMode .pausedProgram) else s

/-- Whether GATE suspends (42_pulse_scheduler.md R205). -/
def gateSuspends (s : State) : Bool := estop s || decide (s.mode = .pausedProgram)

/-- The GATE sub-step (42_pulse_scheduler.md R202): program end, then `ZREC`, then the e-stop pause,
then the suspension test. -/
def gateStep (s : State) : State :=
  let s1 := gateEstop ((gateProgramEnd s).setZrec false)
  if gateSuspends s1 then s1.setPhase .gate else s1.setPhase .arm

/-- The ARM sub-step (42_pulse_scheduler.md R206): the mode selects the step source (R208); a record
that was consumed runs as its instruction. -/
noncomputable def armStep (s : State) : Host.Outcome State Fault Refusal :=
  match s.mode with
  | .runningProgram =>
    match fetchRecord s with
    | some (i, s1) => exec i s1
    | none => .next (armEvent zeroEvent false s)
  | .manualControl => .next (armEvent (synthesize s).1 false (synthesize s).2)
  | .idle => .next (armEvent zeroEvent false s)
  | .pausedProgram => .next (armEvent zeroEvent false s)

/-- One step of Position on axis `a`: +1 or -1 by the logical direction flag, wrapped, if the step
flag is set (42_pulse_scheduler.md R212). -/
def stepAxis (n : Nat) (ev : Latch) (a : Axis) (c : Int) : Int :=
  if line ev.step a then wrapN n (c + if line ev.dir a then 1 else -1) else c

/-- Position after the latched event (42_pulse_scheduler.md R212). -/
def stepPos (n : Nat) (ev : Latch) (pos : Axis3 Int) : Axis3 Int :=
  ⟨stepAxis n ev .x pos.x, stepAxis n ev .y pos.y, stepAxis n ev .z pos.z⟩

/-- The `Moved` notification of a compare-match (42_pulse_scheduler.md R213). -/
def movedNotice (s : State) : State :=
  if movedDue s.params.movedPolicy s.mode s.ev.k then logAppend .moved s else s

/-- The compare-match work of WAIT_CMP, from the direction write on (42_pulse_scheduler.md R210 to
R213). -/
def fire (s : State) : State :=
  let s1 := writeStep s.ev.step (writeDir (dirLevels s.params s.ev.dir) s)
  let s2 := (s1.setPos (stepPos s1.params.posBits s1.ev s1.pos)).setSpeed ⟨s1.ev.dur, s1.ev.k⟩
  (timerClearCmp (movedNotice s2)).setPhase .waitEnd

/-- The WAIT_CMP sub-step (42_pulse_scheduler.md R210): suspended until `T_CMP`. -/
def waitCmpStep (s : State) : State :=
  if s.timer.cmp then fire s else s

/-- The WAIT_END sub-step (42_pulse_scheduler.md R214, R215): suspended until `T_END`. -/
def waitEndStep (s : State) : State :=
  if s.timer.elapsed then (writeStep 0#3 (timerClearEnd s)).setPhase .gate else s

/-- One poll (42_pulse_scheduler.md R200): exactly one sub-step, selected by `PHASE`; none when
`FAULT` is set (R201). -/
noncomputable def poll (s : State) : Host.Outcome State Fault Refusal :=
  if s.fault ≠ none then .next s
  else
    match s.phase with
    | .gate => .next (gateStep s)
    | .arm => armStep s
    | .waitCmp => .next (waitCmpStep s)
    | .waitEnd => .next (waitEndStep s)

end Sys2Proof.Machine
end

