-- ==== Sys2Proof/Machine/Modes.lean ====
section
/-! DEFINITION. The host's mode commands (44_mode_and_events.md R271 to R276). Each returns whether
it was handled beside the state (log 19). -/

namespace Sys2Proof.Machine

/-- `CmdProgramStart()` (44_mode_and_events.md R271). -/
def cmdProgramStart (s : State) : Bool × State :=
  if (s.mode = .idle ∨ s.mode = .manualControl) ∧ estop s = false then
    (true, logAppend .programStart (s.setMode .runningProgram))
  else (false, s)

/-- `CmdResume()` (44_mode_and_events.md R272). -/
def cmdResume (s : State) : Bool × State :=
  if s.mode = .pausedProgram ∧ estop s = false then (true, s.setMode .runningProgram)
  else (false, s)

/-- `ToggleManual()` (44_mode_and_events.md R273), with the zero calibration of R283. -/
def toggleManual (s : State) : Bool × State :=
  match s.mode with
  | .idle => (true, logAppend .enterManual ((s.setZero s.raw).setMode .manualControl))
  | .manualControl => (true, logAppend .exitManual (s.setMode .idle))
  | .runningProgram => (false, s)
  | .pausedProgram => (false, s)

end Sys2Proof.Machine
end

