-- ==== Sys2Proof/Machine/Shaper.lean ====
section
/-! DEFINITION. The Velocity Shaper (45_collaborators.md R300 to R309). Every comparison it makes is
decided exactly, on squares where the parameters are rational (log 6); its result is exact (log 12).
Lengths are in units of 1/128. -/

namespace Sys2Proof.Machine

/-- `128 * n[a] = (RAW[a] - ZERO[a]) * ORIENT[a]` (45_collaborators.md R301). -/
def normalised (p : Params) (raw zero : Axis3 Byte) : Axis3 Int :=
  ⟨((raw.x.toNat : Int) - zero.x.toNat) * p.orient.x,
    ((raw.y.toNat : Int) - zero.y.toNat) * p.orient.y,
    ((raw.z.toNat : Int) - zero.z.toNat) * p.orient.z⟩

/-- The square of a vector's norm. -/
def normSq (n : Axis3 Int) : Nat :=
  n.x.natAbs * n.x.natAbs + n.y.natAbs * n.y.natAbs + n.z.natAbs * n.z.natAbs

/-- `m <= DZ` for the norm `m = min(1, sqrt q / 128)` after the clamp (45_collaborators.md R302,
R303): for a rational `DZ >= 0`, `sqrt q / 128 <= DZ` is `q <= 16384 * DZ^2`. -/
noncomputable def inDeadzone (p : Params) (q : Nat) : Bool :=
  match p.dz with
  | .rational dz => if 16384 ≤ q then decide (1 ≤ dz) else decide ((q : Rat) ≤ 16384 * dz ^ 2)
  | .constant n => exactly (min 1 (Real.sqrt q / 128) ≤ Config.real n)

/-- The dominant axis (45_collaborators.md R304). Clamp and deadzone scale all components by one
positive factor, so the comparisons are those of the unscaled vector. -/
def dominant (n : Axis3 Int) : Axis :=
  if n.y.natAbs ≤ n.x.natAbs ∧ n.z.natAbs ≤ n.x.natAbs then .x
  else if n.z.natAbs ≤ n.y.natAbs then .y
  else .z

/-- `planeExceeds` for rational `DZ` and `SNAP`. At full deflection the scaled part is
`sqrt (r / q)`. Below it the test is `sqrt (r q) > e sqrt r + f sqrt q` with `e = 128 DZ`,
`f = 128 SNAP (1 - DZ)`, decided by squaring twice. -/
def planeExceedsRational (dz snap : Rat) (q r : Nat) : Bool :=
  if 16384 ≤ q then decide (snap ^ 2 * q < r)
  else
    let e := 128 * dz
    let f := 128 * snap * (1 - dz)
    let d := (r * q : Rat) - e ^ 2 * r - f ^ 2 * q
    decide (0 < d) && decide ((2 * e * f) ^ 2 * (r * q) < d ^ 2)

/-- `sqrt(n[x]^2 + n[y]^2) > SNAP` after the deadzone (45_collaborators.md R305), where the unscaled
vector has norm `sqrt q` and its x, y part `sqrt r`: the scaled part is the share `sqrt r / sqrt q` of
the norm left after the deadzone. -/
noncomputable def planeExceeds (p : Params) (q r : Nat) : Bool :=
  match p.dz, p.snap with
  | .rational dz, .rational snap => planeExceedsRational dz snap q r
  | _, _ => exactly (p.snap.value
      < Real.sqrt r / Real.sqrt q * realDeflection p.dz.value (Real.sqrt q / 128))

/-- Axis snapping (45_collaborators.md R305): the components it drops become 0. -/
noncomputable def axisSnap (p : Params) (n : Axis3 Int) : Axis3 Int :=
  match dominant n with
  | .z => ⟨0, 0, n.z⟩
  | .x =>
    if planeExceeds p (normSq n) (n.x.natAbs * n.x.natAbs + n.y.natAbs * n.y.natAbs)
    then ⟨n.x, n.y, 0⟩ else ⟨n.x, 0, 0⟩
  | .y =>
    if planeExceeds p (normSq n) (n.x.natAbs * n.x.natAbs + n.y.natAbs * n.y.natAbs)
    then ⟨n.x, n.y, 0⟩ else ⟨0, n.y, 0⟩

/-- A component of the result: 0, or `n[a] * s` held by what it is computed from
(45_collaborators.md R306). -/
def shapedComponent (q m : Nat) (c : Int) : Velocity :=
  if c = 0 then .exact 0 else .shaped c q m

/-- `Shape()` (45_collaborators.md R308). -/
noncomputable def shape (p : Params) (raw zero : Axis3 Byte) : Axis3 Velocity :=
  let n := normalised p raw zero
  if inDeadzone p (normSq n) then ⟨.exact 0, .exact 0, .exact 0⟩
  else (axisSnap p n).map (shapedComponent (normSq n) (normSq (axisSnap p n)))

end Sys2Proof.Machine
end

