-- ==== Sys2Proof/Machine/TickContext.lean ====
section
/-! DEFINITION. The tick context (60_exceptions.md R358): the increment, the Input Debouncer
(45_collaborators.md R312 to R315) and the shaper run (R310, R311), each a move of its own. -/

namespace Sys2Proof.Machine

/-- `DB_LAST` and `DB_COUNT` after a sample (45_collaborators.md R312). -/
def debounceCount (cap : Nat) (d : Debouncer) (b : Bool) : Debouncer :=
  if b ≠ d.last then { d with last := b, count := 1 }
  else if d.count < cap then { d with count := d.count + 1 }
  else d

/-- `DebounceSample(b)` (45_collaborators.md R312): a debounced rising edge calls `ToggleManual`,
whether or not that is handled (R314). -/
def debounceSample (b : Bool) (s : State) : State :=
  let d := debounceCount s.params.dbCap s.db b
  let s1 := s.setDb d
  if d.count = s.params.dbCap then
    let s2 := if d.state = false ∧ d.last = true then (toggleManual s1).2 else s1
    s2.setDb { d with state := d.last }
  else s1

/-- The moves owed after an increment to `t` (60_exceptions.md R358). -/
def dutiesAt (p : Params) (t : Nat) : List TickDuty :=
  (if t % p.dbDiv = 0 then [.sample] else []) ++ (if t % p.shapeDiv = 0 then [.shape] else [])

/-- `TICK <- (TICK + 1) mod 2^TICK_BITS` (60_exceptions.md R358). -/
def tickIncrement (s : State) : State :=
  let t := (s.tick + 1) % 2 ^ s.params.tickBits
  (s.setTick t).setTickTodo (dutiesAt s.params t)

/-- The writes a shaper run leaves to do, x then y then z (45_collaborators.md R311). -/
def velWrites (v : Axis3 Velocity) : List TickDuty :=
  [.writeVel .x v.x, .writeVel .y v.y, .writeVel .z v.z]

/-- The tick context's next move: an owed one, or the next increment (60_exceptions.md R358). -/
noncomputable def tickContext (s : State) : State :=
  match s.tickTodo with
  | [] => tickIncrement s
  | .sample :: ds => debounceSample s.button (s.setTickTodo ds)
  | .shape :: ds => s.setTickTodo (velWrites (shape s.params s.raw s.zero) ++ ds)
  | .writeVel a v :: ds => (s.setTickTodo ds).setVel (s.vel.set a v)

end Sys2Proof.Machine
end

