-- ==== Sys2Proof/Machine/TimerAgent.lean ====
section
/-! DEFINITION. The one-shot timer's own moves (60_exceptions.md R353, R354). A move that is not
enabled changes nothing (log 2). -/

namespace Sys2Proof.Machine

/-- Compare-match: `T_CMP <- 1`, `T_STATE <- CMPD`, enabled in RUN (60_exceptions.md R353). -/
def timerCompare (s : State) : State :=
  if s.timer.state = .run then s.setTimer { s.timer with state := .cmpd, cmp := true } else s

/-- Period elapsed: `T_END <- 1`, `T_STATE <- STOPPED`, enabled in CMPD (60_exceptions.md R354). -/
def timerPeriod (s : State) : State :=
  if s.timer.state = .cmpd then s.setTimer { s.timer with state := .stopped, elapsed := true }
  else s

end Sys2Proof.Machine
end

