-- ==== Sys2Proof/Machine/Moves.lean ====
section
/-! DEFINITION. Every agent's moves as one function, and which move comes next (20_memory.md R89,
log 1). A move that is not enabled changes nothing (log 2). -/

namespace Sys2Proof.Machine

/-- The host discards a 1- or 2-byte tail an ended program left (45_collaborators.md R321,
log 16). -/
def srcDropTail (s : State) : State :=
  if srcAvail s < 3 ∧ (s.mode = .idle ∨ s.mode = .manualControl) then s.setSrc [] else s

/-- The velocity component a host write leaves (00_scope.md R5, log 14). -/
def hostVelocity : RealNumber → Velocity
  | .rational v => .exact v
  | .constant n => .constant n

/-- The host reads `POS[a]`: it gets the value that stands there, and the other axes' earlier reads
stay (20_memory.md R92, log 26). -/
def readPos (a : Axis) (s : State) : State := s.setPosRead (s.posRead.set a (s.pos.get a))

/-- One atomic move (20_memory.md R90). -/
noncomputable def perform (m : Move) (s : State) : Host.Outcome State Fault Refusal :=
  match m with
  | .poll => poll s
  | .timerCompare => .next (timerCompare s)
  | .timerPeriod => .next (timerPeriod s)
  | .tickContext => .next (tickContext s)
  | .estopPin level => .next (s.setEstopN level)
  | .buttonPin level => .next (s.setButton level)
  | .rawSample a v => .next (s.setRaw (s.raw.set a v))
  | .srcAppend bytes => .next (s.setSrc (s.src ++ bytes))
  | .srcDropTail => .next (srcDropTail s)
  | .programStart => .next (cmdProgramStart s).2
  | .resume => .next (cmdResume s).2
  | .manualToggle => .next (toggleManual s).2
  | .velInput a v => .next (s.setVel (s.vel.set a (hostVelocity v)))
  | .readPos a => .next (readPos a s)
  | .telemetryRead => .next s

/-- The next move, and the state without it: the first of the listed moves, or a free one when the
list is empty (log 1). -/
def nextMove (s : State) : Move × State :=
  match s.inputs with
  | m :: ms => (m, s.setInputs ms)
  | [] => (Config.freeMove s.moveCount, s.setMoveCount (s.moveCount + 1))

/-- The state in which the next move is a poll at ARM in RunningProgram and the program source
delivers the given bytes first (log 22). -/
def placeRecord (bytes : List Byte) (s : State) : State :=
  (((((s.setSrc (bytes ++ s.src)).setMode .runningProgram).setPhase .arm).setFault none).setInputs
    (.poll :: s.inputs))

end Sys2Proof.Machine
end

