-- ==== Sys2Proof/Machine/Step.lean ====
section
/-! DEFINITION. The step: one move of one agent (20_memory.md R89). -/

namespace Sys2Proof.Machine

/-- One step: the next move, performed. A refused parameter set has no move (60_exceptions.md R346,
log 3). -/
noncomputable def step (s : State) : Host.Outcome State Fault Refusal :=
  if s.fault = some .param then .fault .paramRefused
  else perform (nextMove s).1 (nextMove s).2

/-- `s` with the record of an opcode-table word placed where the next step runs it (log 22). -/
def State.withFetchWord (s : State) (nbits w : Nat) : State := placeRecord (tableBytes nbits w) s

end Sys2Proof.Machine
end

