-- ==== Sys2Proof/Safety.lean ====
section
/-! DEFINITION. The terms claims use: what an observer sees of a run (10_state.md R52), the launch, the
steps and the end of a program run (70_reset_and_hazards.md R394), which moves are no host command and
no append, and the invariant of the machine. -/

namespace Sys2Proof.Machine

/-- What an observer sees of a run in a state: TRACE and the final registers (10_state.md R52). -/
structure Observation where
  trace : List TraceEvent
  pos : Axis3 Int
  mode : Mode
  speed : Speed
  log : EventLog
  srcPos : Nat
  fault : Option FaultReason
deriving DecidableEq, Repr

/-- The observation of a state (10_state.md R52). -/
def observe (s : State) : Observation :=
  ⟨s.trace, s.pos, s.mode, s.speed, s.log, s.srcPos, s.fault⟩

/-- The number a speed pair denotes: `SPEED_DUR / sqrt(SPEED_K)`, 0 if `SPEED_K = 0` (10_state.md R36,
41_step_executor.md R178). -/
noncomputable def speedValue (v : Speed) : ℝ :=
  if v.k = 0 then 0 else (v.dur : ℝ) / Real.sqrt (v.k.val : ℝ)

/-- Whether a move is neither a host command nor an append to the program source
(70_reset_and_hazards.md R394). The tick context's moves are admitted, though a debouncer sample among
them may issue `ToggleManual`: that is the model's choice (log 27, DESIGN CHOICE). -/
def commandFree : Move → Bool
  | .srcAppend _ | .programStart | .resume | .manualToggle => false
  | .poll | .timerCompare | .timerPeriod | .tickContext | .estopPin _ | .buttonPin _
  | .rawSample _ _ | .srcDropTail | .velInput _ _ | .readPos _ | .telemetryRead => true

/-- A launch state of a run of a program, given by the words of its records: `SRC` holds them and
nothing else (70_reset_and_hazards.md R394). -/
structure Launch (program : List (BitVec 24)) (s : State) : Prop where
  phase : s.phase = .gate
  mode : s.mode = .runningProgram
  fault : s.fault = none
  timer : timerBusy s.timer = false
  src : s.src = program.flatMap wordBytes

/-- What holds of a state in which a program run ends: Idle, and the last notification is `ProgramEnd`;
a state with FAULT set is no end (70_reset_and_hazards.md R394). -/
def AtEnd (s : State) : Prop :=
  s.fault = none ∧ s.mode = .idle ∧ s.log.ring[(s.log.head + 3 : Fin 4)] = .programEnd

/-- One step without a host command and without an append. -/
structure CommandFreeStep (s t : State) : Prop where
  next : step s = .next t
  free : commandFree (nextMove s).1 = true

/-- One step of a program run: no host command, no append and no change of the e-stop
(70_reset_and_hazards.md R394; the note to P2 of 95_test_vectors.md). -/
structure RunStep (s t : State) : Prop extends CommandFreeStep s t where
  steady : t.estopN = s.estopN

/-- The step that ends a run: a GATE sub-step into a state in which it has ended
(70_reset_and_hazards.md R394). -/
structure EndStep (s t : State) : Prop where
  next : step s = .next t
  poll : (nextMove s).1 = .poll
  gate : s.phase = .gate
  ends : AtEnd t

/-- The states a run of a program by steps of one kind reaches from a launch state before it ends. -/
inductive Running (Step : State → State → Prop) (program : List (BitVec 24)) (s : State) :
    State → Prop where
  | launch : Launch program s → Running Step program s s
  | step {t u : State} : Running Step program s t → Step t u → ¬ EndStep t u →
      Running Step program s u

/-- A run of a program from `s` by steps of one kind ends in `t`: the first state that a GATE sub-step
reaches in which it has ended. -/
def EndsBy (Step : State → State → Prop) (program : List (BitVec 24)) (s t : State) : Prop :=
  ∃ u, Running Step program s u ∧ EndStep u t

/-- The program run from `s` ends in `t`; `observe t` is its result (70_reset_and_hazards.md R394). -/
def ProgramEnds (program : List (BitVec 24)) (s t : State) : Prop := EndsBy RunStep program s t

/-- `TimerArm` would find the timer ready (60_exceptions.md R345). -/
def timerReady (s : State) : Prop := timerBusy s.timer = false

/-- The entries of the event ring, oldest first: from `LOG_HEAD` on (44_mode_and_events.md R281). -/
def EventLog.recent (l : EventLog) : List LogEvent :=
  [l.ring[l.head], l.ring[(l.head + 1 : Fin 4)], l.ring[(l.head + 2 : Fin 4)],
    l.ring[(l.head + 3 : Fin 4)]]

/-- The next state of an outcome, changed by `f`; a stop is left as it is. -/
def mapNext (f : State → State) : Host.Outcome State Fault Refusal → Host.Outcome State Fault Refusal
  | .next s => .next (f s)
  | .fault r => .fault r
  | .refused r => .refused r

/-- A run of debouncer samples (45_collaborators.md R312). -/
def debounceRun (s : State) (samples : List Bool) : State :=
  samples.foldl (fun t b => debounceSample b t) s

/-- A velocity component as the shaper or the free input can produce it: a rational, a real
constant, or a shaped component that is not zero, of a kept part no longer than the whole vector, outside
the deadzone, from 8-bit samples (45_collaborators.md R301 to R308). -/
noncomputable def velocityWf (p : Params) : Velocity → Bool
  | .exact _ => true
  | .constant _ => true
  | .shaped c q m =>
    decide (c ≠ 0) && decide (c.natAbs * c.natAbs ≤ m) && decide (m ≤ q) && decide (q ≤ 195075)
      && !inDeadzone p q

/-- Every component of a velocity vector is well formed. -/
noncomputable def velocitiesWf (p : Params) (v : Axis3 Velocity) : Bool :=
  velocityWf p v.x && velocityWf p v.y && velocityWf p v.z

/-- Every owed write of the tick context carries a well-formed component. -/
noncomputable def dutyWf (p : Params) : TickDuty → Bool
  | .writeVel _ v => velocityWf p v
  | _ => true

/-- Position `c` fits `POS_BITS` bits (10_state.md R35). -/
def posFits (n : Nat) (c : Int) : Prop := -(2 ^ (n - 1)) ≤ c ∧ c < 2 ^ (n - 1)

/-- An event is in flight (00_scope.md R14): `PHASE` is WAIT_CMP or WAIT_END. -/
def inFlight (s : State) : Prop := s.phase = .waitCmp ∨ s.phase = .waitEnd

/-- The timer as it can be while the scheduler waits for the compare-match: running, at
compare-match, or past its end (60_exceptions.md R353, R354). -/
def timerBeforeFire (t : Timer) : Prop :=
  (t.state = .run ∧ t.cmp = false ∧ t.elapsed = false)
    ∨ (t.state = .cmpd ∧ t.cmp = true ∧ t.elapsed = false)
    ∨ (t.state = .stopped ∧ t.cmp = true ∧ t.elapsed = true)

/-- The timer as it can be while the scheduler waits for the end of the period. -/
def timerAfterFire (t : Timer) : Prop :=
  (t.state = .cmpd ∧ t.cmp = false ∧ t.elapsed = false)
    ∨ (t.state = .stopped ∧ t.cmp = false ∧ t.elapsed = true)

/-- The invariant of the machine: what the rules promise of every state a run reaches. -/
structure Inv (s : State) : Prop where
  /-- `F_PARAM` stands exactly for a refused parameter set (60_exceptions.md R346). -/
  paramFault : s.fault = some .param ↔ s.params.valid = false
  /-- `F_ARM_BUSY` is unreachable (60_exceptions.md R345). -/
  neverBusy : s.fault ≠ some .armBusy
  /-- No event is in flight at GATE and ARM: the timer is ready (42_pulse_scheduler.md R217). -/
  ready : ¬ inFlight s → timerBusy s.timer = false
  /-- At WAIT_CMP one event is in flight (42_pulse_scheduler.md R217). -/
  beforeFire : s.phase = .waitCmp → timerBeforeFire s.timer
  /-- At WAIT_END its compare-match has been handled (42_pulse_scheduler.md R217). -/
  afterFire : s.phase = .waitEnd → timerAfterFire s.timer
  /-- The latch holds the duration the timer was armed with (10_state.md R37). -/
  armedDur : inFlight s → s.timer.dur = s.ev.dur
  /-- Every armed duration is at least 2 ticks (41_step_executor.md R185). -/
  minWidth : inFlight s → 2 ≤ s.ev.dur
  /-- `EV_DUR` is at most `TIMER_MAX` (10_state.md R32). -/
  evRange : s.ev.dur ≤ s.params.timerMax
  /-- `SPEED_DUR` is at most `TIMER_MAX` (10_state.md R32). -/
  speedRange : s.speed.dur ≤ s.params.timerMax
  /-- `EV_K = popcount(EV_STEP)` (10_state.md R37). -/
  evCount : s.ev.k = popcount s.ev.step
  /-- The direction lines of the event in flight are latched (42_pulse_scheduler.md R211). -/
  dirLatched : inFlight s → s.dirOut = dirLevels s.params s.ev.dir
  /-- The step lines are asserted from compare-match to end of period only
  (42_pulse_scheduler.md R215). -/
  stepLines : s.stepOut = if s.phase = .waitEnd then s.ev.step else 0#3
  /-- While paused the scheduler is at GATE (42_pulse_scheduler.md R220). -/
  pausedAtGate : s.mode = .pausedProgram → s.phase = .gate
  /-- GATE clears `ZREC` (42_pulse_scheduler.md R202). -/
  zrecAtArm : s.phase ≠ .gate → s.zrec = false
  /-- Position fits its width (10_state.md R35). -/
  posRange : ∀ a, posFits s.params.posBits (s.pos.get a)
  /-- `TICK` fits its width (10_state.md R46). -/
  tickRange : s.tick < 2 ^ s.params.tickBits
  /-- `SYN_TICK` fits its width (10_state.md R42). -/
  synTickRange : s.syn.tick < 2 ^ s.params.tickBits
  /-- The debouncer's counter is capped (45_collaborators.md R313). -/
  dbRange : s.db.count ≤ s.params.dbCap
  /-- Record boundaries are multiples of 3 (20_memory.md R84). -/
  framing : s.srcPos % 3 = 0
  /-- The velocity components are such as their writers produce. -/
  velocities : velocitiesWf s.params s.vel = true
  /-- So are the synthesizer's copies of them. -/
  synVelocities : velocitiesWf s.params s.syn.vel = true
  /-- So are the owed writes. -/
  duties : s.tickTodo.all (dutyWf s.params) = true

end Sys2Proof.Machine
end

