-- ==== Sys2Proof/Certificates/Slice0/Obligations.lean ====
section
/-! DEFINITION. The statements for the provers. Each names in its docstring the rule or the section
of spec/ it comes from. -/

open Sys2Proof Sys2Proof.Machine

/-! ## Records: encoding and decoding -/

/-- 30_encoding.md R122, every row of its table: the bytes, their word, and the record they decode to;
and, but for the row with reserved bits set, the bytes that record is encoded in. -/
def Obligations.WrittenRecordsDecode : Prop :=
  (decode [0x00#8, 0x00#8, 0x00#8] = .ok (.nullRec 0b000#3 0b000#3, [])
      ∧ recordWord 0x00#8 0x00#8 0x00#8 = 0x000000#24
      ∧ encode (.nullRec 0b000#3 0b000#3) = [0x00#8, 0x00#8, 0x00#8])
    ∧ (decode [0x00#8, 0x00#8, 0x0F#8] = .ok (.nullRec 0b011#3 0b011#3, [])
      ∧ recordWord 0x00#8 0x00#8 0x0F#8 = 0x0F0000#24
      ∧ encode (.nullRec 0b011#3 0b011#3) = [0x00#8, 0x00#8, 0x0F#8])
    ∧ (decode [0x01#8, 0x00#8, 0x03#8] = .ok (.stepRec 1#16 0b001#3 0b001#3, [])
      ∧ recordWord 0x01#8 0x00#8 0x03#8 = 0x030001#24
      ∧ encode (.stepRec 1#16 0b001#3 0b001#3) = [0x01#8, 0x00#8, 0x03#8])
    ∧ (decode [0x07#8, 0x00#8, 0x0F#8] = .ok (.stepRec 7#16 0b011#3 0b011#3, [])
      ∧ recordWord 0x07#8 0x00#8 0x0F#8 = 0x0F0007#24
      ∧ encode (.stepRec 7#16 0b011#3 0b011#3) = [0x07#8, 0x00#8, 0x0F#8])
    ∧ (decode [0x34#8, 0x12#8, 0x37#8] = .ok (.stepRec 0x1234#16 0b111#3 0b101#3, [])
      ∧ recordWord 0x34#8 0x12#8 0x37#8 = 0x371234#24
      ∧ encode (.stepRec 0x1234#16 0b111#3 0b101#3) = [0x34#8, 0x12#8, 0x37#8])
    ∧ (decode [0xF4#8, 0x01#8, 0x10#8] = .ok (.stepRec 500#16 0b100#3 0b000#3, [])
      ∧ recordWord 0xF4#8 0x01#8 0x10#8 = 0x1001F4#24
      ∧ encode (.stepRec 500#16 0b100#3 0b000#3) = [0xF4#8, 0x01#8, 0x10#8])
    ∧ (decode [0x64#8, 0x00#8, 0x00#8] = .ok (.dwellRec 100#16 0b000#3, [])
      ∧ recordWord 0x64#8 0x00#8 0x00#8 = 0x000064#24
      ∧ encode (.dwellRec 100#16 0b000#3) = [0x64#8, 0x00#8, 0x00#8])
    ∧ (decode [0x64#8, 0x00#8, 0x2A#8] = .ok (.dwellRec 100#16 0b111#3, [])
      ∧ recordWord 0x64#8 0x00#8 0x2A#8 = 0x2A0064#24
      ∧ encode (.dwellRec 100#16 0b111#3) = [0x64#8, 0x00#8, 0x2A#8])
    ∧ (decode [0xFF#8, 0xFF#8, 0x15#8] = .ok (.stepRec 65535#16 0b111#3 0b000#3, [])
      ∧ recordWord 0xFF#8 0xFF#8 0x15#8 = 0x15FFFF#24
      ∧ encode (.stepRec 65535#16 0b111#3 0b000#3) = [0xFF#8, 0xFF#8, 0x15#8])
    ∧ (decode [0x01#8, 0x00#8, 0xC3#8] = .ok (.stepRec 1#16 0b001#3 0b001#3, [])
      ∧ recordWord 0x01#8 0x00#8 0xC3#8 = 0xC30001#24)

/-- Decoding the encoding of a well-formed record gives the record and the rest of the stream back
(30_encoding.md sections 1 and 2). -/
def Obligations.DecodeInvertsEncode : Prop :=
  ∀ (i : Instr) (rest : List Byte), i.wf = true → decode (encode i ++ rest) = .ok (i, rest)

/-- 40_program_records.md R147: a duration, step flags and direction flags laid out as
30_encoding.md R112 says decode to the event with exactly these. -/
def Obligations.RecordFieldsRoundTrip : Prop :=
  ∀ (D : BitVec 16) (s r : Lines) (rest : List Byte),
    ∃ i, decode (wordBytes (flagsByte s r ++ D) ++ rest) = .ok (i, rest)
      ∧ recordEvent i = ⟨D.toNat, s, r⟩

/-- 30_encoding.md R113: where each part of the event stands in the word. -/
def Obligations.EventIsReadFromItsBits : Prop :=
  ∀ w : BitVec 24,
    (recordEvent (decodeWord w)).dur = w.toNat % 65536
      ∧ line (recordEvent (decodeWord w)).step .x = w.getLsbD 16
      ∧ line (recordEvent (decodeWord w)).step .y = w.getLsbD 18
      ∧ line (recordEvent (decodeWord w)).step .z = w.getLsbD 20
      ∧ line (recordEvent (decodeWord w)).dir .x = w.getLsbD 17
      ∧ line (recordEvent (decodeWord w)).dir .y = w.getLsbD 19
      ∧ line (recordEvent (decodeWord w)).dir .z = w.getLsbD 21

/-- 30_encoding.md R115 and R117: every byte triple decodes to one well-formed record, of the class
of the first matching row. -/
def Obligations.EveryTripleDecodesToItsClass : Prop :=
  ∀ (b0 b1 b2 : Byte) (rest : List Byte),
    ∃ i, decode (b0 :: b1 :: b2 :: rest) = .ok (i, rest) ∧ i.wf = true
      ∧ (if b0.toNat + 256 * b1.toNat = 0 then ∃ s r, i = .nullRec s r
        else if b2.getLsbD 0 = false ∧ b2.getLsbD 2 = false ∧ b2.getLsbD 4 = false then
          ∃ d r, i = .dwellRec d r
        else ∃ d s r, i = .stepRec d s r)

/-- 30_encoding.md R116: records that differ only in `RSV` decode alike and have identical effect, and
the encoder writes `RSV = 0`; every other bit of a word comes back from decoding and encoding it. -/
def Obligations.ReservedBitsAreIgnored : Prop :=
  (∀ w v : BitVec 24, w.extractLsb' 0 22 = v.extractLsb' 0 22 →
      decodeWord w = decodeWord v ∧ ∀ s, exec (decodeWord w) s = exec (decodeWord v) s)
    ∧ (∀ i : Instr, (encodeWord i).extractLsb' 22 2 = 0#2)
    ∧ ∀ w : BitVec 24, encodeWord (decodeWord w) = w &&& 0x3FFFFF#24

/-! ## The program source -/

/-- 20_memory.md section 1: `SrcRead(3)` removes the first three bytes and advances `SRC_POS` by 3,
or answers "exhausted". -/
def Obligations.SourceReadTakesThreeBytes : Prop :=
  ∀ s : State,
    (3 ≤ srcAvail s → ∃ b0 b1 b2, s.src = b0 :: b1 :: b2 :: s.src.drop 3
        ∧ srcRead s = some ((b0, b1, b2), { s with src := s.src.drop 3, srcPos := s.srcPos + 3 }))
      ∧ (srcAvail s < 3 → srcRead s = none)

/-- 40_program_records.md section 1: an exhausted or short source gives `ZERO_EVENT`, consumes
nothing and changes nothing. -/
def Obligations.ShortSourceGivesZeroEvent : Prop :=
  ∀ s : State, srcAvail s < 3 → decodeNext s = (⟨0, 0#3, 0#3⟩, false, s)

/-! ## The Step Executor -/

/-- 41_step_executor.md R173: `MinDur(k)` is the larger of 2 and the least natural `n` with
`n * n * A >= B`, and equals `max(2, ceil(g(k) * base))` of exact reals. -/
def Obligations.MinimumDurationIsExact : Prop :=
  ∀ (p : Params) (k : Nat), p.valid = true →
    (∃ n0 : Nat,
        IsLeast { n : Nat | ((max k 1 : Nat) : ℚ) * (60 * p.fClk) ^ 2
          ≤ (n : ℚ) * n * (p.vmax * p.spm) ^ 2 } n0
        ∧ minDur p k = max 2 n0)
      ∧ minDur p k = minDurReal p k

/-- 41_step_executor.md section 3: a zero duration starts nothing and has no side effect, whatever the
mode and the flags. -/
def Obligations.ZeroDurationStartsNothing : Prop :=
  ∀ (step dir : Lines) (mode : Mode) (s : State),
    startStep ⟨0, step, dir⟩ mode s = .ok (⟨false, 0, popcount step⟩, s)

/-- 41_step_executor.md sections 2 to 4: the duration armed (R176, R177), in the state that has the timer
armed with it and the direction lines written; the count of the step flags that selects the minimum
(R171); and, axis by axis, the direction line that a flag and its polarity give (R181). -/
def Obligations.StartStepArmsTheClampedDuration : Prop :=
  (∀ (ev : StepEvent) (mode : Mode) (s : State), 0 < ev.dur → timerReady s →
      let k := popcount ev.step
      let d := if mode = .manualControl then max ev.dur 2 else max ev.dur (minDur s.params k.val)
      d ≤ s.params.timerMax →
      startStep ev mode s = .ok (⟨true, d, k⟩,
        { s with
          timer := { s.timer with state := .run, dur := d }
          dirOut := ev.dir ^^^ s.params.polarity
          trace := s.trace ++ [.arm d, .dir (ev.dir ^^^ s.params.polarity)] }))
    ∧ (∀ v : Lines, (popcount v).val = ([Axis.x, .y, .z].filter (fun a => line v a)).length)
    ∧ ∀ (p : Params) (dir : Lines) (a : Axis),
      line (dir ^^^ p.polarity) a = (line dir a ^^ (p.dirPol.get a).getLsbD 0)

/-- The lower bound of every armed duration (41_step_executor.md section 5): no minimum is below 2, and
no armed duration below the minimum of its mode. -/
def Obligations.ArmedDurationHasItsLowerBound : Prop :=
  (∀ (p : Params) (k : Nat), 2 ≤ minDur p k)
    ∧ ∀ (ev : StepEvent) (mode : Mode) (s t : State) (r : StartResult),
      startStep ev mode s = .ok (r, t) → 0 < ev.dur →
      r.started = true ∧ r.k = popcount ev.step ∧ t.timer.dur = r.dur
        ∧ (mode ≠ .manualControl → minDur s.params r.k.val ≤ r.dur)
        ∧ (mode = .manualControl → 2 ≤ r.dur)

/-- 60_exceptions.md section 1 with 41_step_executor.md section 3: a duration beyond `TIMER_MAX`
raises `F_TIMER_RANGE` before any side effect; a program record meets it only through a minimum beyond
`TIMER_MAX`. -/
def Obligations.TimerRangeFaultsBeforeSideEffects : Prop :=
  (∀ (ev : StepEvent) (mode : Mode) (s : State), 0 < ev.dur → s.fault = none →
      s.params.timerMax < armedDur s.params mode ev.dur (popcount ev.step).val →
      startStep ev mode s = .error { s with fault := some .timerRange })
    ∧ ∀ (p : Params) (i : Instr) (mode : Mode), p.valid = true → mode ≠ .manualControl →
      p.timerMax < armedDur p mode (recordEvent i).dur (popcount (recordEvent i).step).val →
      p.timerMax < minDur p (popcount (recordEvent i).step).val

/-! ## The meanings of the records -/

/-- `NULL_REC` (40_program_records.md section 2): completes in every state, sets `ZREC`, zeroes the
speed pair, goes to GATE, and writes nothing else. -/
def Obligations.NullRecordCompletes : Prop :=
  ∀ (step dir : Lines) (s : State),
    exec (.nullRec step dir) s = .next { s with zrec := true, speed := ⟨0, 0⟩, phase := .gate }

/-- `DWELL_REC` (40_program_records.md section 2): with a ready timer and a duration in range it
arms the clamped duration, latches the event with no step line and `EV_K = 0`, writes the direction
lines, goes to WAIT_CMP, and writes nothing else. -/
def Obligations.DwellRecordCompletes : Prop :=
  ∀ (dur : BitVec 16) (dir : Lines) (s : State), dur ≠ 0#16 → timerReady s →
    let d := armedDur s.params s.mode dur.toNat 0
    d ≤ s.params.timerMax →
    exec (.dwellRec dur dir) s = .next
      { s with
        zrec := false
        timer := { s.timer with state := .run, dur := d }
        dirOut := dir ^^^ s.params.polarity
        ev := ⟨d, 0#3, dir, 0⟩
        phase := .waitCmp
        trace := s.trace ++ [.arm d, .dir (dir ^^^ s.params.polarity)] }

/-- `STEP_REC` (40_program_records.md section 2): with a ready timer and a duration in range it arms
the clamped duration, latches the event, writes the direction lines of all three axes, goes to
WAIT_CMP, and writes nothing else. -/
def Obligations.StepRecordCompletes : Prop :=
  ∀ (dur : BitVec 16) (step dir : Lines) (s : State), dur ≠ 0#16 → timerReady s →
    let d := armedDur s.params s.mode dur.toNat (popcount step).val
    d ≤ s.params.timerMax →
    exec (.stepRec dur step dir) s = .next
      { s with
        zrec := false
        timer := { s.timer with state := .run, dur := d }
        dirOut := dir ^^^ s.params.polarity
        ev := ⟨d, step, dir, popcount step⟩
        phase := .waitCmp
        trace := s.trace ++ [.arm d, .dir (dir ^^^ s.params.polarity)] }

/-- Where a timed record traps (60_exceptions.md section 1): beyond `TIMER_MAX`, or on a busy timer,
FAULT is recorded with `ZREC` cleared, and nothing else is written. That the fault is a value of the
register FAULT in a next state (log 4), and that the record is already consumed when its meaning starts,
so that `SRC` and `SRC_POS` are not among its writes (log 18), is the model's choice. -/
def Obligations.TimedRecordFaultsAreRecorded : Prop :=
  ∀ (i : Instr) (s : State), (recordEvent i).dur ≠ 0 → s.fault = none →
    let d := armedDur s.params s.mode (recordEvent i).dur (popcount (recordEvent i).step).val
    (s.params.timerMax < d →
        exec i s = .next { s with zrec := false, fault := some .timerRange })
      ∧ (d ≤ s.params.timerMax → ¬ timerReady s →
        exec i s = .next { s with zrec := false, fault := some .armBusy })

/-- The frame of all three records, in every state: what no record writes; and what `NULL_REC` leaves
besides (40_program_records.md section 2, "State written"). That section lists `SRC` and `SRC_POS` as
written: in the model the fetch has consumed the record before its meaning starts, and the meaning leaves
both as they are. That is the model's choice (log 18). -/
def Obligations.RecordsLeaveTheRestUnchanged : Prop :=
  ∀ (i : Instr) (s t : State), exec i s = .next t →
    (t.params = s.params ∧ t.mode = s.mode ∧ t.pos = s.pos ∧ t.stepOut = s.stepOut
        ∧ t.log = s.log ∧ t.syn = s.syn ∧ t.estopN = s.estopN ∧ t.button = s.button
        ∧ t.tick = s.tick ∧ t.vel = s.vel ∧ t.tickTodo = s.tickTodo ∧ t.src = s.src
        ∧ t.srcPos = s.srcPos ∧ t.raw = s.raw ∧ t.zero = s.zero ∧ t.db = s.db
        ∧ t.posRead = s.posRead ∧ t.inputs = s.inputs ∧ t.moveCount = s.moveCount)
      ∧ t.timer.cmp = s.timer.cmp ∧ t.timer.elapsed = s.timer.elapsed
      ∧ ((recordEvent i).dur = 0 →
        t.timer = s.timer ∧ t.dirOut = s.dirOut ∧ t.ev = s.ev ∧ t.fault = s.fault
          ∧ t.trace = s.trace)
      ∧ ((recordEvent i).dur ≠ 0 → t.speed = s.speed)

/-! ## The step and the fetch -/

/-- A poll at ARM in RunningProgram runs the record at the front of the program source: the step is
`exec` of the decoded record in the state that has consumed its three bytes and its own move
(42_pulse_scheduler.md section 3). -/
def Obligations.StepRunsTheDecodedRecord : Prop :=
  ∀ (s : State) (i : Instr) (rest : List Byte) (ms : List Move),
    s.inputs = .poll :: ms → s.fault = none → s.phase = .arm → s.mode = .runningProgram →
    decode s.src = .ok (i, rest) →
    step s = exec i { s with inputs := ms, src := rest, srcPos := s.srcPos + 3 }

/-- The parameter sets that are refused (60_exceptions.md R346; that each `DIR_POL[a]` is 0 or 1 holds
by its type, log 24), and what a refused one does: reset records `F_PARAM`, and no step has a next state
(log 3). -/
def Obligations.RefusedParametersStopEveryAgent : Prop :=
  (∀ p : Params, p.valid = true ↔
      0 < p.fClk ∧ 0 < p.spm ∧ 0 < p.vmax ∧ 65535 ≤ p.timerMax ∧ 2 ≤ p.posBits ∧ 1 ≤ p.tickBits
        ∧ (∀ a, p.orient.get a = 1 ∨ p.orient.get a = -1)
        ∧ 0 ≤ p.dz.value ∧ p.dz.value < 1 ∧ 0 ≤ p.snap.value
        ∧ 0 < p.feedMin.value ∧ 0 < p.feedMax.value
        ∧ 1 ≤ p.dbDiv ∧ 1 ≤ p.dbCap ∧ 1 ≤ p.shapeDiv)
    ∧ ∀ b : Boot, b.params.valid = false →
      (State.boot b).fault = some .param ∧
        ∀ s : State, s.fault = some .param → step s = .fault .paramRefused

/-! ## The scheduler's sub-steps -/

/-- 42_pulse_scheduler.md R203: program end at GATE. -/
def Obligations.GateEndsAnExhaustedProgram : Prop :=
  ∀ s : State, s.fault = none → s.phase = .gate →
    (s.mode = .runningProgram →
        (srcAvail s < 3 ∨ (s.params.zeroRecordEndsProgram = true ∧ s.zrec = true)) →
        poll s = .next
          { s with
            mode := .idle
            log := s.log.push .programEnd
            trace := s.trace ++ [.log .programEnd]
            zrec := false
            phase := if estop s then .gate else .arm })
      ∧ ((s.mode ≠ .runningProgram
          ∨ (3 ≤ srcAvail s ∧ (s.params.zeroRecordEndsProgram = false ∨ s.zrec = false))) →
        ∃ t, poll s = .next t ∧ t.log = s.log ∧ (s.mode ≠ .runningProgram → t.mode = s.mode))

/-- 42_pulse_scheduler.md R204: the e-stop pause at GATE, after the program-end check; no record is
consumed. -/
def Obligations.GatePausesOnEmergencyStop : Prop :=
  ∀ s : State, s.fault = none → s.phase = .gate → s.mode = .runningProgram → estop s = true →
    3 ≤ srcAvail s → (s.params.zeroRecordEndsProgram = false ∨ s.zrec = false) →
    poll s = .next
      { s with
        mode := .pausedProgram
        trace := s.trace ++ [.spindleOff]
        zrec := false
        phase := .gate }

/-- Gate pass and suspension (42_pulse_scheduler.md section 2). With no program end and no pause a poll at
GATE writes `ZREC` and PHASE and nothing else. Whatever else it does, it goes to ARM exactly when the
e-stop is clear and the mode it leaves is not PausedProgram; it stays at GATE otherwise, consumes nothing,
and arms nothing. -/
def Obligations.GatePassesOnlyWhenClear : Prop :=
  (∀ s : State, s.fault = none → s.phase = .gate →
      (s.mode ≠ .runningProgram ∨ (estop s = false ∧ 3 ≤ srcAvail s
        ∧ (s.params.zeroRecordEndsProgram = false ∨ s.zrec = false))) →
      poll s = .next
        { s with
          zrec := false
          phase := if estop s = true ∨ s.mode = .pausedProgram then .gate else .arm })
    ∧ ∀ s t : State, s.fault = none → s.phase = .gate → poll s = .next t →
      (t.phase = if estop s = false ∧ t.mode ≠ .pausedProgram then .arm else .gate)
        ∧ t.src = s.src ∧ t.srcPos = s.srcPos ∧ t.timer = s.timer ∧ t.pos = s.pos
        ∧ t.zrec = false ∧ (s.mode = .pausedProgram → t.mode = .pausedProgram)

/-- A no-motion cycle (42_pulse_scheduler.md section 3): with no step source, or with an exhausted
one, a poll at ARM zeroes the speed, clears `ZREC` and returns to GATE. -/
def Obligations.ArmWithoutSourceReturnsToGate : Prop :=
  ∀ s : State, s.fault = none → s.phase = .arm →
    (s.mode = .idle ∨ s.mode = .pausedProgram ∨ (s.mode = .runningProgram ∧ srcAvail s < 3)) →
    poll s = .next { s with zrec := false, speed := ⟨0, 0⟩, phase := .gate }

/-- The manual ARM sub-step (42_pulse_scheduler.md section 3, 43_manual_synthesizer.md section 2):
the synthesizer's event is armed without the speed clamp, its telemetry is recorded, and the program
source is not read. -/
def Obligations.ManualArmStartsTheSynthesizedEvent : Prop :=
  ∀ s : State, s.fault = none → s.phase = .arm → s.mode = .manualControl → timerReady s →
    let ev := synthEvent s.params s.tick s.vel
    (ev.dur = 0 → poll s = .next
        { s with
          syn := ⟨s.vel, s.tick⟩
          zrec := false
          speed := ⟨0, 0⟩
          phase := .gate })
      ∧ (0 < ev.dur → max ev.dur 2 ≤ s.params.timerMax → poll s = .next
        { s with
          syn := ⟨s.vel, s.tick⟩
          zrec := false
          timer := { s.timer with state := .run, dur := max ev.dur 2 }
          dirOut := ev.dir ^^^ s.params.polarity
          ev := ⟨max ev.dur 2, ev.step, ev.dir, popcount ev.step⟩
          phase := .waitCmp
          trace := s.trace
            ++ [.arm (max ev.dur 2), .dir (ev.dir ^^^ s.params.polarity)] })
      ∧ (0 < ev.dur → s.params.timerMax < max ev.dur 2 → poll s = .next
        { s with
          syn := ⟨s.vel, s.tick⟩
          zrec := false
          fault := some .timerRange })

/-- 42_pulse_scheduler.md R211 to R213: the whole state after a poll at compare-match. When `Moved` is
due is what `MovedFollowsItsPolicy` says. -/
def Obligations.CompareMatchFiresTheEvent : Prop :=
  ∀ s : State, s.fault = none → s.phase = .waitCmp → s.timer.cmp = true →
    let moved := movedDue s.params.movedPolicy s.mode s.ev.k
    let stepped := fun a => if line s.ev.step a = true
      then wrapN s.params.posBits (s.pos.get a + if line s.ev.dir a = true then 1 else -1)
      else s.pos.get a
    poll s = .next
      { s with
        stepOut := s.ev.step
        dirOut := s.ev.dir ^^^ s.params.polarity
        pos := ⟨stepped .x, stepped .y, stepped .z⟩
        speed := ⟨s.ev.dur, s.ev.k⟩
        timer := { s.timer with cmp := false }
        phase := .waitEnd
        log := if moved = true then s.log.push .moved else s.log
        trace := s.trace ++ [.dir (s.ev.dir ^^^ s.params.polarity), .step s.ev.step]
          ++ (if moved = true then [.log .moved] else []) }
      ∧ (Inv s → s.ev.dir ^^^ s.params.polarity = s.dirOut)

/-- 42_pulse_scheduler.md R213: when `Moved` is appended at compare-match. -/
def Obligations.MovedFollowsItsPolicy : Prop :=
  ∀ s t : State, s.fault = none → s.phase = .waitCmp → s.timer.cmp = true → poll s = .next t →
    (s.params.movedPolicy = .never → t.log = s.log)
      ∧ (s.params.movedPolicy = .manualStep →
        t.log = if 1 ≤ s.ev.k.val ∧ s.mode = .manualControl then s.log.push .moved else s.log)
      ∧ (s.params.movedPolicy = .everyStep →
        t.log = if 1 ≤ s.ev.k.val then s.log.push .moved else s.log)

/-- 00_scope.md R9: `wrap_N(i)` is the one `j` in range that is congruent to `i`. -/
def Obligations.WrapIsTheOneInRange : Prop :=
  ∀ (n : Nat) (i : Int), 1 ≤ n →
    posFits n (wrapN n i) ∧ wrapN n i % 2 ^ n = i % 2 ^ n
      ∧ ∀ j : Int, posFits n j → j % 2 ^ n = i % 2 ^ n → j = wrapN n i

/-- 42_pulse_scheduler.md R214: the WAIT_END sub-step. Once the period has elapsed the step lines
fall, the condition is cleared, the scheduler is back at GATE, and nothing else is written; before,
nothing is. -/
def Obligations.EndOfPeriodReleasesTheLines : Prop :=
  ∀ s : State, s.fault = none → s.phase = .waitEnd →
    poll s = .next (if s.timer.elapsed = true then
      { s with
        timer := { s.timer with elapsed := false }
        stepOut := 0#3
        phase := .gate
        trace := s.trace ++ [.step 0#3] }
      else s)

/-- Suspension (42_pulse_scheduler.md R219): any number of polls at WAIT_CMP or WAIT_END without the
awaited condition leaves the state as it is. -/
def Obligations.SuspensionHasNoTimeout : Prop :=
  ∀ (n : Nat) (s : State) (ms : List Move), s.fault ≠ some .param →
    s.inputs = List.replicate n .poll ++ ms →
    ((s.phase = .waitCmp ∧ s.timer.cmp = false) ∨ (s.phase = .waitEnd ∧ s.timer.elapsed = false)) →
    Sys2Proof.core.run n s = .next { s with inputs := ms }

/-- 42_pulse_scheduler.md R201: with FAULT set a poll has no effect, and the state is no end of a
program run (70_reset_and_hazards.md section 5). -/
def Obligations.FaultedSchedulerStandsStill : Prop :=
  ∀ (s : State), s.fault ≠ none →
    poll s = .next s
      ∧ ∀ program r, ¬ ProgramEnds program r s ∧ ¬ EndsBy CommandFreeStep program r s

/-- 42_pulse_scheduler.md R221: no step but a compare-match poll writes Position, and that one moves
each flagged axis by one step. -/
def Obligations.PositionChangesOnlyAtCompareMatch : Prop :=
  ∀ s t : State, step s = .next t → t.pos ≠ s.pos →
    (nextMove s).1 = .poll ∧ s.fault = none ∧ s.phase = .waitCmp ∧ s.timer.cmp = true
      ∧ ∀ a, t.pos.get a = if line s.ev.step a = true
          then wrapN s.params.posBits (s.pos.get a + if line s.ev.dir a = true then 1 else -1)
          else s.pos.get a

/-- 42_pulse_scheduler.md R218: past GATE no poll depends on the e-stop. -/
def Obligations.EmergencyStopDoesNotAbortAPulse : Prop :=
  ∀ (s : State) (level : Bool), s.phase ≠ .gate →
    poll { s with estopN := level } = mapNext (fun t => { t with estopN := level }) (poll s)

/-- 42_pulse_scheduler.md R222: a mode change while an event is in flight changes neither its
duration and flags nor what its polls do to Position, lines, speed, timer and phase. -/
def Obligations.ModeChangeDoesNotAlterAPulse : Prop :=
  ∀ (s t : State) (m : Mode), inFlight s → poll s = .next t →
    ∃ u, poll { s with mode := m } = .next u ∧ u.mode = m
      ∧ u.pos = t.pos ∧ u.stepOut = t.stepOut ∧ u.dirOut = t.dirOut ∧ u.speed = t.speed
      ∧ u.ev = t.ev ∧ u.timer = t.timer ∧ u.phase = t.phase ∧ u.zrec = t.zrec
      ∧ u.fault = t.fault ∧ u.src = t.src ∧ u.srcPos = t.srcPos

/-- The whole life of a timed record, from GATE to GATE (40_program_records.md section 2,
42_pulse_scheduler.md R216): GATE, ARM, the timer's compare-match, WAIT_CMP, the end of the period,
WAIT_END. -/
def Obligations.TimedRecordRunsFromGateToGate : Prop :=
  ∀ (i : Instr) (s : State) (rest : List Byte) (ms : List Move),
    i.wf = true → (recordEvent i).dur ≠ 0 →
    s.inputs = [.poll, .poll, .timerCompare, .poll, .timerPeriod, .poll] ++ ms →
    s.phase = .gate → s.mode = .runningProgram → s.fault = none → timerReady s →
    estop s = false → s.stepOut = 0#3 →
    (s.params.zeroRecordEndsProgram = false ∨ s.zrec = false) →
    s.src = encode i ++ rest →
    let ev := recordEvent i
    let k := popcount ev.step
    let d := max ev.dur (minDur s.params k.val)
    let lv := ev.dir ^^^ s.params.polarity
    d ≤ s.params.timerMax →
    ∃ t, Sys2Proof.core.run 6 s = .next t
      ∧ t.phase = .gate ∧ t.mode = .runningProgram ∧ t.fault = none
      ∧ t.src = rest ∧ t.srcPos = s.srcPos + 3 ∧ t.inputs = ms
      ∧ t.pos = stepPos s.params.posBits ⟨d, ev.step, ev.dir, k⟩ s.pos
      ∧ t.speed = ⟨d, k⟩ ∧ t.dirOut = lv ∧ t.stepOut = 0#3
      ∧ t.timer = ⟨.stopped, d, false, false⟩
      ∧ t.trace = s.trace ++ [.arm d, .dir lv, .dir lv, .step ev.step]
          ++ (if s.params.movedPolicy = .everyStep ∧ 1 ≤ k.val then [.log .moved] else [])
          ++ [.step 0#3]

/-! ## Modes and the event log -/

/-- 44_mode_and_events.md R270 and R279: a step that changes the mode makes one of the listed
transitions, by its agent and under its guard; the toggle may also be a host move (log 17, the model's
choice). -/
def Obligations.ModeTransitionsAreTheListedOnes : Prop :=
  ∀ s t : State, step s = .next t → t.mode ≠ s.mode →
    let m := (nextMove s).1
    let toggled := m = .manualToggle ∨ (m = .tickContext ∧ s.tickTodo.head? = some .sample)
    (m = .programStart ∧ (s.mode = .idle ∨ s.mode = .manualControl) ∧ estop s = false
        ∧ t.mode = .runningProgram)
      ∨ (m = .poll ∧ s.phase = .gate ∧ s.mode = .runningProgram ∧ programEnds s = false
        ∧ estop s = true ∧ t.mode = .pausedProgram)
      ∨ (m = .resume ∧ s.mode = .pausedProgram ∧ estop s = false ∧ t.mode = .runningProgram)
      ∨ (m = .poll ∧ s.phase = .gate ∧ s.mode = .runningProgram ∧ programEnds s = true
        ∧ t.mode = .idle)
      ∨ (toggled ∧ s.mode = .idle ∧ t.mode = .manualControl)
      ∨ (toggled ∧ s.mode = .manualControl ∧ t.mode = .idle)

/-- 44_mode_and_events.md R271 and R272: the program start command, and the resume command, which
appends no event; the host's moves of these names perform them. -/
def Obligations.StartAndResumeCommands : Prop :=
  ∀ s : State,
    (cmdProgramStart s =
      if (s.mode = .idle ∨ s.mode = .manualControl) ∧ estop s = false then
        (true, { s with
          mode := .runningProgram
          log := s.log.push .programStart
          trace := s.trace ++ [.log .programStart] })
      else (false, s))
    ∧ (cmdResume s =
      if s.mode = .pausedProgram ∧ estop s = false then
        (true, { s with mode := .runningProgram })
      else (false, s))
    ∧ perform .programStart s = .next (cmdProgramStart s).2
    ∧ perform .resume s = .next (cmdResume s).2

/-- The manual toggle (44_mode_and_events.md section 1: R273 to R276, with R283), at either level of the
e-stop. That it is also a host move of its own, which performs it, is the model's choice (log 17). -/
def Obligations.ManualToggleCommand : Prop :=
  ∀ s : State,
    (s.mode = .idle → toggleManual s = (true, { s with
        zero := s.raw
        mode := .manualControl
        log := s.log.push .enterManual
        trace := s.trace ++ [.log .enterManual] }))
      ∧ (s.mode = .manualControl → toggleManual s = (true, { s with
        mode := .idle
        log := s.log.push .exitManual
        trace := s.trace ++ [.log .exitManual] }))
      ∧ (s.mode = .runningProgram ∨ s.mode = .pausedProgram → toggleManual s = (false, s))
      ∧ perform .manualToggle s = .next (toggleManual s).2

/-- 44_mode_and_events.md section 2: after four or more appends the ring holds, oldest first, the
four most recent. -/
def Obligations.RingKeepsTheFourMostRecent : Prop :=
  ∀ (l : EventLog) (es : List LogEvent), 4 ≤ es.length →
    (es.foldl EventLog.push l).recent = es.drop (es.length - 4)

/-- 42_pulse_scheduler.md R220: PausedProgram implies GATE: a reset machine is not paused, and every
step keeps the implication; and no step from a paused state that keeps it arms an event or changes
Position. -/
def Obligations.PauseHoldsTheSchedulerAtGate : Prop :=
  (∀ b : Boot, (State.boot b).mode ≠ .pausedProgram)
    ∧ ∀ s t : State, (s.mode = .pausedProgram → s.phase = .gate) → step s = .next t →
      (t.mode = .pausedProgram → t.phase = .gate)
        ∧ (s.mode = .pausedProgram → t.pos = s.pos ∧ t.ev = s.ev ∧ t.timer.dur = s.timer.dur
          ∧ ∀ d, .arm d ∉ t.trace.drop s.trace.length)

/-! ## The timer and the tick context -/

/-- 60_exceptions.md R353 and R354: the timer's two moves, where they are enabled. -/
def Obligations.TimerMovesRaiseTheirFlags : Prop :=
  (∀ s : State, s.timer.state = .run →
      perform .timerCompare s
        = .next { s with timer := { s.timer with state := .cmpd, cmp := true } })
    ∧ ∀ s : State, s.timer.state = .cmpd →
      perform .timerPeriod s
        = .next { s with timer := { s.timer with state := .stopped, elapsed := true } }

/-- The tick move (60_exceptions.md section 4): an increment modulo `2^TICK_BITS`, and the moves it
makes due, the debouncer sample before the shaper run; nothing else is written, and no increment
happens while a move is due. An owed sample is `DebounceSample` of the button's current raw level, an owed
shaper run leaves its three writes to do, an owed write writes its component; each is then no longer
owed, and what was owed after it stays (the owed moves are a list, log 15). -/
def Obligations.TickMakesItsDutiesDue : Prop :=
  ∀ s : State,
    (s.tickTodo = [] →
        perform .tickContext s = .next { s with
          tick := (s.tick + 1) % 2 ^ s.params.tickBits
          tickTodo :=
            (if (s.tick + 1) % 2 ^ s.params.tickBits % s.params.dbDiv = 0 then [.sample] else [])
              ++ (if (s.tick + 1) % 2 ^ s.params.tickBits % s.params.shapeDiv = 0 then [.shape]
                else []) })
      ∧ (s.tickTodo ≠ [] → ∃ t, perform .tickContext s = .next t ∧ t.tick = s.tick)
      ∧ (∀ ds, s.tickTodo = .sample :: ds →
        perform .tickContext s = .next (debounceSample s.button { s with tickTodo := ds })
          ∧ (debounceSample s.button { s with tickTodo := ds }).tickTodo = ds)
      ∧ (∀ ds, s.tickTodo = .shape :: ds → perform .tickContext s = .next
        (let v := shape s.params s.raw s.zero
         { s with tickTodo := [.writeVel .x v.x, .writeVel .y v.y, .writeVel .z v.z] ++ ds }))
      ∧ (∀ a v ds, s.tickTodo = .writeVel a v :: ds → perform .tickContext s = .next
        { s with tickTodo := ds, vel := s.vel.set a v })
      ∧ perform .tickContext s = .next (tickContext s)

/-- 45_collaborators.md section 2: the button held. High from a low, accepted state: before the
`DB_CAP`-th sample only the debouncer moves; at it, and never again while it stays high, the manual mode
is toggled, into ManualControl, out of it, or, where the toggle is not handled, with the edge consumed.
Low from a high, accepted state: nothing but the debouncer moves. -/
def Obligations.HeldButtonTogglesOnce : Prop :=
  ∀ (s : State) (n : Nat), 1 ≤ s.params.dbCap →
    (s.db.last = false → s.db.state = false →
      let t := debounceRun s (List.replicate n true)
      let high : Debouncer := ⟨true, s.params.dbCap, true⟩
      (n < s.params.dbCap → t = { s with db := t.db })
        ∧ (s.params.dbCap ≤ n → s.mode = .idle → t =
          { s with
            db := high
            mode := .manualControl
            zero := s.raw
            log := s.log.push .enterManual
            trace := s.trace ++ [.log .enterManual] })
        ∧ (s.params.dbCap ≤ n → s.mode = .manualControl → t =
          { s with
            db := high
            mode := .idle
            log := s.log.push .exitManual
            trace := s.trace ++ [.log .exitManual] })
        ∧ (s.params.dbCap ≤ n → s.mode = .runningProgram ∨ s.mode = .pausedProgram →
          t = { s with db := high }))
    ∧ (s.db.last = true → s.db.state = true →
      let t := debounceRun s (List.replicate n false)
      t = { s with db := t.db }
        ∧ (s.params.dbCap ≤ n → t.db = ⟨false, s.params.dbCap, false⟩))

/-- 45_collaborators.md section 2: samples that, after those the debouncer has counted, never stay for
`DB_CAP` in a row at the value that is not the accepted one cause no toggle, from any state of the
debouncer: only its own registers move, and the accepted value stays. -/
def Obligations.BouncingButtonNeverToggles : Prop :=
  ∀ (s : State) (samples : List Bool),
    ¬ List.replicate s.params.dbCap (!s.db.state) <:+:
      List.replicate s.db.count s.db.last ++ samples →
    let t := debounceRun s samples
    t = { s with db := t.db } ∧ t.db.state = s.db.state

/-- The host's input moves (45_collaborators.md section 3; the button level log 11, the free velocity
write log 14, the discard of a short tail log 16, which are the model's choice of moves): each writes
its one input. A telemetry read writes nothing. -/
def Obligations.HostMovesWriteOneInput : Prop :=
  ∀ (s : State) (level : Bool) (a : Axis) (v : Byte) (x : RealNumber) (bytes : List Byte),
    perform (.estopPin level) s = .next { s with estopN := level }
      ∧ perform (.buttonPin level) s = .next { s with button := level }
      ∧ (∃ t, perform (.rawSample a v) s = .next t ∧ t = { s with raw := t.raw }
        ∧ ∀ b, t.raw.get b = if b = a then v else s.raw.get b)
      ∧ (∃ t, perform (.velInput a x) s = .next t ∧ t = { s with vel := t.vel }
        ∧ velReal s.params (t.vel.get a) = x.value ∧ ∀ b, b ≠ a → t.vel.get b = s.vel.get b)
      ∧ perform (.srcAppend bytes) s = .next { s with src := s.src ++ bytes }
      ∧ perform .srcDropTail s = .next { s with
          src := if srcAvail s < 3 ∧ (s.mode = .idle ∨ s.mode = .manualControl) then [] else s.src }
      ∧ perform .telemetryRead s = .next s

/-- A host's reads of Position (20_memory.md section 4; what a read gave is the model's field `posRead`,
log 26): each axis is a move of its own that writes nothing but what was read; three reads in a row give
one consistent triple; reads across a WAIT_CMP sub-step give the old value of the axes read before it
and the new ones of those read after. -/
def Obligations.PositionIsReadAxisByAxis : Prop :=
  (∀ (s : State) (a : Axis), ∃ t, perform (.readPos a) s = .next t ∧ t = { s with posRead := t.posRead }
      ∧ ∀ b, t.posRead.get b = if b = a then s.pos.get a else s.posRead.get b)
    ∧ (∀ (s : State) (ms : List Move), s.fault ≠ some .param →
      s.inputs = [.readPos .x, .readPos .y, .readPos .z] ++ ms →
      Sys2Proof.core.run 3 s = .next { s with inputs := ms, posRead := s.pos })
    ∧ ∀ (s : State) (ms : List Move), s.fault = none → s.phase = .waitCmp → s.timer.cmp = true →
      s.inputs = [.readPos .x, .poll, .readPos .y, .readPos .z] ++ ms →
      ∃ t, Sys2Proof.core.run 4 s = .next t ∧ t.posRead = ⟨s.pos.x, t.pos.y, t.pos.z⟩
        ∧ t.pos = stepPos s.params.posBits s.ev s.pos

/-! ## The Manual Step Synthesizer -/

/-- 43_manual_synthesizer.md sections 1 and 2: the remaining ticks lie in `1..P`; the event of the loop has
the least remaining time of the moving axes, flags exactly those that have it, and takes every
direction flag from the velocity's sign. -/
def Obligations.SynthesizerFlagsExactlyTheMinima : Prop :=
  ∀ (p : Params) (t : Nat) (vel : Axis3 Velocity),
    let ev := synthEvent p t vel
    let rem := fun a => remaining t (period p (vel.get a))
    (∀ a, 1 ≤ rem a ∧ rem a ≤ period p (vel.get a) ∧ (t + rem a) % period p (vel.get a) = 0
        ∧ rem a = period p (vel.get a) - t % period p (vel.get a))
      ∧ (∀ a, line ev.dir a = velIsPositive (vel.get a))
      ∧ (∀ a, line ev.step a = true ↔ velIsZero (vel.get a) = false ∧ rem a = ev.dur)
      ∧ (∀ a, velIsZero (vel.get a) = false → ev.dur ≤ rem a)
      ∧ ((∃ a, velIsZero (vel.get a) = false) → ∃ a, line ev.step a = true)
      ∧ ((∀ a, velIsZero (vel.get a) = true) → ev.dur = 0)

/-- 43_manual_synthesizer.md R249: the minimal deadline at tick 0. -/
def Obligations.MinimalDeadlineAtTickZero : Prop :=
  ∀ (p : Params) (vel : Axis3 Velocity), (∀ a, velIsZero (vel.get a) = false) →
    period p vel.x ≤ period p vel.y → period p vel.y ≤ period p vel.z →
    (∀ a, remaining 0 (period p (vel.get a)) = period p (vel.get a))
      ∧ (synthEvent p 0 vel).dur = period p vel.x
      ∧ ∀ a, line (synthEvent p 0 vel).step a = true ↔ period p (vel.get a) = period p vel.x

/-! ## The Velocity Shaper -/

/-- 45_collaborators.md R308: the shaper's exact result denotes the real numbers its own text
computes. -/
def Obligations.ShaperComputesItsRealFormula : Prop :=
  ∀ (p : Params) (raw zero : Axis3 Byte), p.valid = true →
    ∀ a, velReal p ((shape p raw zero).get a) = (shapeReal p raw zero).get a

/-- 43_manual_synthesizer.md R241: the period of every velocity component, rational, shaped or any other
real, is the whole part of the exact real quotient, at least 1. The rational bounds by which the model
evaluates the period of a shaped component (log 13) bound it. -/
def Obligations.PeriodIsTheExactFloor : Prop :=
  (∀ (p : Params) (v : Velocity), p.valid = true → velocityWf p v = true → velReal p v ≠ 0 →
      period p v = realPeriod p (velReal p v))
    ∧ ∀ (p : Params) (r : ShaperRationals) (c : Int) (q m : Nat), p.valid = true →
      p.shaperRationals = some r → velocityWf p (.shaped c q m) = true →
      speedPeriod p (speedBounds r c q m).hi ≤ period p (.shaped c q m)
        ∧ (0 < (speedBounds r c q m).lo →
          period p (.shaped c q m) ≤ speedPeriod p (speedBounds r c q m).lo)

/-- The sign and zero tests agree with the real number a component denotes (43_manual_synthesizer.md
section 2). -/
def Obligations.VelocityTestsAgreeWithTheReals : Prop :=
  ∀ (p : Params) (v : Velocity), p.valid = true → velocityWf p v = true →
    (velIsZero v = true ↔ velReal p v = 0) ∧ (velIsPositive v = true ↔ 0 < velReal p v)

/-- 45_collaborators.md R309: no input, no velocity. -/
def Obligations.ShaperIsZeroUnderNoInput : Prop :=
  ∀ (p : Params) (raw : Axis3 Byte), shape p raw raw = ⟨.exact 0, .exact 0, .exact 0⟩

/-- 43_manual_synthesizer.md R250: a whole vector of the shaper whose dominant axis is z never flags
x or y; a vector read between the writes of two shaper runs may flag x with z. -/
def Obligations.DominantZIsExclusive : Prop :=
  (∀ (p : Params) (raw zero : Axis3 Byte) (t : Nat), dominant (normalised p raw zero) = .z →
      (shape p raw zero).x = .exact 0 ∧ (shape p raw zero).y = .exact 0
        ∧ line (synthEvent p t (shape p raw zero)).step .x = false
        ∧ line (synthEvent p t (shape p raw zero)).step .y = false)
    ∧ ∃ (p : Params) (t : Nat) (zero old new : Axis3 Byte), p.valid = true
      ∧ dominant (normalised p old zero) = .z
      ∧ (let v := shape p old zero
         let w := shape p new zero
         line (synthEvent p t ⟨w.x, v.y, v.z⟩).step .x = true
          ∧ line (synthEvent p t ⟨w.x, v.y, v.z⟩).step .z = true)

/-- 45_collaborators.md section 1: one shaper run is one move that computes and three moves that write
x, y and z, in that order. -/
def Obligations.ShaperWritesOneComponentAMove : Prop :=
  ∀ (s : State) (ds : List TickDuty), s.tickTodo = .shape :: ds →
    let v := shape s.params s.raw s.zero
    let s1 := tickContext s
    let s2 := tickContext s1
    let s3 := tickContext s2
    let s4 := tickContext s3
    s1.vel = s.vel ∧ s2.vel = ⟨v.x, s.vel.y, s.vel.z⟩ ∧ s3.vel = ⟨v.x, v.y, s.vel.z⟩
      ∧ s4 = { s with vel := v, tickTodo := ds }

/-! ## Reset and invariants -/

/-- 70_reset_and_hazards.md R380: the registers after reset, for every choice it leaves open. -/
def Obligations.ResetLeavesTheStatedValues : Prop :=
  ∀ b : Boot,
    let s := State.boot b
    s.phase = .gate ∧ s.mode = .idle ∧ s.pos = ⟨0, 0, 0⟩ ∧ s.speed = ⟨0, 0⟩
      ∧ s.ev = ⟨0, 0#3, 0#3, 0⟩ ∧ s.dirOut = b.dirOut ∧ s.stepOut = 0#3 ∧ s.zrec = false
      ∧ s.log = ⟨#v[.none, .none, .none, .none], 0⟩
      ∧ s.syn = ⟨⟨.exact 0, .exact 0, .exact 0⟩, 0⟩
      ∧ s.fault = (if b.params.valid = true then none else some .param)
      ∧ estop s = (!b.estopN) ∧ s.tick = 0 ∧ s.vel = ⟨.exact 0, .exact 0, .exact 0⟩
      ∧ s.timer = ⟨.stopped, 0, false, false⟩ ∧ s.src = b.src ∧ s.srcPos = 0
      ∧ s.raw = b.raw ∧ s.zero = b.zero ∧ s.db = ⟨false, 0, false⟩ ∧ s.trace = []

/-- The invariant of the machine (Safety.lean) holds after every reset. -/
def Obligations.InvariantHoldsAtReset : Prop :=
  ∀ b : Boot, Inv (State.boot b)

/-- Every step of every agent keeps the invariant of the machine (42_pulse_scheduler.md section 5,
60_exceptions.md section 3 and the other rules its fields name). -/
def Obligations.EveryStepKeepsTheInvariant : Prop :=
  ∀ s t : State, Inv s → step s = .next t → Inv t

/-- 10_state.md R50 with 40_program_records.md section 1: `SRC_POS` moves by 3 exactly when three bytes
are consumed, by a poll at ARM in RunningProgram. Bytes leave `SRC` by nothing else but the discard of a
short tail (45_collaborators.md section 3, log 16), and come to it by an append. -/
def Obligations.SourcePositionCountsConsumedBytes : Prop :=
  (∀ s t : State, step s = .next t →
      let m := (nextMove s).1
      (t.srcPos = s.srcPos + 3 ∧ m = .poll ∧ s.fault = none ∧ s.phase = .arm
          ∧ s.mode = .runningProgram ∧ ∃ b0 b1 b2, s.src = b0 :: b1 :: b2 :: t.src)
        ∨ (t.srcPos = s.srcPos
          ∧ (t.src = s.src ∨ (∃ bytes, m = .srcAppend bytes ∧ t.src = s.src ++ bytes)
            ∨ (m = .srcDropTail ∧ srcAvail s < 3 ∧ (s.mode = .idle ∨ s.mode = .manualControl)
              ∧ t.src = []))))
    ∧ ∀ s t : State, step s = .next t → (nextMove s).1 = .poll → s.fault = none → s.phase = .arm →
      s.mode = .runningProgram → 3 ≤ srcAvail s →
      t.srcPos = s.srcPos + 3 ∧ t.src = s.src.drop 3

/-- What no step undoes: the parameters stay (00_scope.md section 3), FAULT is never cleared
(60_exceptions.md section 1), TRACE only grows at its end (10_state.md section 4). -/
def Obligations.NoStepRewritesHistory : Prop :=
  ∀ s t : State, step s = .next t →
    t.params = s.params ∧ (∀ r, s.fault = some r → t.fault = some r) ∧ s.trace <+: t.trace

/-- The end of a program run (70_reset_and_hazards.md section 5): a run that ends has consumed its
program record by record, all of it where a zero-duration record does not end programs; it ends Idle
without a fault, with the `ProgramEnd` notification as its last output; and it has one end. The same
holds of runs with e-stop changes, which are no program runs (the note to P2 of 95_test_vectors.md). That
debouncer samples are among the steps of both is the model's choice (log 27). -/
def Obligations.AnEndedRunHasConsumedItsProgram : Prop :=
  ∀ (program : List (BitVec 24)) (s t : State),
    (ProgramEnds program s t → EndsBy CommandFreeStep program s t)
      ∧ (EndsBy CommandFreeStep program s t →
        (∃ n, n ≤ program.length ∧ t.srcPos = s.srcPos + 3 * n
            ∧ t.src = (program.drop n).flatMap wordBytes
            ∧ (s.params.zeroRecordEndsProgram = false → n = program.length))
          ∧ t.fault = none ∧ t.mode = .idle
          ∧ (∃ outputs, t.trace = s.trace ++ outputs ++ [.log .programEnd])
          ∧ ∀ u, EndsBy CommandFreeStep program s u → u = t)
end

