-- ==== Sys2Proof/Laws/Arith.lean ====
section
/-! SUPPORT. What each arithmetic operation answers: wrap, step-flag counts, square roots, and the
rational bounds of roots and powers. -/

namespace Sys2Proof.Machine

theorem wrapN_emod (n : Nat) (i : Int) : (wrapN n i) % (2 ^ n : ℕ) = i % (2 ^ n : ℕ) := by
  exact Int.bmod_emod

theorem wrapN_range {n : Nat} (hn : 1 ≤ n) (i : Int) :
    -(2 ^ (n - 1)) ≤ wrapN n i ∧ wrapN n i < 2 ^ (n - 1) := by
  obtain ⟨k, rfl⟩ : ∃ k, n = k + 1 := ⟨n - 1, by omega⟩
  have hpos : (0 : Int) < 2 ^ k := by positivity
  have hlo := Int.le_bmod (x := i) (m := 2 ^ (k + 1)) (by positivity)
  have hhi := Int.bmod_lt (x := i) (m := 2 ^ (k + 1)) (by positivity)
  have h2 : ((2 ^ (k + 1) : ℕ) : Int) = 2 * 2 ^ k := by push_cast; ring
  simp only [wrapN, Nat.add_sub_cancel]
  rw [h2] at hlo hhi
  constructor <;> omega

theorem popcount_le_three (v : Lines) : (popcount v).val ≤ 3 := by omega

theorem popcount_eq_zero_iff (v : Lines) : popcount v = 0 ↔ v = 0#3 := by
  revert v; decide

/-- The rounded-up quotient is the least `k` with `m <= k * n`. -/
theorem ceilDiv_le_iff {m n k : Nat} (hn : 0 < n) : ceilDiv m n ≤ k ↔ m ≤ k * n := by
  unfold ceilDiv
  rw [← Nat.lt_succ_iff, Nat.div_lt_iff_lt_mul hn, Nat.succ_mul]
  omega

theorem isqrtFrom_spec : ∀ (bits n r : Nat), r * r ≤ n → n < (r + 2 ^ bits) * (r + 2 ^ bits) →
    isqrtFrom bits n r * isqrtFrom bits n r ≤ n
      ∧ n < (isqrtFrom bits n r + 1) * (isqrtFrom bits n r + 1)
  | 0, _, _, hlo, hhi => ⟨hlo, hhi⟩
  | bits + 1, n, r, hlo, hhi => by
    rw [isqrtFrom]
    split
    · next h =>
      apply isqrtFrom_spec bits n _ h
      have : r + 2 ^ bits + 2 ^ bits = r + 2 ^ (bits + 1) := by rw [pow_succ]; ring
      rwa [this]
    · next h => exact isqrtFrom_spec bits n r hlo (Nat.lt_of_not_le h)

/-- The whole part of the square root: `isqrt n` squared is at most `n`, the next square is above. -/
theorem isqrt_spec (n : Nat) : isqrt n * isqrt n ≤ n ∧ n < (isqrt n + 1) * (isqrt n + 1) := by
  refine isqrtFrom_spec _ n 0 (Nat.zero_le n) ?_
  simp only [Nat.zero_add]
  rcases Nat.eq_zero_or_pos n with rfl | hn
  · positivity
  · have h1 : n < 2 ^ (n.log2 + 1) := Nat.lt_log2_self
    have h2 : (2 : ℕ) ^ (n.log2 + 1) ≤ 2 ^ (n.log2 / 2 + 1) * 2 ^ (n.log2 / 2 + 1) := by
      rw [← pow_add]; exact Nat.pow_le_pow_right (by norm_num) (by omega)
    omega

/-- The rounded-up square root is the least `k` with `n <= k * k`. -/
theorem isqrtUp_le_iff (n k : Nat) : isqrtUp n ≤ k ↔ n ≤ k * k := by
  obtain ⟨hlo, hhi⟩ := isqrt_spec n
  unfold isqrtUp
  split
  · next h =>
    constructor
    · intro hk; exact h ▸ Nat.mul_le_mul hk hk
    · intro hk; exact Nat.mul_self_le_mul_self_iff.1 (h.symm ▸ hk)
  · next h =>
    constructor
    · intro hk
      have := Nat.mul_le_mul hk hk
      omega
    · intro hk
      by_contra hc
      have hle : k ≤ isqrt n := by omega
      have := Nat.mul_le_mul hle hle
      omega

theorem isqrtUp_spec (n : Nat) : n ≤ isqrtUp n * isqrtUp n := (isqrtUp_le_iff n _).1 le_rfl

end Sys2Proof.Machine
end

