-- ==== Sys2Proof/Laws/Reals.lean ====
section
/-! SUPPORT. What each exact test on reals answers, and how it looks on rational parameters. -/

namespace Sys2Proof

@[simp] theorem RealNumber.value_rational (v : ℚ) : (RealNumber.rational v).value = (v : ℝ) := rfl

@[simp] theorem RealNumber.value_constant (n : ℕ) : (RealNumber.constant n).value = Config.real n := rfl

namespace Machine

@[simp] theorem exactly_iff (P : Prop) : exactly P = true ↔ P := by simp [exactly]

@[simp] theorem realBelow_iff (x : RealNumber) (v : ℚ) : realBelow x v = true ↔ x.value < (v : ℝ) := by
  cases x <;> simp [realBelow]

@[simp] theorem realAbove_iff (x : RealNumber) (v : ℚ) : realAbove x v = true ↔ (v : ℝ) < x.value := by
  cases x <;> simp [realAbove]

/-- The rational parameters of the shaper are the parameters themselves. -/
theorem shaperRationals_eq_some {p : Params} {r : ShaperRationals} (h : p.shaperRationals = some r) :
    p.dz = .rational r.dz ∧ p.feedMin = .rational r.feedMin ∧ p.feedMax = .rational r.feedMax := by
  unfold Params.shaperRationals at h
  split at h
  · next h1 h2 h3 => cases h; exact ⟨h1, h2, h3⟩
  · cases h

/-- The deadzone test is the comparison of 45_collaborators.md R303. -/
theorem inDeadzone_iff {p : Params} (h0 : 0 ≤ p.dz.value) (q : ℕ) :
    inDeadzone p q = true ↔ min 1 (Real.sqrt q / 128) ≤ p.dz.value := by
  unfold inDeadzone
  cases hdz : p.dz with
  | constant n => simp
  | rational dz =>
    rw [hdz] at h0
    simp only [RealNumber.value_rational] at h0 ⊢
    split
    · next h =>
      have h' : (16384 : ℝ) ≤ q := by exact_mod_cast h
      have h128 : 128 ≤ Real.sqrt q := Real.le_sqrt_of_sq_le (by linarith)
      rw [min_eq_left (by rw [le_div_iff₀ (by norm_num)]; linarith)]
      simp only [decide_eq_true_eq]
      exact ⟨fun h => by exact_mod_cast h, fun h => by exact_mod_cast h⟩
    · next h =>
      have h' : (q : ℝ) < 16384 := by exact_mod_cast Nat.lt_of_not_le h
      have h128 : Real.sqrt q < 128 := by
        rw [Real.sqrt_lt' (by norm_num)]; linarith
      rw [min_eq_right (by rw [div_le_one (by norm_num)]; exact h128.le), div_le_iff₀ (by norm_num),
        Real.sqrt_le_left (by positivity)]
      simp only [decide_eq_true_eq]
      have e : ((q : ℚ) ≤ 16384 * dz ^ 2) ↔ ((q : ℝ) ≤ 16384 * (dz : ℝ) ^ 2) := by
        rw [← Rat.cast_le (K := ℝ)]; push_cast; rfl
      rw [e, mul_pow]
      constructor <;> intro h <;> linarith

/-- Outside the deadzone the norm left after it is positive (45_collaborators.md R303). -/
theorem realDeflection_pos {p : Params} {q : ℕ} (h0 : 0 ≤ p.dz.value) (h1 : p.dz.value < 1)
    (hq : inDeadzone p q = false) : 0 < realDeflection p.dz.value (Real.sqrt q / 128) := by
  have h : ¬ min 1 (Real.sqrt q / 128) ≤ p.dz.value := by
    rw [← inDeadzone_iff h0, hq]; decide
  exact div_pos (by linarith [not_le.1 h]) (by linarith)

/-- The period of a shaped component that the bounds do not settle. -/
theorem period_unsettled {p : Params} {r : ShaperRationals} {c : ℤ} {q m : ℕ}
    (hp : p.shaperRationals = some r) (h : periodSettled p (speedBounds r c q m) = false) :
    period p (.shaped c q m) = realPeriod p (velReal p (.shaped c q m)) := by
  simp [period, shapedPeriod, hp, h]

/-- The period of a shaped component that the bounds settle. -/
theorem period_settled {p : Params} {r : ShaperRationals} {c : ℤ} {q m : ℕ}
    (hp : p.shaperRationals = some r) (h : periodSettled p (speedBounds r c q m) = true) :
    period p (.shaped c q m) = speedPeriod p (speedBounds r c q m).hi := by
  simp [period, shapedPeriod, hp, h]

/-- The parameters of `State.reset` are valid, so it is the boot state of its choices. -/
theorem reset_eq_boot : State.reset = State.boot Boot.standard := by
  have h : Boot.standard.params.valid = true := by decide +kernel
  simp [State.reset, State.boot, h]

end Machine

end Sys2Proof
end

