-- ==== Sys2Proof/Laws/Bounds.lean ====
section
/-! SUPPORT. The rational bounds of Machine/Arith.lean and Machine/Velocity.lean contain the real
numbers they are bounds of. -/

namespace Sys2Proof.Machine

/-- The bounds contain a real number. -/
def Bounds.Contains (b : Bounds) (x : ℝ) : Prop := (b.lo : ℝ) ≤ x ∧ x ≤ (b.hi : ℝ)

theorem Bounds.Contains.mul {a b : Bounds} {x y : ℝ} (ha : a.Contains x) (hb : b.Contains y)
    (ha0 : 0 ≤ a.lo) (hb0 : 0 ≤ b.lo) : (Bounds.mk (a.lo * b.lo) (a.hi * b.hi)).Contains (x * y) := by
  have ha0' : (0 : ℝ) ≤ a.lo := by exact_mod_cast ha0
  have hb0' : (0 : ℝ) ≤ b.lo := by exact_mod_cast hb0
  constructor
  · push_cast
    exact mul_le_mul ha.1 hb.1 hb0' (ha0'.trans ha.1)
  · push_cast
    exact mul_le_mul ha.2 hb.2 (hb0'.trans hb.1) ((ha0'.trans ha.1).trans ha.2)

theorem isqrt_le_sqrt (n : ℕ) : (isqrt n : ℝ) ≤ Real.sqrt n := by
  apply Real.le_sqrt_of_sq_le
  rw [sq]
  exact_mod_cast (isqrt_spec n).1

theorem sqrt_le_isqrtUp (n : ℕ) : Real.sqrt n ≤ (isqrtUp n : ℝ) := by
  apply Real.sqrt_le_iff.2
  refine ⟨by positivity, ?_⟩
  rw [sq]
  exact_mod_cast isqrtUp_spec n

theorem sqrt_mul_four_pow (n k : ℕ) : Real.sqrt ((n * 4 ^ k : ℕ) : ℝ) = Real.sqrt n * 2 ^ k := by
  have h : (4 : ℝ) ^ k = (2 ^ k) ^ 2 := by rw [← pow_mul, mul_comm, pow_mul]; norm_num
  push_cast
  rw [h, Real.sqrt_mul' _ (by positivity), Real.sqrt_sq (by positivity)]

theorem mkRat_cast (m n : ℕ) : ((mkRat m n : ℚ) : ℝ) = (m : ℝ) / (n : ℝ) := by
  rw [Rat.mkRat_eq_div]; push_cast; rfl

theorem sqrtBounds_contains (n : ℕ) : (sqrtBounds n).Contains (Real.sqrt n) := by
  have hpos : (0 : ℝ) < 2 ^ precision := by positivity
  have hlo := isqrt_le_sqrt (n * 4 ^ precision)
  have hhi := sqrt_le_isqrtUp (n * 4 ^ precision)
  rw [sqrt_mul_four_pow] at hlo hhi
  constructor
  · simp only [sqrtBounds, mkRat_cast]
    push_cast
    rwa [div_le_iff₀ hpos]
  · simp only [sqrtBounds, mkRat_cast]
    push_cast
    rwa [le_div_iff₀ hpos]

theorem sqrtBounds_lo_nonneg (n : ℕ) : 0 ≤ (sqrtBounds n).lo := by
  simp only [sqrtBounds, Rat.mkRat_eq_div]; positivity

/-- One more binary digit of an exponent: `y^(a mod 2^(i+1) / 2^(i+1))` is the square root of `y`
to `a mod 2^i / 2^i`, times that root if digit `i` of `a` is set. -/
theorem rpow_digit {y : ℝ} (hy : 0 < y) (a i : ℕ) :
    y ^ (((a % 2 ^ (i + 1) : ℕ) : ℝ) / 2 ^ (i + 1))
      = (if a.testBit i then Real.sqrt y else 1)
        * (Real.sqrt y) ^ (((a % 2 ^ i : ℕ) : ℝ) / 2 ^ i) := by
  have hs : Real.sqrt y = y ^ ((1 : ℝ) / 2) := Real.sqrt_eq_rpow y
  have hp : (2 : ℝ) ^ i ≠ 0 := by positivity
  have hd : a / 2 ^ i % 2 = 0 ∨ a / 2 ^ i % 2 = 1 := Nat.mod_two_eq_zero_or_one _
  rw [Nat.mod_pow_succ, hs, ← Real.rpow_mul hy.le, Nat.testBit_eq_decide_div_mod_eq]
  rcases hd with h | h
  · simp only [h, mul_zero, Nat.add_zero, zero_ne_one, decide_false, Bool.false_eq_true, if_false,
      one_mul]
    congr 1; rw [pow_succ]; field_simp
  · simp only [h, decide_true, if_true, mul_one]
    rw [← Real.rpow_add hy]
    congr 1; push_cast; rw [pow_succ]; field_simp; ring

theorem powChainDown_le : ∀ (i root a acc : ℕ) (y z : ℝ), 0 < y → 0 ≤ z →
    (root : ℝ) ≤ y * 2 ^ precision → (acc : ℝ) ≤ z * 2 ^ precision →
    (powChainDown i root a acc : ℝ)
      ≤ z * y ^ (((a % 2 ^ i : ℕ) : ℝ) / 2 ^ i) * 2 ^ precision
  | 0, root, a, acc, y, z, _, _, _, hacc => by
    simpa [powChainDown, Nat.mod_one] using hacc
  | i + 1, root, a, acc, y, z, hy, hz, hroot, hacc => by
    have hT : (0 : ℝ) < 2 ^ precision := by positivity
    have hr : (isqrt (root * 2 ^ precision) : ℝ) ≤ Real.sqrt y * 2 ^ precision := by
      refine (isqrt_le_sqrt _).trans ?_
      have h1 : ((root * 2 ^ precision : ℕ) : ℝ) ≤ y * (2 ^ precision) ^ 2 := by
        push_cast; rw [sq, ← mul_assoc]; exact mul_le_mul_of_nonneg_right hroot hT.le
      refine (Real.sqrt_le_sqrt h1).trans ?_
      rw [Real.sqrt_mul hy.le, Real.sqrt_sq hT.le]
    rw [powChainDown, rpow_digit hy, ← mul_assoc]
    apply powChainDown_le i _ a _ (Real.sqrt y) _ (Real.sqrt_pos.2 hy)
    · split <;> positivity
    · exact hr
    · split
      · refine (Nat.cast_div_le (α := ℝ)).trans ?_
        push_cast
        rw [div_le_iff₀ hT]
        calc (acc : ℝ) * (isqrt (root * 2 ^ precision) : ℝ)
            ≤ (z * 2 ^ precision) * (Real.sqrt y * 2 ^ precision) :=
              mul_le_mul hacc hr (by positivity) (by positivity)
          _ = z * Real.sqrt y * 2 ^ precision * 2 ^ precision := by ring
      · simpa using hacc

theorem le_ceilDiv_mul (m n : ℕ) (hn : 0 < n) : (m : ℝ) / n ≤ (ceilDiv m n : ℝ) := by
  have h := (ceilDiv_le_iff (m := m) (k := ceilDiv m n) hn).1 le_rfl
  rw [div_le_iff₀ (by exact_mod_cast hn)]
  exact_mod_cast h

theorem le_powChainUp : ∀ (i root a acc : ℕ) (y z : ℝ), 0 < y → 0 ≤ z →
    y * 2 ^ precision ≤ (root : ℝ) → z * 2 ^ precision ≤ (acc : ℝ) →
    z * y ^ (((a % 2 ^ i : ℕ) : ℝ) / 2 ^ i) * 2 ^ precision ≤ (powChainUp i root a acc : ℝ)
  | 0, root, a, acc, y, z, _, _, _, hacc => by
    simpa [powChainUp, Nat.mod_one] using hacc
  | i + 1, root, a, acc, y, z, hy, hz, hroot, hacc => by
    have hT : (0 : ℝ) < 2 ^ precision := by positivity
    have hr : Real.sqrt y * 2 ^ precision ≤ (isqrtUp (root * 2 ^ precision) : ℝ) := by
      refine le_trans ?_ (sqrt_le_isqrtUp _)
      have h1 : y * (2 ^ precision) ^ 2 ≤ ((root * 2 ^ precision : ℕ) : ℝ) := by
        push_cast; rw [sq, ← mul_assoc]; exact mul_le_mul_of_nonneg_right hroot hT.le
      refine le_trans ?_ (Real.sqrt_le_sqrt h1)
      rw [Real.sqrt_mul hy.le, Real.sqrt_sq hT.le]
    rw [powChainUp, rpow_digit hy, ← mul_assoc]
    apply le_powChainUp i _ a _ (Real.sqrt y) _ (Real.sqrt_pos.2 hy)
    · split <;> positivity
    · exact hr
    · split
      · refine le_trans ?_ (le_ceilDiv_mul _ _ (by positivity))
        push_cast
        rw [le_div_iff₀ hT]
        calc z * Real.sqrt y * 2 ^ precision * 2 ^ precision
            = (z * 2 ^ precision) * (Real.sqrt y * 2 ^ precision) := by ring
          _ ≤ (acc : ℝ) * (isqrtUp (root * 2 ^ precision) : ℝ) :=
              mul_le_mul hacc hr (by positivity) (by positivity)
      · simpa using hacc

theorem powBoundsUp_contains {x : ℚ} {e : Bounds} {t : ℝ} (hx : 1 ≤ x) (ht0 : 0 ≤ t) (ht1 : t ≤ 1)
    (he : e.Contains t) : (powBoundsUp x e).Contains ((x : ℝ) ^ t) := by
  have hT : (0 : ℝ) < 2 ^ precision := by positivity
  have hTq : (0 : ℚ) < 2 ^ precision := by positivity
  have hx' : (1 : ℝ) ≤ x := by exact_mod_cast hx
  have hx0 : (0 : ℝ) < x := lt_of_lt_of_le one_pos hx'
  set one : ℕ := 2 ^ precision with hone
  have honeR : ((one : ℕ) : ℝ) = 2 ^ precision := by rw [hone]; push_cast; rfl
  constructor
  · simp only [powBoundsUp, ← hone]
    split
    · next h =>
      have h1 : (one : ℤ) ≤ (e.lo * one).floor := by
        have h0 : 0 < one := by positivity
        omega
      have h2 : ((one : ℤ) : ℚ) ≤ e.lo * one := by
        have := Rat.le_floor_iff.1 h1
        exact_mod_cast this
      have h3 : (1 : ℚ) ≤ e.lo := by
        have h0 : (0 : ℚ) < (one : ℚ) := by rw [hone]; push_cast; exact hTq
        have h2' : (one : ℚ) * 1 ≤ (one : ℚ) * e.lo := by push_cast at h2; linarith
        exact le_of_mul_le_mul_left h2' h0
      have h4 : t = 1 := le_antisymm ht1 (le_trans (by exact_mod_cast h3) he.1)
      rw [h4, Real.rpow_one]
    · next h =>
      have hlt : (e.lo * one).floor.toNat < one := Nat.lt_of_not_le h
      have hroot : (((x * one).floor.toNat : ℕ) : ℝ) ≤ (x : ℝ) * 2 ^ precision := by
        have h1 : (0 : ℤ) ≤ (x * one).floor := Rat.le_floor_iff.2 (by push_cast; positivity)
        have h2 : (((x * one).floor : ℤ) : ℚ) ≤ x * one := Rat.floor_le _
        have h3 : (((x * one).floor.toNat : ℤ)) = (x * one).floor := Int.toNat_of_nonneg h1
        have h4 : (((x * one).floor.toNat : ℕ) : ℚ) ≤ x * one := by
          rw [← h3] at h2; exact_mod_cast h2
        rw [← honeR]; exact_mod_cast h4
      have hc := powChainDown_le precision (x * one).floor.toNat (e.lo * one).floor.toNat one
        (x : ℝ) 1 hx0 zero_le_one hroot (by rw [honeR, one_mul])
      rw [one_mul, ← hone, Nat.mod_eq_of_lt hlt] at hc
      rw [mkRat_cast, honeR, div_le_iff₀ hT]
      refine hc.trans (mul_le_mul_of_nonneg_right ?_ hT.le)
      apply Real.rpow_le_rpow_of_exponent_le hx'
      rw [div_le_iff₀ hT]
      rcases le_or_gt 0 (e.lo * one).floor with h0 | h0
      · have h2 : (((e.lo * one).floor : ℤ) : ℚ) ≤ e.lo * one := Rat.floor_le _
        have h3 : (((e.lo * one).floor.toNat : ℤ)) = (e.lo * one).floor := Int.toNat_of_nonneg h0
        have h4 : (((e.lo * one).floor.toNat : ℕ) : ℚ) ≤ e.lo * one := by
          rw [← h3] at h2; exact_mod_cast h2
        have h5 : (((e.lo * one).floor.toNat : ℕ) : ℝ) ≤ (e.lo : ℝ) * 2 ^ precision := by
          rw [← honeR]; exact_mod_cast h4
        exact h5.trans (mul_le_mul_of_nonneg_right he.1 hT.le)
      · rw [Int.toNat_of_nonpos h0.le]; push_cast; positivity
  · simp only [powBoundsUp, ← hone]
    split
    · next h =>
      calc (x : ℝ) ^ t ≤ (x : ℝ) ^ (1 : ℝ) := Real.rpow_le_rpow_of_exponent_le hx' ht1
        _ = x := Real.rpow_one _
    · next h =>
      have hlt : (e.hi * one).ceil.toNat < one := Nat.lt_of_not_le h
      have hroot : (x : ℝ) * 2 ^ precision ≤ (((x * one).ceil.toNat : ℕ) : ℝ) := by
        have h2 : x * one ≤ (((x * one).ceil : ℤ) : ℚ) := Rat.le_ceil
        have h3 : (((x * one).ceil : ℤ) : ℚ) ≤ (((x * one).ceil.toNat : ℤ) : ℚ) := by
          exact_mod_cast Int.self_le_toNat _
        rw [← honeR]; exact_mod_cast h2.trans h3
      have hc := le_powChainUp precision (x * one).ceil.toNat (e.hi * one).ceil.toNat one
        (x : ℝ) 1 hx0 zero_le_one hroot (by rw [honeR, one_mul])
      rw [one_mul, ← hone, Nat.mod_eq_of_lt hlt] at hc
      rw [mkRat_cast, honeR, le_div_iff₀ hT]
      refine le_trans (mul_le_mul_of_nonneg_right ?_ hT.le) hc
      apply Real.rpow_le_rpow_of_exponent_le hx'
      rw [le_div_iff₀ hT]
      have h2 : e.hi * one ≤ (((e.hi * one).ceil : ℤ) : ℚ) := Rat.le_ceil
      have h3 : (((e.hi * one).ceil : ℤ) : ℚ) ≤ (((e.hi * one).ceil.toNat : ℤ) : ℚ) := by
        exact_mod_cast Int.self_le_toNat _
      have h5 : (e.hi : ℝ) * 2 ^ precision ≤ (((e.hi * one).ceil.toNat : ℕ) : ℝ) := by
        rw [← honeR]; exact_mod_cast h2.trans h3
      exact (mul_le_mul_of_nonneg_right he.2 hT.le).trans h5

/-- The rounded-down product never falls below 1. -/
theorem le_powChainDown : ∀ (i root a acc : ℕ), 2 ^ precision ≤ root → 2 ^ precision ≤ acc →
    2 ^ precision ≤ powChainDown i root a acc
  | 0, _, _, _, _, hacc => hacc
  | i + 1, root, a, acc, hroot, hacc => by
    have hs : 2 ^ precision ≤ isqrt (root * 2 ^ precision) := by
      by_contra h
      have h1 := (isqrt_spec (root * 2 ^ precision)).2
      have h2 : isqrt (root * 2 ^ precision) + 1 ≤ 2 ^ precision := by omega
      have h3 := Nat.mul_le_mul h2 h2
      have h4 := Nat.mul_le_mul_right (2 ^ precision) hroot
      omega
    rw [powChainDown]
    apply le_powChainDown i _ _ _ hs
    split
    · rw [Nat.le_div_iff_mul_le (by positivity)]
      exact Nat.mul_le_mul hacc hs
    · exact hacc

theorem one_le_powBoundsUp_lo {x : ℚ} (hx : 1 ≤ x) (e : Bounds) : 1 ≤ (powBoundsUp x e).lo := by
  simp only [powBoundsUp]
  split
  · exact hx
  · have hroot : 2 ^ precision ≤ (x * ((2 ^ precision : ℕ) : ℚ)).floor.toNat := by
      have h : ((2 ^ precision : ℕ) : ℤ) ≤ (x * ((2 ^ precision : ℕ) : ℚ)).floor := by
        rw [Rat.le_floor_iff]
        push_cast
        exact le_mul_of_one_le_left (by positivity) hx
      omega
    have h := le_powChainDown precision _ (e.lo * ((2 ^ precision : ℕ) : ℚ)).floor.toNat _ hroot
      le_rfl
    rw [Rat.mkRat_eq_div, le_div_iff₀ (by push_cast; positivity), one_mul]
    exact_mod_cast h

/-- Bounds of a power of a positive rational, for an exponent between 0 and 1. -/
theorem powBounds_contains {x : ℚ} {e : Bounds} {t : ℝ} (hx : 0 < x) (ht0 : 0 ≤ t) (ht1 : t ≤ 1)
    (he : e.Contains t) : (powBounds x e).Contains ((x : ℝ) ^ t) := by
  simp only [powBounds]
  split
  · next h => exact powBoundsUp_contains h ht0 ht1 he
  · next h =>
    have hxr : (0 : ℝ) < x := by exact_mod_cast hx
    have hinv : 1 ≤ x⁻¹ := (one_le_inv₀ hx).2 (le_of_lt (not_le.1 h))
    have hc := powBoundsUp_contains hinv ht0 ht1 he
    have hlo : (1 : ℝ) ≤ ((powBoundsUp x⁻¹ e).lo : ℝ) := by
      exact_mod_cast one_le_powBoundsUp_lo hinv e
    have hpow : (x : ℝ) ^ t = (((x⁻¹ : ℚ) : ℝ) ^ t)⁻¹ := by
      push_cast; rw [Real.inv_rpow hxr.le, inv_inv]
    have hpos : 0 < ((x⁻¹ : ℚ) : ℝ) ^ t := lt_of_lt_of_le one_pos (hlo.trans hc.1)
    rw [hpow]
    constructor
    · rw [Rat.cast_inv]
      exact inv_anti₀ hpos hc.2
    · rw [Rat.cast_inv (powBoundsUp x⁻¹ e).lo]
      exact inv_anti₀ (lt_of_lt_of_le one_pos hlo) hc.1

theorem powBounds_lo_nonneg {x : ℚ} (hx : 0 < x) {e : Bounds} {t : ℝ} (ht0 : 0 ≤ t) (ht1 : t ≤ 1)
    (he : e.Contains t) : 0 ≤ (powBounds x e).lo := by
  simp only [powBounds]
  split
  · next h => exact zero_le_one.trans (one_le_powBoundsUp_lo h e)
  · next h =>
    have hinv : 1 ≤ x⁻¹ := (one_le_inv₀ hx).2 (le_of_lt (not_le.1 h))
    have hc := powBoundsUp_contains hinv ht0 ht1 he
    have h1 := one_le_powBoundsUp_lo hinv e
    have h2 : ((powBoundsUp x⁻¹ e).lo : ℝ) ≤ ((powBoundsUp x⁻¹ e).hi : ℝ) := hc.1.trans hc.2
    have h3 : (powBoundsUp x⁻¹ e).lo ≤ (powBoundsUp x⁻¹ e).hi := by exact_mod_cast h2
    exact inv_nonneg.2 (zero_le_one.trans (h1.trans h3))

theorem realDeflection_le_one {dz : ℝ} (h1 : dz < 1) (m : ℝ) : realDeflection dz m ≤ 1 := by
  rw [realDeflection, div_le_one (by linarith)]
  have := min_le_left 1 m
  linarith

theorem deflectionBounds_lo_nonneg (r : ShaperRationals) (q : ℕ) : 0 ≤ (deflectionBounds r q).lo := by
  unfold deflectionBounds
  split
  · exact zero_le_one
  · exact le_max_left _ _

theorem sqrt_ge_128 {q : ℕ} (h : 16384 ≤ q) : 128 ≤ Real.sqrt q := by
  apply Real.le_sqrt_of_sq_le
  have : (16384 : ℝ) ≤ q := by exact_mod_cast h
  linarith

theorem sqrt_lt_128 {q : ℕ} (h : q < 16384) : Real.sqrt q < 128 := by
  rw [Real.sqrt_lt' (by norm_num)]
  have : (q : ℝ) < 16384 := by exact_mod_cast h
  linarith

theorem deflectionBounds_contains {r : ShaperRationals} {q : ℕ} (h1 : r.dz < 1)
    (hd : 0 < realDeflection r.dz (Real.sqrt q / 128)) :
    (deflectionBounds r q).Contains (realDeflection r.dz (Real.sqrt q / 128)) := by
  have h1' : (0 : ℝ) < 1 - r.dz := by
    have : (r.dz : ℝ) < 1 := by exact_mod_cast h1
    linarith
  unfold deflectionBounds
  split
  · next h =>
    have : realDeflection r.dz (Real.sqrt q / 128) = 1 := by
      rw [realDeflection, min_eq_left, div_self h1'.ne']
      rw [le_div_iff₀ (by norm_num)]
      linarith [sqrt_ge_128 h]
    rw [this]
    constructor <;> simp
  · next h =>
    have hmin : min 1 (Real.sqrt q / 128) = Real.sqrt q / 128 := by
      apply min_eq_right
      rw [div_le_one (by norm_num)]
      exact (sqrt_lt_128 (Nat.lt_of_not_le h)).le
    obtain ⟨hlo, hhi⟩ := sqrtBounds_contains q
    constructor
    · push_cast
      apply max_le
      · exact hd.le
      · rw [realDeflection, hmin]
        gcongr
    · push_cast
      rw [realDeflection, hmin]
      gcongr

/-- The share axis snapping kept, `sqrt m / sqrt q`, as the bounds compute it. -/
theorem sqrt_share (m q : ℕ) (hq : 0 < q) :
    Real.sqrt ((m * q : ℕ) : ℝ) / q = Real.sqrt m / Real.sqrt q := by
  have h : (0 : ℝ) < Real.sqrt q := Real.sqrt_pos.2 (by exact_mod_cast hq)
  have h2 : (q : ℝ) = Real.sqrt q * Real.sqrt q := (Real.mul_self_sqrt (by positivity)).symm
  push_cast
  rw [Real.sqrt_mul (by positivity)]
  rw [div_eq_div_iff (by rw [h2]; positivity) h.ne']
  nth_rewrite 3 [h2]
  ring

theorem magnitudeBounds_contains {r : ShaperRationals} {q m : ℕ} (h1 : r.dz < 1)
    (hd : 0 < realDeflection r.dz (Real.sqrt q / 128)) (hq0 : 0 < q) :
    (magnitudeBounds r q m).Contains
      (Real.sqrt m / Real.sqrt q * realDeflection r.dz (Real.sqrt q / 128)) := by
  have hqr : (0 : ℝ) < q := by exact_mod_cast hq0
  have hr := sqrtBounds_contains (m * q)
  have hshare : (Bounds.mk ((sqrtBounds (m * q)).lo / q) ((sqrtBounds (m * q)).hi / q)).Contains
      (Real.sqrt m / Real.sqrt q) := by
    rw [← sqrt_share m q hq0]
    constructor
    · push_cast; gcongr; exact_mod_cast hr.1
    · push_cast; gcongr; exact_mod_cast hr.2
  exact hshare.mul (deflectionBounds_contains h1 hd)
    (div_nonneg (sqrtBounds_lo_nonneg _) (by positivity)) (deflectionBounds_lo_nonneg r q)

/-- The scalar of 45_collaborators.md R306 as `FEED_MIN / 60 * (FEED_MAX / FEED_MIN)^mag`. -/
theorem realScalar_eq {r : ShaperRationals} (hmin : 0 < r.feedMin) (hmax : 0 < r.feedMax) (t : ℝ) :
    realScalar r.feedMin r.feedMax t
      = (r.feedMin : ℝ) / 60 * (((r.feedMax / r.feedMin : ℚ) : ℝ)) ^ t := by
  have h1 : (0 : ℝ) < r.feedMin := by exact_mod_cast hmin
  have h2 : (0 : ℝ) < r.feedMax := by exact_mod_cast hmax
  rw [realScalar, Real.rpow_sub (by positivity), Real.rpow_one]
  have h3 : ((r.feedMax / r.feedMin : ℚ) : ℝ) = ((r.feedMax : ℝ) / 60) / ((r.feedMin : ℝ) / 60) := by
    push_cast; field_simp
  rw [h3, Real.div_rpow (by positivity : (0 : ℝ) ≤ (r.feedMax : ℝ) / 60) (by positivity)]
  ring

theorem scalarBounds_contains {r : ShaperRationals} {q m : ℕ} (h1 : r.dz < 1)
    (hmin : 0 < r.feedMin) (hmax : 0 < r.feedMax)
    (hd : 0 < realDeflection r.dz (Real.sqrt q / 128)) (hq0 : 0 < q) (hmq : m ≤ q) :
    (scalarBounds r q m).Contains (realScalar r.feedMin r.feedMax
      (Real.sqrt m / Real.sqrt q * realDeflection r.dz (Real.sqrt q / 128)))
      ∧ 0 ≤ (scalarBounds r q m).lo := by
  have hm := magnitudeBounds_contains (m := m) h1 hd hq0
  have hd1 := realDeflection_le_one (dz := r.dz) (by exact_mod_cast h1) (Real.sqrt q / 128)
  have hs1 : Real.sqrt m / Real.sqrt q ≤ 1 := by
    apply div_le_one_of_le₀ (Real.sqrt_le_sqrt (by exact_mod_cast hmq)) (Real.sqrt_nonneg _)
  have hs0 : 0 ≤ Real.sqrt m / Real.sqrt q := by positivity
  have ht0 := mul_nonneg hs0 hd.le
  have ht1 := mul_le_one₀ hs1 hd.le hd1
  have hx : 0 < r.feedMax / r.feedMin := div_pos hmax hmin
  have hw := powBounds_contains hx ht0 ht1 hm
  have hw0 := powBounds_lo_nonneg hx ht0 ht1 hm
  have hminr : (0 : ℝ) < r.feedMin := by exact_mod_cast hmin
  rw [realScalar_eq hmin hmax]
  refine ⟨⟨?_, ?_⟩, ?_⟩
  · simp only [scalarBounds]; push_cast
    exact mul_le_mul_of_nonneg_left (by exact_mod_cast hw.1) (by positivity)
  · simp only [scalarBounds]; push_cast
    exact mul_le_mul_of_nonneg_left (by exact_mod_cast hw.2) (by positivity)
  · exact mul_nonneg (by positivity) hw0

/-- The bounds of a shaped component's speed contain the absolute value of the real number the
component denotes. -/
theorem speedBounds_contains {p : Params} {r : ShaperRationals} {c : ℤ} {q m : ℕ}
    (hp : p.shaperRationals = some r) (h1 : r.dz < 1) (hmin : 0 < r.feedMin) (hmax : 0 < r.feedMax)
    (hd : 0 < realDeflection r.dz (Real.sqrt q / 128)) (hq0 : 0 < q) (hmq : m ≤ q) :
    (speedBounds r c q m).Contains |velReal p (.shaped c q m)| := by
  obtain ⟨e1, e2, e3⟩ := shaperRationals_eq_some hp
  have hqr : (0 : ℝ) < q := by exact_mod_cast hq0
  have hsq : (0 : ℝ) < Real.sqrt q := Real.sqrt_pos.2 hqr
  have hr := sqrtBounds_contains q
  have hdb := deflectionBounds_contains h1 hd
  obtain ⟨hw, hw0⟩ := scalarBounds_contains (m := m) h1 hmin hmax hd hq0 hmq
  have hr0 := sqrtBounds_lo_nonneg q
  set s := realScalar r.feedMin r.feedMax
    (Real.sqrt m / Real.sqrt q * realDeflection r.dz (Real.sqrt q / 128)) with hs
  have hs0 : 0 ≤ s := le_trans (by exact_mod_cast hw0) hw.1
  have habs : |velReal p (.shaped c q m)|
      = (c.natAbs : ℝ) * (Real.sqrt q / q) * realDeflection r.dz (Real.sqrt q / 128) * s := by
    simp only [velReal, e1, e2, e3, RealNumber.value_rational, ← hs]
    rw [abs_mul, abs_mul, abs_div, abs_of_pos hd, abs_of_nonneg hs0, abs_of_pos hsq,
      Nat.cast_natAbs, Int.cast_abs]
    congr 2
    have h2 : (q : ℝ) = Real.sqrt q * Real.sqrt q := (Real.mul_self_sqrt hqr.le).symm
    have h3 : Real.sqrt q / (q : ℝ) = 1 / Real.sqrt q := by
      nth_rewrite 2 [h2]; field_simp
    rw [h3]; ring
  have hshare : (Bounds.mk (c.natAbs * ((sqrtBounds q).lo / q))
      (c.natAbs * ((sqrtBounds q).hi / q))).Contains ((c.natAbs : ℝ) * (Real.sqrt q / q)) := by
    constructor
    · push_cast; gcongr; exact hr.1
    · push_cast; gcongr; exact hr.2
  rw [habs]
  have hlo1 : 0 ≤ (c.natAbs : ℚ) * ((sqrtBounds q).lo / q) := by positivity
  have hd0 := deflectionBounds_lo_nonneg r q
  exact (hshare.mul hdb hlo1 hd0).mul hw (mul_nonneg hlo1 hd0) hw0

/-- A larger speed has no longer period. -/
theorem realPeriod_anti {p : Params} (hf : 0 < p.fClk) (hs : 0 < p.spm) {u v : ℝ} (hu : 0 < |u|)
    (h : |u| ≤ |v|) : realPeriod p v ≤ realPeriod p u := by
  have hf' : (0 : ℝ) < p.fClk := by exact_mod_cast hf
  have hs' : (0 : ℝ) < p.spm := by exact_mod_cast hs
  apply max_le_max le_rfl
  apply Nat.floor_le_floor
  gcongr

/-- The period of a rational speed is that of its real value. -/
theorem speedPeriod_eq {p : Params} (hf : 0 < p.fClk) (hs : 0 < p.spm) {v : ℚ} (hv : 0 ≤ v) :
    speedPeriod p v = realPeriod p (v : ℝ) := by
  have hv' : (0 : ℝ) ≤ v := by exact_mod_cast hv
  have h0 : 0 ≤ p.fClk / (v * p.spm) := by positivity
  rw [speedPeriod, realPeriod, abs_of_nonneg hv']
  have : ((p.fClk / (v * p.spm) : ℚ) : ℝ) = (p.fClk : ℝ) / ((v : ℝ) * (p.spm : ℝ)) := by push_cast; rfl
  rw [← this, ← Int.floor_toNat, Rat.floor_cast]
  rfl

end Sys2Proof.Machine
end

