-- ==== Sys2Proof/Laws/Decode.lean ====
section
/-! SUPPORT. The fields of a record's word, bit by bit, and the fields of a word put together from
fields. -/

namespace Sys2Proof

theorem lines_of_bits (a b c : BitVec 1) :
    (show Lines from a ++ b ++ c).getLsbD 0 = c.getLsbD 0
      ∧ (show Lines from a ++ b ++ c).getLsbD 1 = b.getLsbD 0
      ∧ (show Lines from a ++ b ++ c).getLsbD 2 = a.getLsbD 0 := by
  revert a b c; decide

/-- Two 3-bit vectors with the same bits are equal. -/
theorem lines_ext {v u : Lines} (h0 : v.getLsbD 0 = u.getLsbD 0) (h1 : v.getLsbD 1 = u.getLsbD 1)
    (h2 : v.getLsbD 2 = u.getLsbD 2) : v = u := by
  apply BitVec.eq_of_getLsbD_eq
  intro i hi
  match i, hi with
  | 0, _ => exact h0
  | 1, _ => exact h1
  | 2, _ => exact h2

/-- Bits of the step flags field. -/
theorem fieldStep_bits (w : BitVec 24) :
    (fieldStep w).getLsbD 0 = w.getLsbD 16 ∧ (fieldStep w).getLsbD 1 = w.getLsbD 18
      ∧ (fieldStep w).getLsbD 2 = w.getLsbD 20 := by
  obtain ⟨h0, h1, h2⟩ :=
    lines_of_bits (w.extractLsb' 20 1) (w.extractLsb' 18 1) (w.extractLsb' 16 1)
  simp only [BitVec.getLsbD_extractLsb', Nat.add_zero, Nat.lt_one_iff, decide_true,
    Bool.true_and] at h0 h1 h2
  exact ⟨h0, h1, h2⟩

/-- Bits of the direction flags field. -/
theorem fieldDir_bits (w : BitVec 24) :
    (fieldDir w).getLsbD 0 = w.getLsbD 17 ∧ (fieldDir w).getLsbD 1 = w.getLsbD 19
      ∧ (fieldDir w).getLsbD 2 = w.getLsbD 21 := by
  obtain ⟨h0, h1, h2⟩ :=
    lines_of_bits (w.extractLsb' 21 1) (w.extractLsb' 19 1) (w.extractLsb' 17 1)
  simp only [BitVec.getLsbD_extractLsb', Nat.add_zero, Nat.lt_one_iff, decide_true,
    Bool.true_and] at h0 h1 h2
  exact ⟨h0, h1, h2⟩

/-- Bits of the duration field. -/
theorem fieldDur_bits (w : BitVec 24) (i : Nat) (h : i < 16) :
    (fieldDur w).getLsbD i = w.getLsbD i := by
  simp [fieldDur, h]

/-- The duration field is the low 16 bits. -/
theorem fieldDur_toNat (w : BitVec 24) : (fieldDur w).toNat = w.toNat % 65536 := by
  simp [fieldDur, BitVec.extractLsb'_toNat]

/-- Bits of byte 2 of a record (30_encoding.md R112). -/
theorem flagsByte_bits (s r : Lines) :
    (flagsByte s r).getLsbD 0 = s.getLsbD 0 ∧ (flagsByte s r).getLsbD 1 = r.getLsbD 0
      ∧ (flagsByte s r).getLsbD 2 = s.getLsbD 1 ∧ (flagsByte s r).getLsbD 3 = r.getLsbD 1
      ∧ (flagsByte s r).getLsbD 4 = s.getLsbD 2 ∧ (flagsByte s r).getLsbD 5 = r.getLsbD 2
      ∧ (flagsByte s r).getLsbD 6 = false ∧ (flagsByte s r).getLsbD 7 = false := by
  revert s r; decide

/-- Bits of a word put together from byte 2 and a duration. -/
theorem word_bits (b : Byte) (d : BitVec 16) (i : Nat) :
    (show BitVec 24 from b ++ d).getLsbD i = if i < 16 then d.getLsbD i else b.getLsbD (i - 16) :=
  BitVec.getLsbD_append

/-- The step flags of a word put together from flags and a duration. -/
theorem fieldStep_flagsByte (s r : Lines) (d : BitVec 16) :
    fieldStep (flagsByte s r ++ d) = s := by
  obtain ⟨h0, h1, h2⟩ := fieldStep_bits (flagsByte s r ++ d)
  obtain ⟨b0, -, b2, -, b4, -⟩ := flagsByte_bits s r
  exact lines_ext (h0.trans ((word_bits _ _ _).trans b0)) (h1.trans ((word_bits _ _ _).trans b2))
    (h2.trans ((word_bits _ _ _).trans b4))

/-- The direction flags of a word put together from flags and a duration. -/
theorem fieldDir_flagsByte (s r : Lines) (d : BitVec 16) :
    fieldDir (flagsByte s r ++ d) = r := by
  obtain ⟨h0, h1, h2⟩ := fieldDir_bits (flagsByte s r ++ d)
  obtain ⟨-, b1, -, b3, -, b5, -⟩ := flagsByte_bits s r
  exact lines_ext (h0.trans ((word_bits _ _ _).trans b1)) (h1.trans ((word_bits _ _ _).trans b3))
    (h2.trans ((word_bits _ _ _).trans b5))

/-- The duration of a word put together from flags and a duration. -/
theorem fieldDur_flagsByte (s r : Lines) (d : BitVec 16) :
    fieldDur (flagsByte s r ++ d) = d := by
  apply BitVec.eq_of_getLsbD_eq
  intro i hi
  rw [fieldDur_bits _ i hi]
  exact (word_bits _ _ _).trans (if_pos hi)

/-- The bytes of a word, read back, are the word. -/
theorem recordWord_wordBytes (w : BitVec 24) :
    recordWord (w.extractLsb' 0 8) (w.extractLsb' 8 8) (w.extractLsb' 16 8) = w := by
  apply BitVec.eq_of_getLsbD_eq
  intro i hi
  refine BitVec.getLsbD_append.trans ?_
  split
  · simp [*]
  · refine BitVec.getLsbD_append.trans ?_
    split
    · simp only [BitVec.getLsbD_extractLsb', *, decide_true, Bool.true_and]
      rw [show 8 + (i - 8) = i by omega]
    · have h8 : i - 8 - 8 < 8 := by omega
      simp only [BitVec.getLsbD_extractLsb', h8, decide_true, Bool.true_and]
      rw [show 16 + (i - 8 - 8) = i by omega]

/-- Decoding the bytes of a word gives the word's record and the rest of the stream. -/
theorem decode_wordBytes (w : BitVec 24) (rest : List Byte) :
    decode (wordBytes w ++ rest) = .ok (decodeWord w, rest) := by
  simp only [wordBytes, List.cons_append, List.nil_append, decode, recordWord_wordBytes]

end Sys2Proof
end

