-- ==== Sys2Proof/Laws/State.lean ====
section
/-! SUPPORT. One lemma per field per update of State: an update writes its own field and leaves every
other as it was. -/

namespace Sys2Proof.Machine

variable (s : State)

section SetPhase
variable (v : Phase)
@[simp] theorem State.setPhase_params : (s.setPhase v).params = s.params := rfl
@[simp] theorem State.setPhase_phase : (s.setPhase v).phase = v := rfl
@[simp] theorem State.setPhase_mode : (s.setPhase v).mode = s.mode := rfl
@[simp] theorem State.setPhase_pos : (s.setPhase v).pos = s.pos := rfl
@[simp] theorem State.setPhase_speed : (s.setPhase v).speed = s.speed := rfl
@[simp] theorem State.setPhase_ev : (s.setPhase v).ev = s.ev := rfl
@[simp] theorem State.setPhase_dirOut : (s.setPhase v).dirOut = s.dirOut := rfl
@[simp] theorem State.setPhase_stepOut : (s.setPhase v).stepOut = s.stepOut := rfl
@[simp] theorem State.setPhase_zrec : (s.setPhase v).zrec = s.zrec := rfl
@[simp] theorem State.setPhase_log : (s.setPhase v).log = s.log := rfl
@[simp] theorem State.setPhase_syn : (s.setPhase v).syn = s.syn := rfl
@[simp] theorem State.setPhase_fault : (s.setPhase v).fault = s.fault := rfl
@[simp] theorem State.setPhase_estopN : (s.setPhase v).estopN = s.estopN := rfl
@[simp] theorem State.setPhase_button : (s.setPhase v).button = s.button := rfl
@[simp] theorem State.setPhase_tick : (s.setPhase v).tick = s.tick := rfl
@[simp] theorem State.setPhase_vel : (s.setPhase v).vel = s.vel := rfl
@[simp] theorem State.setPhase_tickTodo : (s.setPhase v).tickTodo = s.tickTodo := rfl
@[simp] theorem State.setPhase_timer : (s.setPhase v).timer = s.timer := rfl
@[simp] theorem State.setPhase_src : (s.setPhase v).src = s.src := rfl
@[simp] theorem State.setPhase_srcPos : (s.setPhase v).srcPos = s.srcPos := rfl
@[simp] theorem State.setPhase_raw : (s.setPhase v).raw = s.raw := rfl
@[simp] theorem State.setPhase_zero : (s.setPhase v).zero = s.zero := rfl
@[simp] theorem State.setPhase_db : (s.setPhase v).db = s.db := rfl
@[simp] theorem State.setPhase_trace : (s.setPhase v).trace = s.trace := rfl
@[simp] theorem State.setPhase_posRead : (s.setPhase v).posRead = s.posRead := rfl
@[simp] theorem State.setPhase_inputs : (s.setPhase v).inputs = s.inputs := rfl
@[simp] theorem State.setPhase_moveCount : (s.setPhase v).moveCount = s.moveCount := rfl
end SetPhase

section SetMode
variable (v : Mode)
@[simp] theorem State.setMode_params : (s.setMode v).params = s.params := rfl
@[simp] theorem State.setMode_phase : (s.setMode v).phase = s.phase := rfl
@[simp] theorem State.setMode_mode : (s.setMode v).mode = v := rfl
@[simp] theorem State.setMode_pos : (s.setMode v).pos = s.pos := rfl
@[simp] theorem State.setMode_speed : (s.setMode v).speed = s.speed := rfl
@[simp] theorem State.setMode_ev : (s.setMode v).ev = s.ev := rfl
@[simp] theorem State.setMode_dirOut : (s.setMode v).dirOut = s.dirOut := rfl
@[simp] theorem State.setMode_stepOut : (s.setMode v).stepOut = s.stepOut := rfl
@[simp] theorem State.setMode_zrec : (s.setMode v).zrec = s.zrec := rfl
@[simp] theorem State.setMode_log : (s.setMode v).log = s.log := rfl
@[simp] theorem State.setMode_syn : (s.setMode v).syn = s.syn := rfl
@[simp] theorem State.setMode_fault : (s.setMode v).fault = s.fault := rfl
@[simp] theorem State.setMode_estopN : (s.setMode v).estopN = s.estopN := rfl
@[simp] theorem State.setMode_button : (s.setMode v).button = s.button := rfl
@[simp] theorem State.setMode_tick : (s.setMode v).tick = s.tick := rfl
@[simp] theorem State.setMode_vel : (s.setMode v).vel = s.vel := rfl
@[simp] theorem State.setMode_tickTodo : (s.setMode v).tickTodo = s.tickTodo := rfl
@[simp] theorem State.setMode_timer : (s.setMode v).timer = s.timer := rfl
@[simp] theorem State.setMode_src : (s.setMode v).src = s.src := rfl
@[simp] theorem State.setMode_srcPos : (s.setMode v).srcPos = s.srcPos := rfl
@[simp] theorem State.setMode_raw : (s.setMode v).raw = s.raw := rfl
@[simp] theorem State.setMode_zero : (s.setMode v).zero = s.zero := rfl
@[simp] theorem State.setMode_db : (s.setMode v).db = s.db := rfl
@[simp] theorem State.setMode_trace : (s.setMode v).trace = s.trace := rfl
@[simp] theorem State.setMode_posRead : (s.setMode v).posRead = s.posRead := rfl
@[simp] theorem State.setMode_inputs : (s.setMode v).inputs = s.inputs := rfl
@[simp] theorem State.setMode_moveCount : (s.setMode v).moveCount = s.moveCount := rfl
end SetMode

section SetPos
variable (v : Axis3 Int)
@[simp] theorem State.setPos_params : (s.setPos v).params = s.params := rfl
@[simp] theorem State.setPos_phase : (s.setPos v).phase = s.phase := rfl
@[simp] theorem State.setPos_mode : (s.setPos v).mode = s.mode := rfl
@[simp] theorem State.setPos_pos : (s.setPos v).pos = v := rfl
@[simp] theorem State.setPos_speed : (s.setPos v).speed = s.speed := rfl
@[simp] theorem State.setPos_ev : (s.setPos v).ev = s.ev := rfl
@[simp] theorem State.setPos_dirOut : (s.setPos v).dirOut = s.dirOut := rfl
@[simp] theorem State.setPos_stepOut : (s.setPos v).stepOut = s.stepOut := rfl
@[simp] theorem State.setPos_zrec : (s.setPos v).zrec = s.zrec := rfl
@[simp] theorem State.setPos_log : (s.setPos v).log = s.log := rfl
@[simp] theorem State.setPos_syn : (s.setPos v).syn = s.syn := rfl
@[simp] theorem State.setPos_fault : (s.setPos v).fault = s.fault := rfl
@[simp] theorem State.setPos_estopN : (s.setPos v).estopN = s.estopN := rfl
@[simp] theorem State.setPos_button : (s.setPos v).button = s.button := rfl
@[simp] theorem State.setPos_tick : (s.setPos v).tick = s.tick := rfl
@[simp] theorem State.setPos_vel : (s.setPos v).vel = s.vel := rfl
@[simp] theorem State.setPos_tickTodo : (s.setPos v).tickTodo = s.tickTodo := rfl
@[simp] theorem State.setPos_timer : (s.setPos v).timer = s.timer := rfl
@[simp] theorem State.setPos_src : (s.setPos v).src = s.src := rfl
@[simp] theorem State.setPos_srcPos : (s.setPos v).srcPos = s.srcPos := rfl
@[simp] theorem State.setPos_raw : (s.setPos v).raw = s.raw := rfl
@[simp] theorem State.setPos_zero : (s.setPos v).zero = s.zero := rfl
@[simp] theorem State.setPos_db : (s.setPos v).db = s.db := rfl
@[simp] theorem State.setPos_trace : (s.setPos v).trace = s.trace := rfl
@[simp] theorem State.setPos_posRead : (s.setPos v).posRead = s.posRead := rfl
@[simp] theorem State.setPos_inputs : (s.setPos v).inputs = s.inputs := rfl
@[simp] theorem State.setPos_moveCount : (s.setPos v).moveCount = s.moveCount := rfl
end SetPos

section SetSpeed
variable (v : Speed)
@[simp] theorem State.setSpeed_params : (s.setSpeed v).params = s.params := rfl
@[simp] theorem State.setSpeed_phase : (s.setSpeed v).phase = s.phase := rfl
@[simp] theorem State.setSpeed_mode : (s.setSpeed v).mode = s.mode := rfl
@[simp] theorem State.setSpeed_pos : (s.setSpeed v).pos = s.pos := rfl
@[simp] theorem State.setSpeed_speed : (s.setSpeed v).speed = v := rfl
@[simp] theorem State.setSpeed_ev : (s.setSpeed v).ev = s.ev := rfl
@[simp] theorem State.setSpeed_dirOut : (s.setSpeed v).dirOut = s.dirOut := rfl
@[simp] theorem State.setSpeed_stepOut : (s.setSpeed v).stepOut = s.stepOut := rfl
@[simp] theorem State.setSpeed_zrec : (s.setSpeed v).zrec = s.zrec := rfl
@[simp] theorem State.setSpeed_log : (s.setSpeed v).log = s.log := rfl
@[simp] theorem State.setSpeed_syn : (s.setSpeed v).syn = s.syn := rfl
@[simp] theorem State.setSpeed_fault : (s.setSpeed v).fault = s.fault := rfl
@[simp] theorem State.setSpeed_estopN : (s.setSpeed v).estopN = s.estopN := rfl
@[simp] theorem State.setSpeed_button : (s.setSpeed v).button = s.button := rfl
@[simp] theorem State.setSpeed_tick : (s.setSpeed v).tick = s.tick := rfl
@[simp] theorem State.setSpeed_vel : (s.setSpeed v).vel = s.vel := rfl
@[simp] theorem State.setSpeed_tickTodo : (s.setSpeed v).tickTodo = s.tickTodo := rfl
@[simp] theorem State.setSpeed_timer : (s.setSpeed v).timer = s.timer := rfl
@[simp] theorem State.setSpeed_src : (s.setSpeed v).src = s.src := rfl
@[simp] theorem State.setSpeed_srcPos : (s.setSpeed v).srcPos = s.srcPos := rfl
@[simp] theorem State.setSpeed_raw : (s.setSpeed v).raw = s.raw := rfl
@[simp] theorem State.setSpeed_zero : (s.setSpeed v).zero = s.zero := rfl
@[simp] theorem State.setSpeed_db : (s.setSpeed v).db = s.db := rfl
@[simp] theorem State.setSpeed_trace : (s.setSpeed v).trace = s.trace := rfl
@[simp] theorem State.setSpeed_posRead : (s.setSpeed v).posRead = s.posRead := rfl
@[simp] theorem State.setSpeed_inputs : (s.setSpeed v).inputs = s.inputs := rfl
@[simp] theorem State.setSpeed_moveCount : (s.setSpeed v).moveCount = s.moveCount := rfl
end SetSpeed

section SetEv
variable (v : Latch)
@[simp] theorem State.setEv_params : (s.setEv v).params = s.params := rfl
@[simp] theorem State.setEv_phase : (s.setEv v).phase = s.phase := rfl
@[simp] theorem State.setEv_mode : (s.setEv v).mode = s.mode := rfl
@[simp] theorem State.setEv_pos : (s.setEv v).pos = s.pos := rfl
@[simp] theorem State.setEv_speed : (s.setEv v).speed = s.speed := rfl
@[simp] theorem State.setEv_ev : (s.setEv v).ev = v := rfl
@[simp] theorem State.setEv_dirOut : (s.setEv v).dirOut = s.dirOut := rfl
@[simp] theorem State.setEv_stepOut : (s.setEv v).stepOut = s.stepOut := rfl
@[simp] theorem State.setEv_zrec : (s.setEv v).zrec = s.zrec := rfl
@[simp] theorem State.setEv_log : (s.setEv v).log = s.log := rfl
@[simp] theorem State.setEv_syn : (s.setEv v).syn = s.syn := rfl
@[simp] theorem State.setEv_fault : (s.setEv v).fault = s.fault := rfl
@[simp] theorem State.setEv_estopN : (s.setEv v).estopN = s.estopN := rfl
@[simp] theorem State.setEv_button : (s.setEv v).button = s.button := rfl
@[simp] theorem State.setEv_tick : (s.setEv v).tick = s.tick := rfl
@[simp] theorem State.setEv_vel : (s.setEv v).vel = s.vel := rfl
@[simp] theorem State.setEv_tickTodo : (s.setEv v).tickTodo = s.tickTodo := rfl
@[simp] theorem State.setEv_timer : (s.setEv v).timer = s.timer := rfl
@[simp] theorem State.setEv_src : (s.setEv v).src = s.src := rfl
@[simp] theorem State.setEv_srcPos : (s.setEv v).srcPos = s.srcPos := rfl
@[simp] theorem State.setEv_raw : (s.setEv v).raw = s.raw := rfl
@[simp] theorem State.setEv_zero : (s.setEv v).zero = s.zero := rfl
@[simp] theorem State.setEv_db : (s.setEv v).db = s.db := rfl
@[simp] theorem State.setEv_trace : (s.setEv v).trace = s.trace := rfl
@[simp] theorem State.setEv_posRead : (s.setEv v).posRead = s.posRead := rfl
@[simp] theorem State.setEv_inputs : (s.setEv v).inputs = s.inputs := rfl
@[simp] theorem State.setEv_moveCount : (s.setEv v).moveCount = s.moveCount := rfl
end SetEv

section SetDirOut
variable (v : Lines)
@[simp] theorem State.setDirOut_params : (s.setDirOut v).params = s.params := rfl
@[simp] theorem State.setDirOut_phase : (s.setDirOut v).phase = s.phase := rfl
@[simp] theorem State.setDirOut_mode : (s.setDirOut v).mode = s.mode := rfl
@[simp] theorem State.setDirOut_pos : (s.setDirOut v).pos = s.pos := rfl
@[simp] theorem State.setDirOut_speed : (s.setDirOut v).speed = s.speed := rfl
@[simp] theorem State.setDirOut_ev : (s.setDirOut v).ev = s.ev := rfl
@[simp] theorem State.setDirOut_dirOut : (s.setDirOut v).dirOut = v := rfl
@[simp] theorem State.setDirOut_stepOut : (s.setDirOut v).stepOut = s.stepOut := rfl
@[simp] theorem State.setDirOut_zrec : (s.setDirOut v).zrec = s.zrec := rfl
@[simp] theorem State.setDirOut_log : (s.setDirOut v).log = s.log := rfl
@[simp] theorem State.setDirOut_syn : (s.setDirOut v).syn = s.syn := rfl
@[simp] theorem State.setDirOut_fault : (s.setDirOut v).fault = s.fault := rfl
@[simp] theorem State.setDirOut_estopN : (s.setDirOut v).estopN = s.estopN := rfl
@[simp] theorem State.setDirOut_button : (s.setDirOut v).button = s.button := rfl
@[simp] theorem State.setDirOut_tick : (s.setDirOut v).tick = s.tick := rfl
@[simp] theorem State.setDirOut_vel : (s.setDirOut v).vel = s.vel := rfl
@[simp] theorem State.setDirOut_tickTodo : (s.setDirOut v).tickTodo = s.tickTodo := rfl
@[simp] theorem State.setDirOut_timer : (s.setDirOut v).timer = s.timer := rfl
@[simp] theorem State.setDirOut_src : (s.setDirOut v).src = s.src := rfl
@[simp] theorem State.setDirOut_srcPos : (s.setDirOut v).srcPos = s.srcPos := rfl
@[simp] theorem State.setDirOut_raw : (s.setDirOut v).raw = s.raw := rfl
@[simp] theorem State.setDirOut_zero : (s.setDirOut v).zero = s.zero := rfl
@[simp] theorem State.setDirOut_db : (s.setDirOut v).db = s.db := rfl
@[simp] theorem State.setDirOut_trace : (s.setDirOut v).trace = s.trace := rfl
@[simp] theorem State.setDirOut_posRead : (s.setDirOut v).posRead = s.posRead := rfl
@[simp] theorem State.setDirOut_inputs : (s.setDirOut v).inputs = s.inputs := rfl
@[simp] theorem State.setDirOut_moveCount : (s.setDirOut v).moveCount = s.moveCount := rfl
end SetDirOut

section SetStepOut
variable (v : Lines)
@[simp] theorem State.setStepOut_params : (s.setStepOut v).params = s.params := rfl
@[simp] theorem State.setStepOut_phase : (s.setStepOut v).phase = s.phase := rfl
@[simp] theorem State.setStepOut_mode : (s.setStepOut v).mode = s.mode := rfl
@[simp] theorem State.setStepOut_pos : (s.setStepOut v).pos = s.pos := rfl
@[simp] theorem State.setStepOut_speed : (s.setStepOut v).speed = s.speed := rfl
@[simp] theorem State.setStepOut_ev : (s.setStepOut v).ev = s.ev := rfl
@[simp] theorem State.setStepOut_dirOut : (s.setStepOut v).dirOut = s.dirOut := rfl
@[simp] theorem State.setStepOut_stepOut : (s.setStepOut v).stepOut = v := rfl
@[simp] theorem State.setStepOut_zrec : (s.setStepOut v).zrec = s.zrec := rfl
@[simp] theorem State.setStepOut_log : (s.setStepOut v).log = s.log := rfl
@[simp] theorem State.setStepOut_syn : (s.setStepOut v).syn = s.syn := rfl
@[simp] theorem State.setStepOut_fault : (s.setStepOut v).fault = s.fault := rfl
@[simp] theorem State.setStepOut_estopN : (s.setStepOut v).estopN = s.estopN := rfl
@[simp] theorem State.setStepOut_button : (s.setStepOut v).button = s.button := rfl
@[simp] theorem State.setStepOut_tick : (s.setStepOut v).tick = s.tick := rfl
@[simp] theorem State.setStepOut_vel : (s.setStepOut v).vel = s.vel := rfl
@[simp] theorem State.setStepOut_tickTodo : (s.setStepOut v).tickTodo = s.tickTodo := rfl
@[simp] theorem State.setStepOut_timer : (s.setStepOut v).timer = s.timer := rfl
@[simp] theorem State.setStepOut_src : (s.setStepOut v).src = s.src := rfl
@[simp] theorem State.setStepOut_srcPos : (s.setStepOut v).srcPos = s.srcPos := rfl
@[simp] theorem State.setStepOut_raw : (s.setStepOut v).raw = s.raw := rfl
@[simp] theorem State.setStepOut_zero : (s.setStepOut v).zero = s.zero := rfl
@[simp] theorem State.setStepOut_db : (s.setStepOut v).db = s.db := rfl
@[simp] theorem State.setStepOut_trace : (s.setStepOut v).trace = s.trace := rfl
@[simp] theorem State.setStepOut_posRead : (s.setStepOut v).posRead = s.posRead := rfl
@[simp] theorem State.setStepOut_inputs : (s.setStepOut v).inputs = s.inputs := rfl
@[simp] theorem State.setStepOut_moveCount : (s.setStepOut v).moveCount = s.moveCount := rfl
end SetStepOut

section SetZrec
variable (v : Bool)
@[simp] theorem State.setZrec_params : (s.setZrec v).params = s.params := rfl
@[simp] theorem State.setZrec_phase : (s.setZrec v).phase = s.phase := rfl
@[simp] theorem State.setZrec_mode : (s.setZrec v).mode = s.mode := rfl
@[simp] theorem State.setZrec_pos : (s.setZrec v).pos = s.pos := rfl
@[simp] theorem State.setZrec_speed : (s.setZrec v).speed = s.speed := rfl
@[simp] theorem State.setZrec_ev : (s.setZrec v).ev = s.ev := rfl
@[simp] theorem State.setZrec_dirOut : (s.setZrec v).dirOut = s.dirOut := rfl
@[simp] theorem State.setZrec_stepOut : (s.setZrec v).stepOut = s.stepOut := rfl
@[simp] theorem State.setZrec_zrec : (s.setZrec v).zrec = v := rfl
@[simp] theorem State.setZrec_log : (s.setZrec v).log = s.log := rfl
@[simp] theorem State.setZrec_syn : (s.setZrec v).syn = s.syn := rfl
@[simp] theorem State.setZrec_fault : (s.setZrec v).fault = s.fault := rfl
@[simp] theorem State.setZrec_estopN : (s.setZrec v).estopN = s.estopN := rfl
@[simp] theorem State.setZrec_button : (s.setZrec v).button = s.button := rfl
@[simp] theorem State.setZrec_tick : (s.setZrec v).tick = s.tick := rfl
@[simp] theorem State.setZrec_vel : (s.setZrec v).vel = s.vel := rfl
@[simp] theorem State.setZrec_tickTodo : (s.setZrec v).tickTodo = s.tickTodo := rfl
@[simp] theorem State.setZrec_timer : (s.setZrec v).timer = s.timer := rfl
@[simp] theorem State.setZrec_src : (s.setZrec v).src = s.src := rfl
@[simp] theorem State.setZrec_srcPos : (s.setZrec v).srcPos = s.srcPos := rfl
@[simp] theorem State.setZrec_raw : (s.setZrec v).raw = s.raw := rfl
@[simp] theorem State.setZrec_zero : (s.setZrec v).zero = s.zero := rfl
@[simp] theorem State.setZrec_db : (s.setZrec v).db = s.db := rfl
@[simp] theorem State.setZrec_trace : (s.setZrec v).trace = s.trace := rfl
@[simp] theorem State.setZrec_posRead : (s.setZrec v).posRead = s.posRead := rfl
@[simp] theorem State.setZrec_inputs : (s.setZrec v).inputs = s.inputs := rfl
@[simp] theorem State.setZrec_moveCount : (s.setZrec v).moveCount = s.moveCount := rfl
end SetZrec

section SetLog
variable (v : EventLog)
@[simp] theorem State.setLog_params : (s.setLog v).params = s.params := rfl
@[simp] theorem State.setLog_phase : (s.setLog v).phase = s.phase := rfl
@[simp] theorem State.setLog_mode : (s.setLog v).mode = s.mode := rfl
@[simp] theorem State.setLog_pos : (s.setLog v).pos = s.pos := rfl
@[simp] theorem State.setLog_speed : (s.setLog v).speed = s.speed := rfl
@[simp] theorem State.setLog_ev : (s.setLog v).ev = s.ev := rfl
@[simp] theorem State.setLog_dirOut : (s.setLog v).dirOut = s.dirOut := rfl
@[simp] theorem State.setLog_stepOut : (s.setLog v).stepOut = s.stepOut := rfl
@[simp] theorem State.setLog_zrec : (s.setLog v).zrec = s.zrec := rfl
@[simp] theorem State.setLog_log : (s.setLog v).log = v := rfl
@[simp] theorem State.setLog_syn : (s.setLog v).syn = s.syn := rfl
@[simp] theorem State.setLog_fault : (s.setLog v).fault = s.fault := rfl
@[simp] theorem State.setLog_estopN : (s.setLog v).estopN = s.estopN := rfl
@[simp] theorem State.setLog_button : (s.setLog v).button = s.button := rfl
@[simp] theorem State.setLog_tick : (s.setLog v).tick = s.tick := rfl
@[simp] theorem State.setLog_vel : (s.setLog v).vel = s.vel := rfl
@[simp] theorem State.setLog_tickTodo : (s.setLog v).tickTodo = s.tickTodo := rfl
@[simp] theorem State.setLog_timer : (s.setLog v).timer = s.timer := rfl
@[simp] theorem State.setLog_src : (s.setLog v).src = s.src := rfl
@[simp] theorem State.setLog_srcPos : (s.setLog v).srcPos = s.srcPos := rfl
@[simp] theorem State.setLog_raw : (s.setLog v).raw = s.raw := rfl
@[simp] theorem State.setLog_zero : (s.setLog v).zero = s.zero := rfl
@[simp] theorem State.setLog_db : (s.setLog v).db = s.db := rfl
@[simp] theorem State.setLog_trace : (s.setLog v).trace = s.trace := rfl
@[simp] theorem State.setLog_posRead : (s.setLog v).posRead = s.posRead := rfl
@[simp] theorem State.setLog_inputs : (s.setLog v).inputs = s.inputs := rfl
@[simp] theorem State.setLog_moveCount : (s.setLog v).moveCount = s.moveCount := rfl
end SetLog

section SetSyn
variable (v : SynRecord)
@[simp] theorem State.setSyn_params : (s.setSyn v).params = s.params := rfl
@[simp] theorem State.setSyn_phase : (s.setSyn v).phase = s.phase := rfl
@[simp] theorem State.setSyn_mode : (s.setSyn v).mode = s.mode := rfl
@[simp] theorem State.setSyn_pos : (s.setSyn v).pos = s.pos := rfl
@[simp] theorem State.setSyn_speed : (s.setSyn v).speed = s.speed := rfl
@[simp] theorem State.setSyn_ev : (s.setSyn v).ev = s.ev := rfl
@[simp] theorem State.setSyn_dirOut : (s.setSyn v).dirOut = s.dirOut := rfl
@[simp] theorem State.setSyn_stepOut : (s.setSyn v).stepOut = s.stepOut := rfl
@[simp] theorem State.setSyn_zrec : (s.setSyn v).zrec = s.zrec := rfl
@[simp] theorem State.setSyn_log : (s.setSyn v).log = s.log := rfl
@[simp] theorem State.setSyn_syn : (s.setSyn v).syn = v := rfl
@[simp] theorem State.setSyn_fault : (s.setSyn v).fault = s.fault := rfl
@[simp] theorem State.setSyn_estopN : (s.setSyn v).estopN = s.estopN := rfl
@[simp] theorem State.setSyn_button : (s.setSyn v).button = s.button := rfl
@[simp] theorem State.setSyn_tick : (s.setSyn v).tick = s.tick := rfl
@[simp] theorem State.setSyn_vel : (s.setSyn v).vel = s.vel := rfl
@[simp] theorem State.setSyn_tickTodo : (s.setSyn v).tickTodo = s.tickTodo := rfl
@[simp] theorem State.setSyn_timer : (s.setSyn v).timer = s.timer := rfl
@[simp] theorem State.setSyn_src : (s.setSyn v).src = s.src := rfl
@[simp] theorem State.setSyn_srcPos : (s.setSyn v).srcPos = s.srcPos := rfl
@[simp] theorem State.setSyn_raw : (s.setSyn v).raw = s.raw := rfl
@[simp] theorem State.setSyn_zero : (s.setSyn v).zero = s.zero := rfl
@[simp] theorem State.setSyn_db : (s.setSyn v).db = s.db := rfl
@[simp] theorem State.setSyn_trace : (s.setSyn v).trace = s.trace := rfl
@[simp] theorem State.setSyn_posRead : (s.setSyn v).posRead = s.posRead := rfl
@[simp] theorem State.setSyn_inputs : (s.setSyn v).inputs = s.inputs := rfl
@[simp] theorem State.setSyn_moveCount : (s.setSyn v).moveCount = s.moveCount := rfl
end SetSyn

section SetFault
variable (v : Option FaultReason)
@[simp] theorem State.setFault_params : (s.setFault v).params = s.params := rfl
@[simp] theorem State.setFault_phase : (s.setFault v).phase = s.phase := rfl
@[simp] theorem State.setFault_mode : (s.setFault v).mode = s.mode := rfl
@[simp] theorem State.setFault_pos : (s.setFault v).pos = s.pos := rfl
@[simp] theorem State.setFault_speed : (s.setFault v).speed = s.speed := rfl
@[simp] theorem State.setFault_ev : (s.setFault v).ev = s.ev := rfl
@[simp] theorem State.setFault_dirOut : (s.setFault v).dirOut = s.dirOut := rfl
@[simp] theorem State.setFault_stepOut : (s.setFault v).stepOut = s.stepOut := rfl
@[simp] theorem State.setFault_zrec : (s.setFault v).zrec = s.zrec := rfl
@[simp] theorem State.setFault_log : (s.setFault v).log = s.log := rfl
@[simp] theorem State.setFault_syn : (s.setFault v).syn = s.syn := rfl
@[simp] theorem State.setFault_fault : (s.setFault v).fault = v := rfl
@[simp] theorem State.setFault_estopN : (s.setFault v).estopN = s.estopN := rfl
@[simp] theorem State.setFault_button : (s.setFault v).button = s.button := rfl
@[simp] theorem State.setFault_tick : (s.setFault v).tick = s.tick := rfl
@[simp] theorem State.setFault_vel : (s.setFault v).vel = s.vel := rfl
@[simp] theorem State.setFault_tickTodo : (s.setFault v).tickTodo = s.tickTodo := rfl
@[simp] theorem State.setFault_timer : (s.setFault v).timer = s.timer := rfl
@[simp] theorem State.setFault_src : (s.setFault v).src = s.src := rfl
@[simp] theorem State.setFault_srcPos : (s.setFault v).srcPos = s.srcPos := rfl
@[simp] theorem State.setFault_raw : (s.setFault v).raw = s.raw := rfl
@[simp] theorem State.setFault_zero : (s.setFault v).zero = s.zero := rfl
@[simp] theorem State.setFault_db : (s.setFault v).db = s.db := rfl
@[simp] theorem State.setFault_trace : (s.setFault v).trace = s.trace := rfl
@[simp] theorem State.setFault_posRead : (s.setFault v).posRead = s.posRead := rfl
@[simp] theorem State.setFault_inputs : (s.setFault v).inputs = s.inputs := rfl
@[simp] theorem State.setFault_moveCount : (s.setFault v).moveCount = s.moveCount := rfl
end SetFault

section SetEstopN
variable (v : Bool)
@[simp] theorem State.setEstopN_params : (s.setEstopN v).params = s.params := rfl
@[simp] theorem State.setEstopN_phase : (s.setEstopN v).phase = s.phase := rfl
@[simp] theorem State.setEstopN_mode : (s.setEstopN v).mode = s.mode := rfl
@[simp] theorem State.setEstopN_pos : (s.setEstopN v).pos = s.pos := rfl
@[simp] theorem State.setEstopN_speed : (s.setEstopN v).speed = s.speed := rfl
@[simp] theorem State.setEstopN_ev : (s.setEstopN v).ev = s.ev := rfl
@[simp] theorem State.setEstopN_dirOut : (s.setEstopN v).dirOut = s.dirOut := rfl
@[simp] theorem State.setEstopN_stepOut : (s.setEstopN v).stepOut = s.stepOut := rfl
@[simp] theorem State.setEstopN_zrec : (s.setEstopN v).zrec = s.zrec := rfl
@[simp] theorem State.setEstopN_log : (s.setEstopN v).log = s.log := rfl
@[simp] theorem State.setEstopN_syn : (s.setEstopN v).syn = s.syn := rfl
@[simp] theorem State.setEstopN_fault : (s.setEstopN v).fault = s.fault := rfl
@[simp] theorem State.setEstopN_estopN : (s.setEstopN v).estopN = v := rfl
@[simp] theorem State.setEstopN_button : (s.setEstopN v).button = s.button := rfl
@[simp] theorem State.setEstopN_tick : (s.setEstopN v).tick = s.tick := rfl
@[simp] theorem State.setEstopN_vel : (s.setEstopN v).vel = s.vel := rfl
@[simp] theorem State.setEstopN_tickTodo : (s.setEstopN v).tickTodo = s.tickTodo := rfl
@[simp] theorem State.setEstopN_timer : (s.setEstopN v).timer = s.timer := rfl
@[simp] theorem State.setEstopN_src : (s.setEstopN v).src = s.src := rfl
@[simp] theorem State.setEstopN_srcPos : (s.setEstopN v).srcPos = s.srcPos := rfl
@[simp] theorem State.setEstopN_raw : (s.setEstopN v).raw = s.raw := rfl
@[simp] theorem State.setEstopN_zero : (s.setEstopN v).zero = s.zero := rfl
@[simp] theorem State.setEstopN_db : (s.setEstopN v).db = s.db := rfl
@[simp] theorem State.setEstopN_trace : (s.setEstopN v).trace = s.trace := rfl
@[simp] theorem State.setEstopN_posRead : (s.setEstopN v).posRead = s.posRead := rfl
@[simp] theorem State.setEstopN_inputs : (s.setEstopN v).inputs = s.inputs := rfl
@[simp] theorem State.setEstopN_moveCount : (s.setEstopN v).moveCount = s.moveCount := rfl
end SetEstopN

section SetButton
variable (v : Bool)
@[simp] theorem State.setButton_params : (s.setButton v).params = s.params := rfl
@[simp] theorem State.setButton_phase : (s.setButton v).phase = s.phase := rfl
@[simp] theorem State.setButton_mode : (s.setButton v).mode = s.mode := rfl
@[simp] theorem State.setButton_pos : (s.setButton v).pos = s.pos := rfl
@[simp] theorem State.setButton_speed : (s.setButton v).speed = s.speed := rfl
@[simp] theorem State.setButton_ev : (s.setButton v).ev = s.ev := rfl
@[simp] theorem State.setButton_dirOut : (s.setButton v).dirOut = s.dirOut := rfl
@[simp] theorem State.setButton_stepOut : (s.setButton v).stepOut = s.stepOut := rfl
@[simp] theorem State.setButton_zrec : (s.setButton v).zrec = s.zrec := rfl
@[simp] theorem State.setButton_log : (s.setButton v).log = s.log := rfl
@[simp] theorem State.setButton_syn : (s.setButton v).syn = s.syn := rfl
@[simp] theorem State.setButton_fault : (s.setButton v).fault = s.fault := rfl
@[simp] theorem State.setButton_estopN : (s.setButton v).estopN = s.estopN := rfl
@[simp] theorem State.setButton_button : (s.setButton v).button = v := rfl
@[simp] theorem State.setButton_tick : (s.setButton v).tick = s.tick := rfl
@[simp] theorem State.setButton_vel : (s.setButton v).vel = s.vel := rfl
@[simp] theorem State.setButton_tickTodo : (s.setButton v).tickTodo = s.tickTodo := rfl
@[simp] theorem State.setButton_timer : (s.setButton v).timer = s.timer := rfl
@[simp] theorem State.setButton_src : (s.setButton v).src = s.src := rfl
@[simp] theorem State.setButton_srcPos : (s.setButton v).srcPos = s.srcPos := rfl
@[simp] theorem State.setButton_raw : (s.setButton v).raw = s.raw := rfl
@[simp] theorem State.setButton_zero : (s.setButton v).zero = s.zero := rfl
@[simp] theorem State.setButton_db : (s.setButton v).db = s.db := rfl
@[simp] theorem State.setButton_trace : (s.setButton v).trace = s.trace := rfl
@[simp] theorem State.setButton_posRead : (s.setButton v).posRead = s.posRead := rfl
@[simp] theorem State.setButton_inputs : (s.setButton v).inputs = s.inputs := rfl
@[simp] theorem State.setButton_moveCount : (s.setButton v).moveCount = s.moveCount := rfl
end SetButton

section SetTick
variable (v : Nat)
@[simp] theorem State.setTick_params : (s.setTick v).params = s.params := rfl
@[simp] theorem State.setTick_phase : (s.setTick v).phase = s.phase := rfl
@[simp] theorem State.setTick_mode : (s.setTick v).mode = s.mode := rfl
@[simp] theorem State.setTick_pos : (s.setTick v).pos = s.pos := rfl
@[simp] theorem State.setTick_speed : (s.setTick v).speed = s.speed := rfl
@[simp] theorem State.setTick_ev : (s.setTick v).ev = s.ev := rfl
@[simp] theorem State.setTick_dirOut : (s.setTick v).dirOut = s.dirOut := rfl
@[simp] theorem State.setTick_stepOut : (s.setTick v).stepOut = s.stepOut := rfl
@[simp] theorem State.setTick_zrec : (s.setTick v).zrec = s.zrec := rfl
@[simp] theorem State.setTick_log : (s.setTick v).log = s.log := rfl
@[simp] theorem State.setTick_syn : (s.setTick v).syn = s.syn := rfl
@[simp] theorem State.setTick_fault : (s.setTick v).fault = s.fault := rfl
@[simp] theorem State.setTick_estopN : (s.setTick v).estopN = s.estopN := rfl
@[simp] theorem State.setTick_button : (s.setTick v).button = s.button := rfl
@[simp] theorem State.setTick_tick : (s.setTick v).tick = v := rfl
@[simp] theorem State.setTick_vel : (s.setTick v).vel = s.vel := rfl
@[simp] theorem State.setTick_tickTodo : (s.setTick v).tickTodo = s.tickTodo := rfl
@[simp] theorem State.setTick_timer : (s.setTick v).timer = s.timer := rfl
@[simp] theorem State.setTick_src : (s.setTick v).src = s.src := rfl
@[simp] theorem State.setTick_srcPos : (s.setTick v).srcPos = s.srcPos := rfl
@[simp] theorem State.setTick_raw : (s.setTick v).raw = s.raw := rfl
@[simp] theorem State.setTick_zero : (s.setTick v).zero = s.zero := rfl
@[simp] theorem State.setTick_db : (s.setTick v).db = s.db := rfl
@[simp] theorem State.setTick_trace : (s.setTick v).trace = s.trace := rfl
@[simp] theorem State.setTick_posRead : (s.setTick v).posRead = s.posRead := rfl
@[simp] theorem State.setTick_inputs : (s.setTick v).inputs = s.inputs := rfl
@[simp] theorem State.setTick_moveCount : (s.setTick v).moveCount = s.moveCount := rfl
end SetTick

section SetVel
variable (v : Axis3 Velocity)
@[simp] theorem State.setVel_params : (s.setVel v).params = s.params := rfl
@[simp] theorem State.setVel_phase : (s.setVel v).phase = s.phase := rfl
@[simp] theorem State.setVel_mode : (s.setVel v).mode = s.mode := rfl
@[simp] theorem State.setVel_pos : (s.setVel v).pos = s.pos := rfl
@[simp] theorem State.setVel_speed : (s.setVel v).speed = s.speed := rfl
@[simp] theorem State.setVel_ev : (s.setVel v).ev = s.ev := rfl
@[simp] theorem State.setVel_dirOut : (s.setVel v).dirOut = s.dirOut := rfl
@[simp] theorem State.setVel_stepOut : (s.setVel v).stepOut = s.stepOut := rfl
@[simp] theorem State.setVel_zrec : (s.setVel v).zrec = s.zrec := rfl
@[simp] theorem State.setVel_log : (s.setVel v).log = s.log := rfl
@[simp] theorem State.setVel_syn : (s.setVel v).syn = s.syn := rfl
@[simp] theorem State.setVel_fault : (s.setVel v).fault = s.fault := rfl
@[simp] theorem State.setVel_estopN : (s.setVel v).estopN = s.estopN := rfl
@[simp] theorem State.setVel_button : (s.setVel v).button = s.button := rfl
@[simp] theorem State.setVel_tick : (s.setVel v).tick = s.tick := rfl
@[simp] theorem State.setVel_vel : (s.setVel v).vel = v := rfl
@[simp] theorem State.setVel_tickTodo : (s.setVel v).tickTodo = s.tickTodo := rfl
@[simp] theorem State.setVel_timer : (s.setVel v).timer = s.timer := rfl
@[simp] theorem State.setVel_src : (s.setVel v).src = s.src := rfl
@[simp] theorem State.setVel_srcPos : (s.setVel v).srcPos = s.srcPos := rfl
@[simp] theorem State.setVel_raw : (s.setVel v).raw = s.raw := rfl
@[simp] theorem State.setVel_zero : (s.setVel v).zero = s.zero := rfl
@[simp] theorem State.setVel_db : (s.setVel v).db = s.db := rfl
@[simp] theorem State.setVel_trace : (s.setVel v).trace = s.trace := rfl
@[simp] theorem State.setVel_posRead : (s.setVel v).posRead = s.posRead := rfl
@[simp] theorem State.setVel_inputs : (s.setVel v).inputs = s.inputs := rfl
@[simp] theorem State.setVel_moveCount : (s.setVel v).moveCount = s.moveCount := rfl
end SetVel

section SetTickTodo
variable (v : List TickDuty)
@[simp] theorem State.setTickTodo_params : (s.setTickTodo v).params = s.params := rfl
@[simp] theorem State.setTickTodo_phase : (s.setTickTodo v).phase = s.phase := rfl
@[simp] theorem State.setTickTodo_mode : (s.setTickTodo v).mode = s.mode := rfl
@[simp] theorem State.setTickTodo_pos : (s.setTickTodo v).pos = s.pos := rfl
@[simp] theorem State.setTickTodo_speed : (s.setTickTodo v).speed = s.speed := rfl
@[simp] theorem State.setTickTodo_ev : (s.setTickTodo v).ev = s.ev := rfl
@[simp] theorem State.setTickTodo_dirOut : (s.setTickTodo v).dirOut = s.dirOut := rfl
@[simp] theorem State.setTickTodo_stepOut : (s.setTickTodo v).stepOut = s.stepOut := rfl
@[simp] theorem State.setTickTodo_zrec : (s.setTickTodo v).zrec = s.zrec := rfl
@[simp] theorem State.setTickTodo_log : (s.setTickTodo v).log = s.log := rfl
@[simp] theorem State.setTickTodo_syn : (s.setTickTodo v).syn = s.syn := rfl
@[simp] theorem State.setTickTodo_fault : (s.setTickTodo v).fault = s.fault := rfl
@[simp] theorem State.setTickTodo_estopN : (s.setTickTodo v).estopN = s.estopN := rfl
@[simp] theorem State.setTickTodo_button : (s.setTickTodo v).button = s.button := rfl
@[simp] theorem State.setTickTodo_tick : (s.setTickTodo v).tick = s.tick := rfl
@[simp] theorem State.setTickTodo_vel : (s.setTickTodo v).vel = s.vel := rfl
@[simp] theorem State.setTickTodo_tickTodo : (s.setTickTodo v).tickTodo = v := rfl
@[simp] theorem State.setTickTodo_timer : (s.setTickTodo v).timer = s.timer := rfl
@[simp] theorem State.setTickTodo_src : (s.setTickTodo v).src = s.src := rfl
@[simp] theorem State.setTickTodo_srcPos : (s.setTickTodo v).srcPos = s.srcPos := rfl
@[simp] theorem State.setTickTodo_raw : (s.setTickTodo v).raw = s.raw := rfl
@[simp] theorem State.setTickTodo_zero : (s.setTickTodo v).zero = s.zero := rfl
@[simp] theorem State.setTickTodo_db : (s.setTickTodo v).db = s.db := rfl
@[simp] theorem State.setTickTodo_trace : (s.setTickTodo v).trace = s.trace := rfl
@[simp] theorem State.setTickTodo_posRead : (s.setTickTodo v).posRead = s.posRead := rfl
@[simp] theorem State.setTickTodo_inputs : (s.setTickTodo v).inputs = s.inputs := rfl
@[simp] theorem State.setTickTodo_moveCount : (s.setTickTodo v).moveCount = s.moveCount := rfl
end SetTickTodo

section SetTimer
variable (v : Timer)
@[simp] theorem State.setTimer_params : (s.setTimer v).params = s.params := rfl
@[simp] theorem State.setTimer_phase : (s.setTimer v).phase = s.phase := rfl
@[simp] theorem State.setTimer_mode : (s.setTimer v).mode = s.mode := rfl
@[simp] theorem State.setTimer_pos : (s.setTimer v).pos = s.pos := rfl
@[simp] theorem State.setTimer_speed : (s.setTimer v).speed = s.speed := rfl
@[simp] theorem State.setTimer_ev : (s.setTimer v).ev = s.ev := rfl
@[simp] theorem State.setTimer_dirOut : (s.setTimer v).dirOut = s.dirOut := rfl
@[simp] theorem State.setTimer_stepOut : (s.setTimer v).stepOut = s.stepOut := rfl
@[simp] theorem State.setTimer_zrec : (s.setTimer v).zrec = s.zrec := rfl
@[simp] theorem State.setTimer_log : (s.setTimer v).log = s.log := rfl
@[simp] theorem State.setTimer_syn : (s.setTimer v).syn = s.syn := rfl
@[simp] theorem State.setTimer_fault : (s.setTimer v).fault = s.fault := rfl
@[simp] theorem State.setTimer_estopN : (s.setTimer v).estopN = s.estopN := rfl
@[simp] theorem State.setTimer_button : (s.setTimer v).button = s.button := rfl
@[simp] theorem State.setTimer_tick : (s.setTimer v).tick = s.tick := rfl
@[simp] theorem State.setTimer_vel : (s.setTimer v).vel = s.vel := rfl
@[simp] theorem State.setTimer_tickTodo : (s.setTimer v).tickTodo = s.tickTodo := rfl
@[simp] theorem State.setTimer_timer : (s.setTimer v).timer = v := rfl
@[simp] theorem State.setTimer_src : (s.setTimer v).src = s.src := rfl
@[simp] theorem State.setTimer_srcPos : (s.setTimer v).srcPos = s.srcPos := rfl
@[simp] theorem State.setTimer_raw : (s.setTimer v).raw = s.raw := rfl
@[simp] theorem State.setTimer_zero : (s.setTimer v).zero = s.zero := rfl
@[simp] theorem State.setTimer_db : (s.setTimer v).db = s.db := rfl
@[simp] theorem State.setTimer_trace : (s.setTimer v).trace = s.trace := rfl
@[simp] theorem State.setTimer_posRead : (s.setTimer v).posRead = s.posRead := rfl
@[simp] theorem State.setTimer_inputs : (s.setTimer v).inputs = s.inputs := rfl
@[simp] theorem State.setTimer_moveCount : (s.setTimer v).moveCount = s.moveCount := rfl
end SetTimer

section SetSrc
variable (v : List Byte)
@[simp] theorem State.setSrc_params : (s.setSrc v).params = s.params := rfl
@[simp] theorem State.setSrc_phase : (s.setSrc v).phase = s.phase := rfl
@[simp] theorem State.setSrc_mode : (s.setSrc v).mode = s.mode := rfl
@[simp] theorem State.setSrc_pos : (s.setSrc v).pos = s.pos := rfl
@[simp] theorem State.setSrc_speed : (s.setSrc v).speed = s.speed := rfl
@[simp] theorem State.setSrc_ev : (s.setSrc v).ev = s.ev := rfl
@[simp] theorem State.setSrc_dirOut : (s.setSrc v).dirOut = s.dirOut := rfl
@[simp] theorem State.setSrc_stepOut : (s.setSrc v).stepOut = s.stepOut := rfl
@[simp] theorem State.setSrc_zrec : (s.setSrc v).zrec = s.zrec := rfl
@[simp] theorem State.setSrc_log : (s.setSrc v).log = s.log := rfl
@[simp] theorem State.setSrc_syn : (s.setSrc v).syn = s.syn := rfl
@[simp] theorem State.setSrc_fault : (s.setSrc v).fault = s.fault := rfl
@[simp] theorem State.setSrc_estopN : (s.setSrc v).estopN = s.estopN := rfl
@[simp] theorem State.setSrc_button : (s.setSrc v).button = s.button := rfl
@[simp] theorem State.setSrc_tick : (s.setSrc v).tick = s.tick := rfl
@[simp] theorem State.setSrc_vel : (s.setSrc v).vel = s.vel := rfl
@[simp] theorem State.setSrc_tickTodo : (s.setSrc v).tickTodo = s.tickTodo := rfl
@[simp] theorem State.setSrc_timer : (s.setSrc v).timer = s.timer := rfl
@[simp] theorem State.setSrc_src : (s.setSrc v).src = v := rfl
@[simp] theorem State.setSrc_srcPos : (s.setSrc v).srcPos = s.srcPos := rfl
@[simp] theorem State.setSrc_raw : (s.setSrc v).raw = s.raw := rfl
@[simp] theorem State.setSrc_zero : (s.setSrc v).zero = s.zero := rfl
@[simp] theorem State.setSrc_db : (s.setSrc v).db = s.db := rfl
@[simp] theorem State.setSrc_trace : (s.setSrc v).trace = s.trace := rfl
@[simp] theorem State.setSrc_posRead : (s.setSrc v).posRead = s.posRead := rfl
@[simp] theorem State.setSrc_inputs : (s.setSrc v).inputs = s.inputs := rfl
@[simp] theorem State.setSrc_moveCount : (s.setSrc v).moveCount = s.moveCount := rfl
end SetSrc

section SetSrcPos
variable (v : Nat)
@[simp] theorem State.setSrcPos_params : (s.setSrcPos v).params = s.params := rfl
@[simp] theorem State.setSrcPos_phase : (s.setSrcPos v).phase = s.phase := rfl
@[simp] theorem State.setSrcPos_mode : (s.setSrcPos v).mode = s.mode := rfl
@[simp] theorem State.setSrcPos_pos : (s.setSrcPos v).pos = s.pos := rfl
@[simp] theorem State.setSrcPos_speed : (s.setSrcPos v).speed = s.speed := rfl
@[simp] theorem State.setSrcPos_ev : (s.setSrcPos v).ev = s.ev := rfl
@[simp] theorem State.setSrcPos_dirOut : (s.setSrcPos v).dirOut = s.dirOut := rfl
@[simp] theorem State.setSrcPos_stepOut : (s.setSrcPos v).stepOut = s.stepOut := rfl
@[simp] theorem State.setSrcPos_zrec : (s.setSrcPos v).zrec = s.zrec := rfl
@[simp] theorem State.setSrcPos_log : (s.setSrcPos v).log = s.log := rfl
@[simp] theorem State.setSrcPos_syn : (s.setSrcPos v).syn = s.syn := rfl
@[simp] theorem State.setSrcPos_fault : (s.setSrcPos v).fault = s.fault := rfl
@[simp] theorem State.setSrcPos_estopN : (s.setSrcPos v).estopN = s.estopN := rfl
@[simp] theorem State.setSrcPos_button : (s.setSrcPos v).button = s.button := rfl
@[simp] theorem State.setSrcPos_tick : (s.setSrcPos v).tick = s.tick := rfl
@[simp] theorem State.setSrcPos_vel : (s.setSrcPos v).vel = s.vel := rfl
@[simp] theorem State.setSrcPos_tickTodo : (s.setSrcPos v).tickTodo = s.tickTodo := rfl
@[simp] theorem State.setSrcPos_timer : (s.setSrcPos v).timer = s.timer := rfl
@[simp] theorem State.setSrcPos_src : (s.setSrcPos v).src = s.src := rfl
@[simp] theorem State.setSrcPos_srcPos : (s.setSrcPos v).srcPos = v := rfl
@[simp] theorem State.setSrcPos_raw : (s.setSrcPos v).raw = s.raw := rfl
@[simp] theorem State.setSrcPos_zero : (s.setSrcPos v).zero = s.zero := rfl
@[simp] theorem State.setSrcPos_db : (s.setSrcPos v).db = s.db := rfl
@[simp] theorem State.setSrcPos_trace : (s.setSrcPos v).trace = s.trace := rfl
@[simp] theorem State.setSrcPos_posRead : (s.setSrcPos v).posRead = s.posRead := rfl
@[simp] theorem State.setSrcPos_inputs : (s.setSrcPos v).inputs = s.inputs := rfl
@[simp] theorem State.setSrcPos_moveCount : (s.setSrcPos v).moveCount = s.moveCount := rfl
end SetSrcPos

section SetRaw
variable (v : Axis3 Byte)
@[simp] theorem State.setRaw_params : (s.setRaw v).params = s.params := rfl
@[simp] theorem State.setRaw_phase : (s.setRaw v).phase = s.phase := rfl
@[simp] theorem State.setRaw_mode : (s.setRaw v).mode = s.mode := rfl
@[simp] theorem State.setRaw_pos : (s.setRaw v).pos = s.pos := rfl
@[simp] theorem State.setRaw_speed : (s.setRaw v).speed = s.speed := rfl
@[simp] theorem State.setRaw_ev : (s.setRaw v).ev = s.ev := rfl
@[simp] theorem State.setRaw_dirOut : (s.setRaw v).dirOut = s.dirOut := rfl
@[simp] theorem State.setRaw_stepOut : (s.setRaw v).stepOut = s.stepOut := rfl
@[simp] theorem State.setRaw_zrec : (s.setRaw v).zrec = s.zrec := rfl
@[simp] theorem State.setRaw_log : (s.setRaw v).log = s.log := rfl
@[simp] theorem State.setRaw_syn : (s.setRaw v).syn = s.syn := rfl
@[simp] theorem State.setRaw_fault : (s.setRaw v).fault = s.fault := rfl
@[simp] theorem State.setRaw_estopN : (s.setRaw v).estopN = s.estopN := rfl
@[simp] theorem State.setRaw_button : (s.setRaw v).button = s.button := rfl
@[simp] theorem State.setRaw_tick : (s.setRaw v).tick = s.tick := rfl
@[simp] theorem State.setRaw_vel : (s.setRaw v).vel = s.vel := rfl
@[simp] theorem State.setRaw_tickTodo : (s.setRaw v).tickTodo = s.tickTodo := rfl
@[simp] theorem State.setRaw_timer : (s.setRaw v).timer = s.timer := rfl
@[simp] theorem State.setRaw_src : (s.setRaw v).src = s.src := rfl
@[simp] theorem State.setRaw_srcPos : (s.setRaw v).srcPos = s.srcPos := rfl
@[simp] theorem State.setRaw_raw : (s.setRaw v).raw = v := rfl
@[simp] theorem State.setRaw_zero : (s.setRaw v).zero = s.zero := rfl
@[simp] theorem State.setRaw_db : (s.setRaw v).db = s.db := rfl
@[simp] theorem State.setRaw_trace : (s.setRaw v).trace = s.trace := rfl
@[simp] theorem State.setRaw_posRead : (s.setRaw v).posRead = s.posRead := rfl
@[simp] theorem State.setRaw_inputs : (s.setRaw v).inputs = s.inputs := rfl
@[simp] theorem State.setRaw_moveCount : (s.setRaw v).moveCount = s.moveCount := rfl
end SetRaw

section SetZero
variable (v : Axis3 Byte)
@[simp] theorem State.setZero_params : (s.setZero v).params = s.params := rfl
@[simp] theorem State.setZero_phase : (s.setZero v).phase = s.phase := rfl
@[simp] theorem State.setZero_mode : (s.setZero v).mode = s.mode := rfl
@[simp] theorem State.setZero_pos : (s.setZero v).pos = s.pos := rfl
@[simp] theorem State.setZero_speed : (s.setZero v).speed = s.speed := rfl
@[simp] theorem State.setZero_ev : (s.setZero v).ev = s.ev := rfl
@[simp] theorem State.setZero_dirOut : (s.setZero v).dirOut = s.dirOut := rfl
@[simp] theorem State.setZero_stepOut : (s.setZero v).stepOut = s.stepOut := rfl
@[simp] theorem State.setZero_zrec : (s.setZero v).zrec = s.zrec := rfl
@[simp] theorem State.setZero_log : (s.setZero v).log = s.log := rfl
@[simp] theorem State.setZero_syn : (s.setZero v).syn = s.syn := rfl
@[simp] theorem State.setZero_fault : (s.setZero v).fault = s.fault := rfl
@[simp] theorem State.setZero_estopN : (s.setZero v).estopN = s.estopN := rfl
@[simp] theorem State.setZero_button : (s.setZero v).button = s.button := rfl
@[simp] theorem State.setZero_tick : (s.setZero v).tick = s.tick := rfl
@[simp] theorem State.setZero_vel : (s.setZero v).vel = s.vel := rfl
@[simp] theorem State.setZero_tickTodo : (s.setZero v).tickTodo = s.tickTodo := rfl
@[simp] theorem State.setZero_timer : (s.setZero v).timer = s.timer := rfl
@[simp] theorem State.setZero_src : (s.setZero v).src = s.src := rfl
@[simp] theorem State.setZero_srcPos : (s.setZero v).srcPos = s.srcPos := rfl
@[simp] theorem State.setZero_raw : (s.setZero v).raw = s.raw := rfl
@[simp] theorem State.setZero_zero : (s.setZero v).zero = v := rfl
@[simp] theorem State.setZero_db : (s.setZero v).db = s.db := rfl
@[simp] theorem State.setZero_trace : (s.setZero v).trace = s.trace := rfl
@[simp] theorem State.setZero_posRead : (s.setZero v).posRead = s.posRead := rfl
@[simp] theorem State.setZero_inputs : (s.setZero v).inputs = s.inputs := rfl
@[simp] theorem State.setZero_moveCount : (s.setZero v).moveCount = s.moveCount := rfl
end SetZero

section SetDb
variable (v : Debouncer)
@[simp] theorem State.setDb_params : (s.setDb v).params = s.params := rfl
@[simp] theorem State.setDb_phase : (s.setDb v).phase = s.phase := rfl
@[simp] theorem State.setDb_mode : (s.setDb v).mode = s.mode := rfl
@[simp] theorem State.setDb_pos : (s.setDb v).pos = s.pos := rfl
@[simp] theorem State.setDb_speed : (s.setDb v).speed = s.speed := rfl
@[simp] theorem State.setDb_ev : (s.setDb v).ev = s.ev := rfl
@[simp] theorem State.setDb_dirOut : (s.setDb v).dirOut = s.dirOut := rfl
@[simp] theorem State.setDb_stepOut : (s.setDb v).stepOut = s.stepOut := rfl
@[simp] theorem State.setDb_zrec : (s.setDb v).zrec = s.zrec := rfl
@[simp] theorem State.setDb_log : (s.setDb v).log = s.log := rfl
@[simp] theorem State.setDb_syn : (s.setDb v).syn = s.syn := rfl
@[simp] theorem State.setDb_fault : (s.setDb v).fault = s.fault := rfl
@[simp] theorem State.setDb_estopN : (s.setDb v).estopN = s.estopN := rfl
@[simp] theorem State.setDb_button : (s.setDb v).button = s.button := rfl
@[simp] theorem State.setDb_tick : (s.setDb v).tick = s.tick := rfl
@[simp] theorem State.setDb_vel : (s.setDb v).vel = s.vel := rfl
@[simp] theorem State.setDb_tickTodo : (s.setDb v).tickTodo = s.tickTodo := rfl
@[simp] theorem State.setDb_timer : (s.setDb v).timer = s.timer := rfl
@[simp] theorem State.setDb_src : (s.setDb v).src = s.src := rfl
@[simp] theorem State.setDb_srcPos : (s.setDb v).srcPos = s.srcPos := rfl
@[simp] theorem State.setDb_raw : (s.setDb v).raw = s.raw := rfl
@[simp] theorem State.setDb_zero : (s.setDb v).zero = s.zero := rfl
@[simp] theorem State.setDb_db : (s.setDb v).db = v := rfl
@[simp] theorem State.setDb_trace : (s.setDb v).trace = s.trace := rfl
@[simp] theorem State.setDb_posRead : (s.setDb v).posRead = s.posRead := rfl
@[simp] theorem State.setDb_inputs : (s.setDb v).inputs = s.inputs := rfl
@[simp] theorem State.setDb_moveCount : (s.setDb v).moveCount = s.moveCount := rfl
end SetDb

section Emit
variable (v : TraceEvent)
@[simp] theorem State.emit_params : (s.emit v).params = s.params := rfl
@[simp] theorem State.emit_phase : (s.emit v).phase = s.phase := rfl
@[simp] theorem State.emit_mode : (s.emit v).mode = s.mode := rfl
@[simp] theorem State.emit_pos : (s.emit v).pos = s.pos := rfl
@[simp] theorem State.emit_speed : (s.emit v).speed = s.speed := rfl
@[simp] theorem State.emit_ev : (s.emit v).ev = s.ev := rfl
@[simp] theorem State.emit_dirOut : (s.emit v).dirOut = s.dirOut := rfl
@[simp] theorem State.emit_stepOut : (s.emit v).stepOut = s.stepOut := rfl
@[simp] theorem State.emit_zrec : (s.emit v).zrec = s.zrec := rfl
@[simp] theorem State.emit_log : (s.emit v).log = s.log := rfl
@[simp] theorem State.emit_syn : (s.emit v).syn = s.syn := rfl
@[simp] theorem State.emit_fault : (s.emit v).fault = s.fault := rfl
@[simp] theorem State.emit_estopN : (s.emit v).estopN = s.estopN := rfl
@[simp] theorem State.emit_button : (s.emit v).button = s.button := rfl
@[simp] theorem State.emit_tick : (s.emit v).tick = s.tick := rfl
@[simp] theorem State.emit_vel : (s.emit v).vel = s.vel := rfl
@[simp] theorem State.emit_tickTodo : (s.emit v).tickTodo = s.tickTodo := rfl
@[simp] theorem State.emit_timer : (s.emit v).timer = s.timer := rfl
@[simp] theorem State.emit_src : (s.emit v).src = s.src := rfl
@[simp] theorem State.emit_srcPos : (s.emit v).srcPos = s.srcPos := rfl
@[simp] theorem State.emit_raw : (s.emit v).raw = s.raw := rfl
@[simp] theorem State.emit_zero : (s.emit v).zero = s.zero := rfl
@[simp] theorem State.emit_db : (s.emit v).db = s.db := rfl
@[simp] theorem State.emit_trace : (s.emit v).trace = s.trace ++ [v] := rfl
@[simp] theorem State.emit_posRead : (s.emit v).posRead = s.posRead := rfl
@[simp] theorem State.emit_inputs : (s.emit v).inputs = s.inputs := rfl
@[simp] theorem State.emit_moveCount : (s.emit v).moveCount = s.moveCount := rfl
end Emit

section SetPosRead
variable (v : Axis3 Int)
@[simp] theorem State.setPosRead_params : (s.setPosRead v).params = s.params := rfl
@[simp] theorem State.setPosRead_phase : (s.setPosRead v).phase = s.phase := rfl
@[simp] theorem State.setPosRead_mode : (s.setPosRead v).mode = s.mode := rfl
@[simp] theorem State.setPosRead_pos : (s.setPosRead v).pos = s.pos := rfl
@[simp] theorem State.setPosRead_speed : (s.setPosRead v).speed = s.speed := rfl
@[simp] theorem State.setPosRead_ev : (s.setPosRead v).ev = s.ev := rfl
@[simp] theorem State.setPosRead_dirOut : (s.setPosRead v).dirOut = s.dirOut := rfl
@[simp] theorem State.setPosRead_stepOut : (s.setPosRead v).stepOut = s.stepOut := rfl
@[simp] theorem State.setPosRead_zrec : (s.setPosRead v).zrec = s.zrec := rfl
@[simp] theorem State.setPosRead_log : (s.setPosRead v).log = s.log := rfl
@[simp] theorem State.setPosRead_syn : (s.setPosRead v).syn = s.syn := rfl
@[simp] theorem State.setPosRead_fault : (s.setPosRead v).fault = s.fault := rfl
@[simp] theorem State.setPosRead_estopN : (s.setPosRead v).estopN = s.estopN := rfl
@[simp] theorem State.setPosRead_button : (s.setPosRead v).button = s.button := rfl
@[simp] theorem State.setPosRead_tick : (s.setPosRead v).tick = s.tick := rfl
@[simp] theorem State.setPosRead_vel : (s.setPosRead v).vel = s.vel := rfl
@[simp] theorem State.setPosRead_tickTodo : (s.setPosRead v).tickTodo = s.tickTodo := rfl
@[simp] theorem State.setPosRead_timer : (s.setPosRead v).timer = s.timer := rfl
@[simp] theorem State.setPosRead_src : (s.setPosRead v).src = s.src := rfl
@[simp] theorem State.setPosRead_srcPos : (s.setPosRead v).srcPos = s.srcPos := rfl
@[simp] theorem State.setPosRead_raw : (s.setPosRead v).raw = s.raw := rfl
@[simp] theorem State.setPosRead_zero : (s.setPosRead v).zero = s.zero := rfl
@[simp] theorem State.setPosRead_db : (s.setPosRead v).db = s.db := rfl
@[simp] theorem State.setPosRead_trace : (s.setPosRead v).trace = s.trace := rfl
@[simp] theorem State.setPosRead_posRead : (s.setPosRead v).posRead = v := rfl
@[simp] theorem State.setPosRead_inputs : (s.setPosRead v).inputs = s.inputs := rfl
@[simp] theorem State.setPosRead_moveCount : (s.setPosRead v).moveCount = s.moveCount := rfl
end SetPosRead

section SetInputs
variable (v : List Move)
@[simp] theorem State.setInputs_params : (s.setInputs v).params = s.params := rfl
@[simp] theorem State.setInputs_phase : (s.setInputs v).phase = s.phase := rfl
@[simp] theorem State.setInputs_mode : (s.setInputs v).mode = s.mode := rfl
@[simp] theorem State.setInputs_pos : (s.setInputs v).pos = s.pos := rfl
@[simp] theorem State.setInputs_speed : (s.setInputs v).speed = s.speed := rfl
@[simp] theorem State.setInputs_ev : (s.setInputs v).ev = s.ev := rfl
@[simp] theorem State.setInputs_dirOut : (s.setInputs v).dirOut = s.dirOut := rfl
@[simp] theorem State.setInputs_stepOut : (s.setInputs v).stepOut = s.stepOut := rfl
@[simp] theorem State.setInputs_zrec : (s.setInputs v).zrec = s.zrec := rfl
@[simp] theorem State.setInputs_log : (s.setInputs v).log = s.log := rfl
@[simp] theorem State.setInputs_syn : (s.setInputs v).syn = s.syn := rfl
@[simp] theorem State.setInputs_fault : (s.setInputs v).fault = s.fault := rfl
@[simp] theorem State.setInputs_estopN : (s.setInputs v).estopN = s.estopN := rfl
@[simp] theorem State.setInputs_button : (s.setInputs v).button = s.button := rfl
@[simp] theorem State.setInputs_tick : (s.setInputs v).tick = s.tick := rfl
@[simp] theorem State.setInputs_vel : (s.setInputs v).vel = s.vel := rfl
@[simp] theorem State.setInputs_tickTodo : (s.setInputs v).tickTodo = s.tickTodo := rfl
@[simp] theorem State.setInputs_timer : (s.setInputs v).timer = s.timer := rfl
@[simp] theorem State.setInputs_src : (s.setInputs v).src = s.src := rfl
@[simp] theorem State.setInputs_srcPos : (s.setInputs v).srcPos = s.srcPos := rfl
@[simp] theorem State.setInputs_raw : (s.setInputs v).raw = s.raw := rfl
@[simp] theorem State.setInputs_zero : (s.setInputs v).zero = s.zero := rfl
@[simp] theorem State.setInputs_db : (s.setInputs v).db = s.db := rfl
@[simp] theorem State.setInputs_trace : (s.setInputs v).trace = s.trace := rfl
@[simp] theorem State.setInputs_posRead : (s.setInputs v).posRead = s.posRead := rfl
@[simp] theorem State.setInputs_inputs : (s.setInputs v).inputs = v := rfl
@[simp] theorem State.setInputs_moveCount : (s.setInputs v).moveCount = s.moveCount := rfl
end SetInputs

section SetMoveCount
variable (v : Nat)
@[simp] theorem State.setMoveCount_params : (s.setMoveCount v).params = s.params := rfl
@[simp] theorem State.setMoveCount_phase : (s.setMoveCount v).phase = s.phase := rfl
@[simp] theorem State.setMoveCount_mode : (s.setMoveCount v).mode = s.mode := rfl
@[simp] theorem State.setMoveCount_pos : (s.setMoveCount v).pos = s.pos := rfl
@[simp] theorem State.setMoveCount_speed : (s.setMoveCount v).speed = s.speed := rfl
@[simp] theorem State.setMoveCount_ev : (s.setMoveCount v).ev = s.ev := rfl
@[simp] theorem State.setMoveCount_dirOut : (s.setMoveCount v).dirOut = s.dirOut := rfl
@[simp] theorem State.setMoveCount_stepOut : (s.setMoveCount v).stepOut = s.stepOut := rfl
@[simp] theorem State.setMoveCount_zrec : (s.setMoveCount v).zrec = s.zrec := rfl
@[simp] theorem State.setMoveCount_log : (s.setMoveCount v).log = s.log := rfl
@[simp] theorem State.setMoveCount_syn : (s.setMoveCount v).syn = s.syn := rfl
@[simp] theorem State.setMoveCount_fault : (s.setMoveCount v).fault = s.fault := rfl
@[simp] theorem State.setMoveCount_estopN : (s.setMoveCount v).estopN = s.estopN := rfl
@[simp] theorem State.setMoveCount_button : (s.setMoveCount v).button = s.button := rfl
@[simp] theorem State.setMoveCount_tick : (s.setMoveCount v).tick = s.tick := rfl
@[simp] theorem State.setMoveCount_vel : (s.setMoveCount v).vel = s.vel := rfl
@[simp] theorem State.setMoveCount_tickTodo : (s.setMoveCount v).tickTodo = s.tickTodo := rfl
@[simp] theorem State.setMoveCount_timer : (s.setMoveCount v).timer = s.timer := rfl
@[simp] theorem State.setMoveCount_src : (s.setMoveCount v).src = s.src := rfl
@[simp] theorem State.setMoveCount_srcPos : (s.setMoveCount v).srcPos = s.srcPos := rfl
@[simp] theorem State.setMoveCount_raw : (s.setMoveCount v).raw = s.raw := rfl
@[simp] theorem State.setMoveCount_zero : (s.setMoveCount v).zero = s.zero := rfl
@[simp] theorem State.setMoveCount_db : (s.setMoveCount v).db = s.db := rfl
@[simp] theorem State.setMoveCount_trace : (s.setMoveCount v).trace = s.trace := rfl
@[simp] theorem State.setMoveCount_posRead : (s.setMoveCount v).posRead = s.posRead := rfl
@[simp] theorem State.setMoveCount_inputs : (s.setMoveCount v).inputs = s.inputs := rfl
@[simp] theorem State.setMoveCount_moveCount : (s.setMoveCount v).moveCount = v := rfl
end SetMoveCount

@[simp] theorem writeDir_params (v : Lines) : (writeDir v s).params = s.params := rfl
@[simp] theorem writeDir_phase (v : Lines) : (writeDir v s).phase = s.phase := rfl
@[simp] theorem writeDir_mode (v : Lines) : (writeDir v s).mode = s.mode := rfl
@[simp] theorem writeDir_pos (v : Lines) : (writeDir v s).pos = s.pos := rfl
@[simp] theorem writeDir_speed (v : Lines) : (writeDir v s).speed = s.speed := rfl
@[simp] theorem writeDir_ev (v : Lines) : (writeDir v s).ev = s.ev := rfl
@[simp] theorem writeDir_dirOut (v : Lines) : (writeDir v s).dirOut = v := rfl
@[simp] theorem writeDir_stepOut (v : Lines) : (writeDir v s).stepOut = s.stepOut := rfl
@[simp] theorem writeDir_zrec (v : Lines) : (writeDir v s).zrec = s.zrec := rfl
@[simp] theorem writeDir_log (v : Lines) : (writeDir v s).log = s.log := rfl
@[simp] theorem writeDir_syn (v : Lines) : (writeDir v s).syn = s.syn := rfl
@[simp] theorem writeDir_fault (v : Lines) : (writeDir v s).fault = s.fault := rfl
@[simp] theorem writeDir_estopN (v : Lines) : (writeDir v s).estopN = s.estopN := rfl
@[simp] theorem writeDir_button (v : Lines) : (writeDir v s).button = s.button := rfl
@[simp] theorem writeDir_tick (v : Lines) : (writeDir v s).tick = s.tick := rfl
@[simp] theorem writeDir_vel (v : Lines) : (writeDir v s).vel = s.vel := rfl
@[simp] theorem writeDir_tickTodo (v : Lines) : (writeDir v s).tickTodo = s.tickTodo := rfl
@[simp] theorem writeDir_timer (v : Lines) : (writeDir v s).timer = s.timer := rfl
@[simp] theorem writeDir_src (v : Lines) : (writeDir v s).src = s.src := rfl
@[simp] theorem writeDir_srcPos (v : Lines) : (writeDir v s).srcPos = s.srcPos := rfl
@[simp] theorem writeDir_raw (v : Lines) : (writeDir v s).raw = s.raw := rfl
@[simp] theorem writeDir_zero (v : Lines) : (writeDir v s).zero = s.zero := rfl
@[simp] theorem writeDir_db (v : Lines) : (writeDir v s).db = s.db := rfl
@[simp] theorem writeDir_trace (v : Lines) : (writeDir v s).trace = s.trace ++ [.dir v] := rfl
@[simp] theorem writeDir_posRead (v : Lines) : (writeDir v s).posRead = s.posRead := rfl
@[simp] theorem writeDir_inputs (v : Lines) : (writeDir v s).inputs = s.inputs := rfl
@[simp] theorem writeDir_moveCount (v : Lines) : (writeDir v s).moveCount = s.moveCount := rfl

@[simp] theorem writeStep_params (v : Lines) : (writeStep v s).params = s.params := rfl
@[simp] theorem writeStep_phase (v : Lines) : (writeStep v s).phase = s.phase := rfl
@[simp] theorem writeStep_mode (v : Lines) : (writeStep v s).mode = s.mode := rfl
@[simp] theorem writeStep_pos (v : Lines) : (writeStep v s).pos = s.pos := rfl
@[simp] theorem writeStep_speed (v : Lines) : (writeStep v s).speed = s.speed := rfl
@[simp] theorem writeStep_ev (v : Lines) : (writeStep v s).ev = s.ev := rfl
@[simp] theorem writeStep_dirOut (v : Lines) : (writeStep v s).dirOut = s.dirOut := rfl
@[simp] theorem writeStep_stepOut (v : Lines) : (writeStep v s).stepOut = v := rfl
@[simp] theorem writeStep_zrec (v : Lines) : (writeStep v s).zrec = s.zrec := rfl
@[simp] theorem writeStep_log (v : Lines) : (writeStep v s).log = s.log := rfl
@[simp] theorem writeStep_syn (v : Lines) : (writeStep v s).syn = s.syn := rfl
@[simp] theorem writeStep_fault (v : Lines) : (writeStep v s).fault = s.fault := rfl
@[simp] theorem writeStep_estopN (v : Lines) : (writeStep v s).estopN = s.estopN := rfl
@[simp] theorem writeStep_button (v : Lines) : (writeStep v s).button = s.button := rfl
@[simp] theorem writeStep_tick (v : Lines) : (writeStep v s).tick = s.tick := rfl
@[simp] theorem writeStep_vel (v : Lines) : (writeStep v s).vel = s.vel := rfl
@[simp] theorem writeStep_tickTodo (v : Lines) : (writeStep v s).tickTodo = s.tickTodo := rfl
@[simp] theorem writeStep_timer (v : Lines) : (writeStep v s).timer = s.timer := rfl
@[simp] theorem writeStep_src (v : Lines) : (writeStep v s).src = s.src := rfl
@[simp] theorem writeStep_srcPos (v : Lines) : (writeStep v s).srcPos = s.srcPos := rfl
@[simp] theorem writeStep_raw (v : Lines) : (writeStep v s).raw = s.raw := rfl
@[simp] theorem writeStep_zero (v : Lines) : (writeStep v s).zero = s.zero := rfl
@[simp] theorem writeStep_db (v : Lines) : (writeStep v s).db = s.db := rfl
@[simp] theorem writeStep_trace (v : Lines) : (writeStep v s).trace = s.trace ++ [.step v] := rfl
@[simp] theorem writeStep_posRead (v : Lines) : (writeStep v s).posRead = s.posRead := rfl
@[simp] theorem writeStep_inputs (v : Lines) : (writeStep v s).inputs = s.inputs := rfl
@[simp] theorem writeStep_moveCount (v : Lines) : (writeStep v s).moveCount = s.moveCount := rfl

@[simp] theorem logAppend_params (v : LogEvent) : (logAppend v s).params = s.params := rfl
@[simp] theorem logAppend_phase (v : LogEvent) : (logAppend v s).phase = s.phase := rfl
@[simp] theorem logAppend_mode (v : LogEvent) : (logAppend v s).mode = s.mode := rfl
@[simp] theorem logAppend_pos (v : LogEvent) : (logAppend v s).pos = s.pos := rfl
@[simp] theorem logAppend_speed (v : LogEvent) : (logAppend v s).speed = s.speed := rfl
@[simp] theorem logAppend_ev (v : LogEvent) : (logAppend v s).ev = s.ev := rfl
@[simp] theorem logAppend_dirOut (v : LogEvent) : (logAppend v s).dirOut = s.dirOut := rfl
@[simp] theorem logAppend_stepOut (v : LogEvent) : (logAppend v s).stepOut = s.stepOut := rfl
@[simp] theorem logAppend_zrec (v : LogEvent) : (logAppend v s).zrec = s.zrec := rfl
@[simp] theorem logAppend_log (v : LogEvent) : (logAppend v s).log = s.log.push v := rfl
@[simp] theorem logAppend_syn (v : LogEvent) : (logAppend v s).syn = s.syn := rfl
@[simp] theorem logAppend_fault (v : LogEvent) : (logAppend v s).fault = s.fault := rfl
@[simp] theorem logAppend_estopN (v : LogEvent) : (logAppend v s).estopN = s.estopN := rfl
@[simp] theorem logAppend_button (v : LogEvent) : (logAppend v s).button = s.button := rfl
@[simp] theorem logAppend_tick (v : LogEvent) : (logAppend v s).tick = s.tick := rfl
@[simp] theorem logAppend_vel (v : LogEvent) : (logAppend v s).vel = s.vel := rfl
@[simp] theorem logAppend_tickTodo (v : LogEvent) : (logAppend v s).tickTodo = s.tickTodo := rfl
@[simp] theorem logAppend_timer (v : LogEvent) : (logAppend v s).timer = s.timer := rfl
@[simp] theorem logAppend_src (v : LogEvent) : (logAppend v s).src = s.src := rfl
@[simp] theorem logAppend_srcPos (v : LogEvent) : (logAppend v s).srcPos = s.srcPos := rfl
@[simp] theorem logAppend_raw (v : LogEvent) : (logAppend v s).raw = s.raw := rfl
@[simp] theorem logAppend_zero (v : LogEvent) : (logAppend v s).zero = s.zero := rfl
@[simp] theorem logAppend_db (v : LogEvent) : (logAppend v s).db = s.db := rfl
@[simp] theorem logAppend_trace (v : LogEvent) : (logAppend v s).trace = s.trace ++ [.log v] := rfl
@[simp] theorem logAppend_posRead (v : LogEvent) : (logAppend v s).posRead = s.posRead := rfl
@[simp] theorem logAppend_inputs (v : LogEvent) : (logAppend v s).inputs = s.inputs := rfl
@[simp] theorem logAppend_moveCount (v : LogEvent) : (logAppend v s).moveCount = s.moveCount := rfl

@[simp] theorem spindleOff_params : (spindleOff s).params = s.params := rfl
@[simp] theorem spindleOff_phase : (spindleOff s).phase = s.phase := rfl
@[simp] theorem spindleOff_mode : (spindleOff s).mode = s.mode := rfl
@[simp] theorem spindleOff_pos : (spindleOff s).pos = s.pos := rfl
@[simp] theorem spindleOff_speed : (spindleOff s).speed = s.speed := rfl
@[simp] theorem spindleOff_ev : (spindleOff s).ev = s.ev := rfl
@[simp] theorem spindleOff_dirOut : (spindleOff s).dirOut = s.dirOut := rfl
@[simp] theorem spindleOff_stepOut : (spindleOff s).stepOut = s.stepOut := rfl
@[simp] theorem spindleOff_zrec : (spindleOff s).zrec = s.zrec := rfl
@[simp] theorem spindleOff_log : (spindleOff s).log = s.log := rfl
@[simp] theorem spindleOff_syn : (spindleOff s).syn = s.syn := rfl
@[simp] theorem spindleOff_fault : (spindleOff s).fault = s.fault := rfl
@[simp] theorem spindleOff_estopN : (spindleOff s).estopN = s.estopN := rfl
@[simp] theorem spindleOff_button : (spindleOff s).button = s.button := rfl
@[simp] theorem spindleOff_tick : (spindleOff s).tick = s.tick := rfl
@[simp] theorem spindleOff_vel : (spindleOff s).vel = s.vel := rfl
@[simp] theorem spindleOff_tickTodo : (spindleOff s).tickTodo = s.tickTodo := rfl
@[simp] theorem spindleOff_timer : (spindleOff s).timer = s.timer := rfl
@[simp] theorem spindleOff_src : (spindleOff s).src = s.src := rfl
@[simp] theorem spindleOff_srcPos : (spindleOff s).srcPos = s.srcPos := rfl
@[simp] theorem spindleOff_raw : (spindleOff s).raw = s.raw := rfl
@[simp] theorem spindleOff_zero : (spindleOff s).zero = s.zero := rfl
@[simp] theorem spindleOff_db : (spindleOff s).db = s.db := rfl
@[simp] theorem spindleOff_trace : (spindleOff s).trace = s.trace ++ [.spindleOff] := rfl
@[simp] theorem spindleOff_posRead : (spindleOff s).posRead = s.posRead := rfl
@[simp] theorem spindleOff_inputs : (spindleOff s).inputs = s.inputs := rfl
@[simp] theorem spindleOff_moveCount : (spindleOff s).moveCount = s.moveCount := rfl

@[simp] theorem timerClearCmp_params : (timerClearCmp s).params = s.params := rfl
@[simp] theorem timerClearCmp_phase : (timerClearCmp s).phase = s.phase := rfl
@[simp] theorem timerClearCmp_mode : (timerClearCmp s).mode = s.mode := rfl
@[simp] theorem timerClearCmp_pos : (timerClearCmp s).pos = s.pos := rfl
@[simp] theorem timerClearCmp_speed : (timerClearCmp s).speed = s.speed := rfl
@[simp] theorem timerClearCmp_ev : (timerClearCmp s).ev = s.ev := rfl
@[simp] theorem timerClearCmp_dirOut : (timerClearCmp s).dirOut = s.dirOut := rfl
@[simp] theorem timerClearCmp_stepOut : (timerClearCmp s).stepOut = s.stepOut := rfl
@[simp] theorem timerClearCmp_zrec : (timerClearCmp s).zrec = s.zrec := rfl
@[simp] theorem timerClearCmp_log : (timerClearCmp s).log = s.log := rfl
@[simp] theorem timerClearCmp_syn : (timerClearCmp s).syn = s.syn := rfl
@[simp] theorem timerClearCmp_fault : (timerClearCmp s).fault = s.fault := rfl
@[simp] theorem timerClearCmp_estopN : (timerClearCmp s).estopN = s.estopN := rfl
@[simp] theorem timerClearCmp_button : (timerClearCmp s).button = s.button := rfl
@[simp] theorem timerClearCmp_tick : (timerClearCmp s).tick = s.tick := rfl
@[simp] theorem timerClearCmp_vel : (timerClearCmp s).vel = s.vel := rfl
@[simp] theorem timerClearCmp_tickTodo : (timerClearCmp s).tickTodo = s.tickTodo := rfl
@[simp] theorem timerClearCmp_timer : (timerClearCmp s).timer = { s.timer with cmp := false } := rfl
@[simp] theorem timerClearCmp_src : (timerClearCmp s).src = s.src := rfl
@[simp] theorem timerClearCmp_srcPos : (timerClearCmp s).srcPos = s.srcPos := rfl
@[simp] theorem timerClearCmp_raw : (timerClearCmp s).raw = s.raw := rfl
@[simp] theorem timerClearCmp_zero : (timerClearCmp s).zero = s.zero := rfl
@[simp] theorem timerClearCmp_db : (timerClearCmp s).db = s.db := rfl
@[simp] theorem timerClearCmp_trace : (timerClearCmp s).trace = s.trace := rfl
@[simp] theorem timerClearCmp_posRead : (timerClearCmp s).posRead = s.posRead := rfl
@[simp] theorem timerClearCmp_inputs : (timerClearCmp s).inputs = s.inputs := rfl
@[simp] theorem timerClearCmp_moveCount : (timerClearCmp s).moveCount = s.moveCount := rfl

@[simp] theorem timerClearEnd_params : (timerClearEnd s).params = s.params := rfl
@[simp] theorem timerClearEnd_phase : (timerClearEnd s).phase = s.phase := rfl
@[simp] theorem timerClearEnd_mode : (timerClearEnd s).mode = s.mode := rfl
@[simp] theorem timerClearEnd_pos : (timerClearEnd s).pos = s.pos := rfl
@[simp] theorem timerClearEnd_speed : (timerClearEnd s).speed = s.speed := rfl
@[simp] theorem timerClearEnd_ev : (timerClearEnd s).ev = s.ev := rfl
@[simp] theorem timerClearEnd_dirOut : (timerClearEnd s).dirOut = s.dirOut := rfl
@[simp] theorem timerClearEnd_stepOut : (timerClearEnd s).stepOut = s.stepOut := rfl
@[simp] theorem timerClearEnd_zrec : (timerClearEnd s).zrec = s.zrec := rfl
@[simp] theorem timerClearEnd_log : (timerClearEnd s).log = s.log := rfl
@[simp] theorem timerClearEnd_syn : (timerClearEnd s).syn = s.syn := rfl
@[simp] theorem timerClearEnd_fault : (timerClearEnd s).fault = s.fault := rfl
@[simp] theorem timerClearEnd_estopN : (timerClearEnd s).estopN = s.estopN := rfl
@[simp] theorem timerClearEnd_button : (timerClearEnd s).button = s.button := rfl
@[simp] theorem timerClearEnd_tick : (timerClearEnd s).tick = s.tick := rfl
@[simp] theorem timerClearEnd_vel : (timerClearEnd s).vel = s.vel := rfl
@[simp] theorem timerClearEnd_tickTodo : (timerClearEnd s).tickTodo = s.tickTodo := rfl
@[simp] theorem timerClearEnd_timer : (timerClearEnd s).timer = { s.timer with elapsed := false } := rfl
@[simp] theorem timerClearEnd_src : (timerClearEnd s).src = s.src := rfl
@[simp] theorem timerClearEnd_srcPos : (timerClearEnd s).srcPos = s.srcPos := rfl
@[simp] theorem timerClearEnd_raw : (timerClearEnd s).raw = s.raw := rfl
@[simp] theorem timerClearEnd_zero : (timerClearEnd s).zero = s.zero := rfl
@[simp] theorem timerClearEnd_db : (timerClearEnd s).db = s.db := rfl
@[simp] theorem timerClearEnd_trace : (timerClearEnd s).trace = s.trace := rfl
@[simp] theorem timerClearEnd_posRead : (timerClearEnd s).posRead = s.posRead := rfl
@[simp] theorem timerClearEnd_inputs : (timerClearEnd s).inputs = s.inputs := rfl
@[simp] theorem timerClearEnd_moveCount : (timerClearEnd s).moveCount = s.moveCount := rfl

@[simp] theorem raiseFault_params (v : FaultReason) : (raiseFault v s).params = s.params := rfl
@[simp] theorem raiseFault_phase (v : FaultReason) : (raiseFault v s).phase = s.phase := rfl
@[simp] theorem raiseFault_mode (v : FaultReason) : (raiseFault v s).mode = s.mode := rfl
@[simp] theorem raiseFault_pos (v : FaultReason) : (raiseFault v s).pos = s.pos := rfl
@[simp] theorem raiseFault_speed (v : FaultReason) : (raiseFault v s).speed = s.speed := rfl
@[simp] theorem raiseFault_ev (v : FaultReason) : (raiseFault v s).ev = s.ev := rfl
@[simp] theorem raiseFault_dirOut (v : FaultReason) : (raiseFault v s).dirOut = s.dirOut := rfl
@[simp] theorem raiseFault_stepOut (v : FaultReason) : (raiseFault v s).stepOut = s.stepOut := rfl
@[simp] theorem raiseFault_zrec (v : FaultReason) : (raiseFault v s).zrec = s.zrec := rfl
@[simp] theorem raiseFault_log (v : FaultReason) : (raiseFault v s).log = s.log := rfl
@[simp] theorem raiseFault_syn (v : FaultReason) : (raiseFault v s).syn = s.syn := rfl
@[simp] theorem raiseFault_fault (v : FaultReason) : (raiseFault v s).fault = (match s.fault with | none => some v | some r => some r) := rfl
@[simp] theorem raiseFault_estopN (v : FaultReason) : (raiseFault v s).estopN = s.estopN := rfl
@[simp] theorem raiseFault_button (v : FaultReason) : (raiseFault v s).button = s.button := rfl
@[simp] theorem raiseFault_tick (v : FaultReason) : (raiseFault v s).tick = s.tick := rfl
@[simp] theorem raiseFault_vel (v : FaultReason) : (raiseFault v s).vel = s.vel := rfl
@[simp] theorem raiseFault_tickTodo (v : FaultReason) : (raiseFault v s).tickTodo = s.tickTodo := rfl
@[simp] theorem raiseFault_timer (v : FaultReason) : (raiseFault v s).timer = s.timer := rfl
@[simp] theorem raiseFault_src (v : FaultReason) : (raiseFault v s).src = s.src := rfl
@[simp] theorem raiseFault_srcPos (v : FaultReason) : (raiseFault v s).srcPos = s.srcPos := rfl
@[simp] theorem raiseFault_raw (v : FaultReason) : (raiseFault v s).raw = s.raw := rfl
@[simp] theorem raiseFault_zero (v : FaultReason) : (raiseFault v s).zero = s.zero := rfl
@[simp] theorem raiseFault_db (v : FaultReason) : (raiseFault v s).db = s.db := rfl
@[simp] theorem raiseFault_trace (v : FaultReason) : (raiseFault v s).trace = s.trace := rfl
@[simp] theorem raiseFault_posRead (v : FaultReason) : (raiseFault v s).posRead = s.posRead := rfl
@[simp] theorem raiseFault_inputs (v : FaultReason) : (raiseFault v s).inputs = s.inputs := rfl
@[simp] theorem raiseFault_moveCount (v : FaultReason) : (raiseFault v s).moveCount = s.moveCount := rfl

end Sys2Proof.Machine
end

