-- ==== Sys2Proof/Laws/Executor.lean ====
section
/-! SUPPORT. What each shared operation of the Step Executor, the program source and the timer can
answer, said once. -/

namespace Sys2Proof.Machine

/-- `TimerArm` raises `F_ARM_BUSY` on a busy timer and arms a ready one. -/
theorem timerArm_cases (d : Nat) (s : State) :
    (timerBusy s.timer = true ∧ timerArm d s = .error (raiseFault .armBusy s))
      ∨ (timerBusy s.timer = false ∧ timerArm d s
          = .ok ((s.setTimer { s.timer with state := .run, dur := d }).emit (.arm d))) := by
  unfold timerArm
  cases h : timerBusy s.timer <;> simp

/-- A ready timer is stopped with both conditions clear. -/
theorem timerBusy_eq_false {t : Timer} :
    timerBusy t = false ↔ t.state = .stopped ∧ t.cmp = false ∧ t.elapsed = false := by
  simp [timerBusy, and_assoc]

/-- The state after a started pulse: timer armed, then direction lines written
(41_step_executor.md R180). -/
def startedState (ev : StepEvent) (d : Nat) (s : State) : State :=
  writeDir (dirLevels s.params ev.dir)
    ((s.setTimer { s.timer with state := .run, dur := d }).emit (.arm d))

/-- Everything `StartStep` can answer. -/
theorem startStep_cases (ev : StepEvent) (mode : Mode) (s : State) :
    (ev.dur = 0 ∧ startStep ev mode s = .ok (⟨false, 0, popcount ev.step⟩, s))
      ∨ (0 < ev.dur ∧ s.params.timerMax < armedDur s.params mode ev.dur (popcount ev.step).val
          ∧ startStep ev mode s = .error (raiseFault .timerRange s))
      ∨ (0 < ev.dur ∧ armedDur s.params mode ev.dur (popcount ev.step).val ≤ s.params.timerMax
          ∧ timerBusy s.timer = true ∧ startStep ev mode s = .error (raiseFault .armBusy s))
      ∨ (0 < ev.dur ∧ armedDur s.params mode ev.dur (popcount ev.step).val ≤ s.params.timerMax
          ∧ timerBusy s.timer = false
          ∧ startStep ev mode s
              = .ok (⟨true, armedDur s.params mode ev.dur (popcount ev.step).val,
                  popcount ev.step⟩,
                startedState ev (armedDur s.params mode ev.dur (popcount ev.step).val) s)) := by
  unfold startStep
  by_cases h0 : ev.dur = 0
  · exact .inl ⟨h0, by simp [h0]⟩
  · have hpos : 0 < ev.dur := Nat.pos_of_ne_zero h0
    by_cases h1 : s.params.timerMax < armedDur s.params mode ev.dur (popcount ev.step).val
    · exact .inr (.inl ⟨hpos, h1, by simp [h0, h1]⟩)
    · have h1' := Nat.le_of_not_lt h1
      rcases timerArm_cases (armedDur s.params mode ev.dur (popcount ev.step).val) s with
        ⟨hb, he⟩ | ⟨hb, he⟩
      · exact .inr (.inr (.inl ⟨hpos, h1', hb, by simp [h0, h1, he]⟩))
      · refine .inr (.inr (.inr ⟨hpos, h1', hb, ?_⟩))
        simp [h0, h1, he, startedState]

/-- The state after an ARM sub-step that started a pulse (42_pulse_scheduler.md R206). -/
def armedState (ev : StepEvent) (s : State) : State :=
  let d := armedDur s.params s.mode ev.dur (popcount ev.step).val
  ((startedState ev d (s.setZrec false)).setEv
    ⟨d, ev.step, ev.dir, popcount ev.step⟩).setPhase .waitCmp

/-- The state after an ARM sub-step without motion (42_pulse_scheduler.md R207). -/
def idledState (zrec : Bool) (s : State) : State :=
  (((s.setZrec zrec).setSpeed ⟨0, 0⟩).setPhase .gate)

/-- Everything an ARM sub-step does with an event. -/
theorem armEvent_cases (ev : StepEvent) (consumed : Bool) (s : State) :
    (ev.dur = 0 ∧ armEvent ev consumed s = idledState consumed s)
      ∨ (0 < ev.dur
          ∧ s.params.timerMax < armedDur s.params s.mode ev.dur (popcount ev.step).val
          ∧ armEvent ev consumed s = raiseFault .timerRange (s.setZrec false))
      ∨ (0 < ev.dur
          ∧ armedDur s.params s.mode ev.dur (popcount ev.step).val ≤ s.params.timerMax
          ∧ timerBusy s.timer = true
          ∧ armEvent ev consumed s = raiseFault .armBusy (s.setZrec false))
      ∨ (0 < ev.dur
          ∧ armedDur s.params s.mode ev.dur (popcount ev.step).val ≤ s.params.timerMax
          ∧ timerBusy s.timer = false ∧ armEvent ev consumed s = armedState ev s) := by
  rcases startStep_cases ev s.mode (s.setZrec (zrecFlag ev consumed)) with
    ⟨h0, he⟩ | ⟨h0, h1, he⟩ | ⟨h0, h1, h2, he⟩ | ⟨h0, h1, h2, he⟩
  · refine .inl ⟨h0, ?_⟩
    have hz : zrecFlag ev consumed = consumed := by simp [zrecFlag, h0]
    rw [hz] at he
    simp only [armEvent, State.setZrec_mode, hz, he]
    simp [idledState]
  all_goals
    have hz : zrecFlag ev consumed = false := by simp [zrecFlag]; omega
    rw [hz] at he
    simp only [State.setZrec_params, State.setZrec_timer] at *
  · exact .inr (.inl ⟨h0, h1, by simp only [armEvent, State.setZrec_mode, hz, he]⟩)
  · exact .inr (.inr (.inl ⟨h0, h1, h2, by simp only [armEvent, State.setZrec_mode, hz, he]⟩))
  · refine .inr (.inr (.inr ⟨h0, h1, h2, ?_⟩))
    simp only [armEvent, State.setZrec_mode, hz, he]
    simp [armedState]

/-- `SrcRead(3)` answers the first three bytes and has consumed them, or answers "exhausted". -/
theorem srcRead_cases (s : State) :
    (∃ b0 b1 b2 rest, s.src = b0 :: b1 :: b2 :: rest
        ∧ srcRead s = some ((b0, b1, b2), (s.setSrc rest).setSrcPos (s.srcPos + 3)))
      ∨ (s.src.length < 3 ∧ srcRead s = none) := by
  unfold srcRead
  match h : s.src with
  | [] => exact .inr ⟨by simp, rfl⟩
  | [_] => exact .inr ⟨by simp, rfl⟩
  | [_, _] => exact .inr ⟨by simp, rfl⟩
  | b0 :: b1 :: b2 :: rest => exact .inl ⟨b0, b1, b2, rest, rfl, rfl⟩

/-- The fetch answers the record of the first three bytes, consumed, or nothing. -/
theorem fetchRecord_cases (s : State) :
    (∃ b0 b1 b2 rest, s.src = b0 :: b1 :: b2 :: rest
        ∧ fetchRecord s = some (decodeWord (recordWord b0 b1 b2),
            (s.setSrc rest).setSrcPos (s.srcPos + 3)))
      ∨ (s.src.length < 3 ∧ fetchRecord s = none) := by
  rcases srcRead_cases s with ⟨b0, b1, b2, rest, h, he⟩ | ⟨h, he⟩
  · exact .inl ⟨b0, b1, b2, rest, h, by simp [fetchRecord, he]⟩
  · exact .inr ⟨h, by simp [fetchRecord, he]⟩

/-- The fetch is the decoder at the front of the program source. -/
theorem fetchRecord_eq_decode (s : State) :
    fetchRecord s = match decode s.src with
      | .ok (i, rest) => some (i, (s.setSrc rest).setSrcPos (s.srcPos + 3))
      | .error _ => none := by
  unfold fetchRecord srcRead
  match h : s.src with
  | [] => rfl
  | [_] => rfl
  | [_, _] => rfl
  | b0 :: b1 :: b2 :: rest => rfl

/-- Every record's meaning is the ARM sub-step on the record's event. -/
theorem exec_eq (i : Instr) (s : State) : exec i s = .next (armEvent (recordEvent i) true s) := by
  cases i <;> rfl

/-- The minimum duration is at least 2 (41_step_executor.md R174). -/
theorem two_le_minDur (p : Params) (k : Nat) : 2 ≤ minDur p k := le_max_left _ _

theorem two_le_armedDur (p : Params) (mode : Mode) (dur k : Nat) : 2 ≤ armedDur p mode dur k := by
  unfold armedDur
  split
  · exact le_max_right _ _
  · exact (two_le_minDur p k).trans (le_max_right _ _)

end Sys2Proof.Machine
end

