-- ==== Sys2Proof/Laws/PerInstr.lean ====
section
/-! SUPPORT. What holds of every record as syntax, one lemma a constructor. -/

namespace Sys2Proof.Laws

/-- A record is encoded in three bytes with its reserved bits 0
(30_encoding.md R110, R116). -/
def EncodedShape.Statement (i : Instr) : Prop :=
  (encode i).length = 3 ∧ (encodeWord i).getLsbD 22 = false ∧ (encodeWord i).getLsbD 23 = false

/-- Every word put together from flags and a duration has its reserved bits 0. -/
theorem reserved_clear (s r : Lines) (d : BitVec 16) :
    (show BitVec 24 from flagsByte s r ++ d).getLsbD 22 = false
      ∧ (show BitVec 24 from flagsByte s r ++ d).getLsbD 23 = false := by
  obtain ⟨-, -, -, -, -, -, h6, h7⟩ := flagsByte_bits s r
  exact ⟨(word_bits _ _ _).trans h6, (word_bits _ _ _).trans h7⟩

theorem EncodedShape.nullRec (step dir : Lines) : EncodedShape.Statement (.nullRec step dir) :=
  ⟨rfl, reserved_clear step dir 0#16⟩

theorem EncodedShape.dwellRec (dur : BitVec 16) (dir : Lines) :
    EncodedShape.Statement (.dwellRec dur dir) :=
  ⟨rfl, reserved_clear 0#3 dir dur⟩

theorem EncodedShape.stepRec (dur : BitVec 16) (step dir : Lines) :
    EncodedShape.Statement (.stepRec dur step dir) :=
  ⟨rfl, reserved_clear step dir dur⟩

end Sys2Proof.Laws
end

