-- ==== Sys2Proof/Laws/Scheduler.lean ====
section
/-! SUPPORT. What each sub-step, host command and move can answer, said once. -/

namespace Sys2Proof.Machine

/-- Every ARM sub-step is `armEvent` on the event of the selected source, and always has a next
state. -/
theorem armStep_cases (s : State) :
    (s.mode = .runningProgram
        ∧ ∃ i s1, fetchRecord s = some (i, s1) ∧ armStep s = .next (armEvent (recordEvent i) true s1))
      ∨ (s.mode = .runningProgram ∧ fetchRecord s = none
        ∧ armStep s = .next (armEvent zeroEvent false s))
      ∨ (s.mode = .manualControl
        ∧ armStep s = .next (armEvent (synthEvent s.params s.tick s.vel) false
            (s.setSyn ⟨s.vel, s.tick⟩)))
      ∨ ((s.mode = .idle ∨ s.mode = .pausedProgram)
        ∧ armStep s = .next (armEvent zeroEvent false s)) := by
  unfold armStep
  cases hm : s.mode
  · exact .inr (.inr (.inr ⟨.inl rfl, rfl⟩))
  · cases hf : fetchRecord s with
    | none => exact .inr (.inl ⟨rfl, rfl, rfl⟩)
    | some r => exact .inl ⟨rfl, r.1, r.2, rfl, by simp [exec_eq]⟩
  · exact .inr (.inr (.inr ⟨.inr rfl, rfl⟩))
  · exact .inr (.inr (.inl ⟨rfl, rfl⟩))

/-- The running-program ARM sub-step in terms of `DecodeNext` (42_pulse_scheduler.md R206). -/
theorem armStep_running (s : State) (h : s.mode = .runningProgram) :
    armStep s = .next (armEvent (decodeNext s).1 (decodeNext s).2.1 (decodeNext s).2.2) := by
  unfold armStep decodeNext
  rw [h]
  cases hf : fetchRecord s with
  | none => rfl
  | some r => simp [exec_eq]

/-- Everything a GATE sub-step can do (42_pulse_scheduler.md R202 to R205). -/
theorem gateStep_cases (s : State) :
    (programEnds s = true ∧ estop s = true
        ∧ gateStep s
          = ((logAppend .programEnd (s.setMode .idle)).setZrec false).setPhase .gate)
      ∨ (programEnds s = true ∧ estop s = false
        ∧ gateStep s
          = ((logAppend .programEnd (s.setMode .idle)).setZrec false).setPhase .arm)
      ∨ (programEnds s = false ∧ s.mode = .runningProgram ∧ estop s = true
        ∧ gateStep s = (spindleOff ((s.setZrec false).setMode .pausedProgram)).setPhase .gate)
      ∨ (programEnds s = false ∧ ¬ (s.mode = .runningProgram ∧ estop s = true)
        ∧ (s.mode = .pausedProgram ∨ estop s = true)
        ∧ gateStep s = (s.setZrec false).setPhase .gate)
      ∨ (programEnds s = false ∧ s.mode ≠ .pausedProgram ∧ estop s = false
        ∧ gateStep s = (s.setZrec false).setPhase .arm) := by
  have hrun : programEnds s = true → s.mode = .runningProgram := by
    intro h; simp [programEnds] at h; exact h.1
  unfold gateStep gateProgramEnd
  cases hp : programEnds s <;> cases he : estop s <;> cases hm : s.mode <;>
    simp_all [gateEstop, gateSuspends, estop]

/-- The state after a compare-match (42_pulse_scheduler.md R210 to R213), register by register. -/
theorem fire_frame (s : State) :
    (fire s).params = s.params ∧ (fire s).phase = .waitEnd ∧ (fire s).mode = s.mode
      ∧ (fire s).pos = stepPos s.params.posBits s.ev s.pos
      ∧ (fire s).speed = ⟨s.ev.dur, s.ev.k⟩ ∧ (fire s).ev = s.ev
      ∧ (fire s).dirOut = dirLevels s.params s.ev.dir ∧ (fire s).stepOut = s.ev.step
      ∧ (fire s).zrec = s.zrec ∧ (fire s).syn = s.syn ∧ (fire s).fault = s.fault
      ∧ (fire s).estopN = s.estopN ∧ (fire s).button = s.button ∧ (fire s).tick = s.tick
      ∧ (fire s).vel = s.vel ∧ (fire s).tickTodo = s.tickTodo
      ∧ (fire s).timer = { s.timer with cmp := false } ∧ (fire s).src = s.src
      ∧ (fire s).srcPos = s.srcPos ∧ (fire s).raw = s.raw ∧ (fire s).zero = s.zero
      ∧ (fire s).db = s.db ∧ (fire s).inputs = s.inputs ∧ (fire s).moveCount = s.moveCount := by
  unfold fire movedNotice
  simp only
  split <;> simp

/-- The EventLog and TRACE after a compare-match (42_pulse_scheduler.md R213). -/
theorem fire_log (s : State) :
    (movedDue s.params.movedPolicy s.mode s.ev.k = true
        ∧ (fire s).log = s.log.push .moved
        ∧ (fire s).trace = s.trace ++ [.dir (dirLevels s.params s.ev.dir), .step s.ev.step,
            .log .moved])
      ∨ (movedDue s.params.movedPolicy s.mode s.ev.k = false ∧ (fire s).log = s.log
        ∧ (fire s).trace = s.trace ++ [.dir (dirLevels s.params s.ev.dir), .step s.ev.step]) := by
  unfold fire movedNotice
  cases h : movedDue s.params.movedPolicy s.mode s.ev.k <;> simp [h]

/-- Everything `CmdProgramStart` can answer (44_mode_and_events.md R271). -/
theorem cmdProgramStart_cases (s : State) :
    ((s.mode = .idle ∨ s.mode = .manualControl) ∧ estop s = false
        ∧ cmdProgramStart s = (true, logAppend .programStart (s.setMode .runningProgram)))
      ∨ (¬ ((s.mode = .idle ∨ s.mode = .manualControl) ∧ estop s = false)
        ∧ cmdProgramStart s = (false, s)) := by
  unfold cmdProgramStart
  by_cases h : (s.mode = .idle ∨ s.mode = .manualControl) ∧ estop s = false
  · exact .inl ⟨h.1, h.2, by rw [if_pos h]⟩
  · exact .inr ⟨h, by rw [if_neg h]⟩

/-- Everything `CmdResume` can answer (44_mode_and_events.md R272). -/
theorem cmdResume_cases (s : State) :
    (s.mode = .pausedProgram ∧ estop s = false ∧ cmdResume s = (true, s.setMode .runningProgram))
      ∨ (¬ (s.mode = .pausedProgram ∧ estop s = false) ∧ cmdResume s = (false, s)) := by
  unfold cmdResume
  by_cases h : s.mode = .pausedProgram ∧ estop s = false
  · exact .inl ⟨h.1, h.2, by rw [if_pos h]⟩
  · exact .inr ⟨h, by rw [if_neg h]⟩

/-- Everything `ToggleManual` can answer (44_mode_and_events.md R273). -/
theorem toggleManual_cases (s : State) :
    (s.mode = .idle ∧ toggleManual s
        = (true, logAppend .enterManual ((s.setZero s.raw).setMode .manualControl)))
      ∨ (s.mode = .manualControl
        ∧ toggleManual s = (true, logAppend .exitManual (s.setMode .idle)))
      ∨ ((s.mode = .runningProgram ∨ s.mode = .pausedProgram) ∧ toggleManual s = (false, s)) := by
  unfold toggleManual
  cases h : s.mode <;> simp

/-- Everything a debouncer sample can do (45_collaborators.md R312 to R314). -/
theorem debounceSample_cases (b : Bool) (s : State) :
    ∃ d, d = debounceCount s.params.dbCap s.db b ∧
      ((d.count = s.params.dbCap ∧ d.state = false ∧ d.last = true
          ∧ debounceSample b s = (toggleManual (s.setDb d)).2.setDb { d with state := true })
        ∨ (d.count = s.params.dbCap ∧ ¬ (d.state = false ∧ d.last = true)
          ∧ debounceSample b s = s.setDb { d with state := d.last })
        ∨ (d.count ≠ s.params.dbCap ∧ debounceSample b s = s.setDb d)) := by
  refine ⟨_, rfl, ?_⟩
  unfold debounceSample
  generalize debounceCount s.params.dbCap s.db b = d
  by_cases hc : d.count = s.params.dbCap
  · by_cases hr : d.state = false ∧ d.last = true
    · exact .inl ⟨hc, hr.1, hr.2, by simp [hc, hr]⟩
    · refine .inr (.inl ⟨hc, hr, ?_⟩)
      simp only [hc, if_true, if_neg hr]
      rfl
  · exact .inr (.inr ⟨hc, by simp [hc]⟩)

/-- Everything the tick context's next move can be (60_exceptions.md R358). -/
theorem tickContext_cases (s : State) :
    (s.tickTodo = [] ∧ tickContext s = tickIncrement s)
      ∨ (∃ ds, s.tickTodo = .sample :: ds
        ∧ tickContext s = debounceSample s.button (s.setTickTodo ds))
      ∨ (∃ ds, s.tickTodo = .shape :: ds
        ∧ tickContext s = s.setTickTodo (velWrites (shape s.params s.raw s.zero) ++ ds))
      ∨ (∃ a v ds, s.tickTodo = .writeVel a v :: ds
        ∧ tickContext s = (s.setTickTodo ds).setVel (s.vel.set a v)) := by
  unfold tickContext
  match h : s.tickTodo with
  | [] => exact .inl ⟨rfl, rfl⟩
  | .sample :: ds => exact .inr (.inl ⟨ds, rfl, rfl⟩)
  | .shape :: ds => exact .inr (.inr (.inl ⟨ds, rfl, rfl⟩))
  | .writeVel a v :: ds => exact .inr (.inr (.inr ⟨a, v, ds, rfl, rfl⟩))

/-- Everything a poll can do (42_pulse_scheduler.md R200, R201). -/
theorem poll_cases (s : State) :
    (s.fault ≠ none ∧ poll s = .next s)
      ∨ (s.fault = none ∧ s.phase = .gate ∧ poll s = .next (gateStep s))
      ∨ (s.fault = none ∧ s.phase = .arm ∧ poll s = armStep s)
      ∨ (s.fault = none ∧ s.phase = .waitCmp ∧ s.timer.cmp = false ∧ poll s = .next s)
      ∨ (s.fault = none ∧ s.phase = .waitCmp ∧ s.timer.cmp = true ∧ poll s = .next (fire s))
      ∨ (s.fault = none ∧ s.phase = .waitEnd ∧ s.timer.elapsed = false ∧ poll s = .next s)
      ∨ (s.fault = none ∧ s.phase = .waitEnd ∧ s.timer.elapsed = true
        ∧ poll s = .next ((writeStep 0#3 (timerClearEnd s)).setPhase .gate)) := by
  unfold poll
  by_cases hf : s.fault = none
  · cases hp : s.phase <;> cases hc : s.timer.cmp <;> cases he : s.timer.elapsed <;>
      simp [hf, waitCmpStep, waitEndStep, hc, he]
  · exact .inl ⟨hf, by simp [hf]⟩

/-- Everything the next move can be, with the state it is taken from. -/
theorem nextMove_cases (s : State) :
    (∃ m ms, s.inputs = m :: ms ∧ nextMove s = (m, s.setInputs ms))
      ∨ (s.inputs = [] ∧ nextMove s = (Config.freeMove s.moveCount,
          s.setMoveCount (s.moveCount + 1))) := by
  unfold nextMove
  match h : s.inputs with
  | [] => exact .inr ⟨rfl, rfl⟩
  | m :: ms => exact .inl ⟨m, ms, rfl, rfl⟩

/-- A step that has a next state performs the next move of a machine whose parameters are not
refused. -/
theorem step_next {s t : State} (h : step s = .next t) :
    s.fault ≠ some .param ∧ perform (nextMove s).1 (nextMove s).2 = .next t := by
  unfold step at h
  split at h
  · cases h
  · next hf => exact ⟨hf, h⟩

/-- A listed move that comes next is what a step performs. -/
theorem step_listed {s : State} {m : Move} {ms : List Move} (hf : s.fault ≠ some .param)
    (hi : s.inputs = m :: ms) : step s = perform m (s.setInputs ms) := by
  unfold step nextMove
  rw [if_neg hf, hi]

/-- A property of states that does not look at the coming moves holds after a step if every move
keeps it. -/
theorem step_preserves (P : State → Prop)
    (hin : ∀ s ms, P s → P (s.setInputs ms)) (hcount : ∀ s n, P s → P (s.setMoveCount n))
    (hmove : ∀ m s t, s.fault ≠ some .param → P s → perform m s = .next t → P t)
    {s t : State} (hs : P s) (h : step s = .next t) : P t := by
  obtain ⟨hf, hp⟩ := step_next h
  rcases nextMove_cases s with ⟨m, ms, _, hn⟩ | ⟨_, hn⟩ <;> rw [hn] at hp
  · exact hmove m (s.setInputs ms) t hf (hin s ms hs) hp
  · exact hmove _ (s.setMoveCount (s.moveCount + 1)) t hf (hcount s _ hs) hp

end Sys2Proof.Machine
end

