-- ==== Sys2Proof/Tests/Slice0.lean ====
section
/-! SUPPORT. Tests: the smoke test of the well-formedness checks, words written out from
30_encoding.md R112, single steps with the results of 95_test_vectors.md (its vector in each
docstring), and for each statement with hypotheses a state and operands that meet them. -/

namespace Sys2Proof.Tests
open Sys2Proof.Machine

/-- The state a step gives, if it gives one. -/
def got (o : Host.Outcome State Fault Refusal) : Option State :=
  match o with
  | .next s => some s
  | .fault _ => none
  | .refused _ => none

/-- A machine after reset, put at a phase in a mode with bytes in its program source. -/
def start (phase : Phase) (mode : Mode) (src : List Byte) : State :=
  { State.reset with phase := phase, mode := mode, src := src }

/-- A machine whose compare-match is pending for an event. -/
def matched (dur : Nat) (step dir : Lines) (mode : Mode) : State :=
  { start .waitCmp mode [] with
    ev := ⟨dur, step, dir, popcount step⟩, dirOut := dir, timer := ⟨.cmpd, dur, true, false⟩ }

/-- A machine whose period has elapsed for an event. -/
def elapsed (dur : Nat) (step dir : Lines) : State :=
  { start .waitEnd .runningProgram [] with
    ev := ⟨dur, step, dir, popcount step⟩, dirOut := dir, stepOut := step
    timer := ⟨.stopped, dur, false, true⟩ }

/-- Exact velocities. -/
def velocities (x y z : Rat) : Axis3 Velocity := ⟨.exact x, .exact y, .exact z⟩

/-! ## Well-formedness: every check refuses a term -/

theorem test_wf_refuses_dwell_without_duration : (Instr.dwellRec 0#16 0b111#3).wf = false := by decide
theorem test_wf_refuses_step_without_duration :
    (Instr.stepRec 0#16 0b001#3 0#3).wf = false := by decide
theorem test_wf_refuses_step_without_flag :
    (Instr.stepRec 7#16 0b000#3 0b111#3).wf = false := by decide
theorem test_wf_accepts : (Instr.nullRec 0b111#3 0b111#3).wf = true ∧ (Instr.dwell 1#16).wf = true
    ∧ (Instr.stepRec 1#16 0b001#3 0b001#3).wf = true ∧ Instr.nop.wf = true := by decide

/-! ## Words written out from 30_encoding.md R112: byte 2 is `RSV ZD ZS YD YS XD XS` -/

/-- V1, V2, V3. -/
theorem test_decode_nullRec :
    decode [0x00#8, 0x00#8, 0b00000000#8] = .ok (.nullRec 0b000#3 0b000#3, [])
      ∧ decode [0x00#8, 0x00#8, 0b00111111#8] = .ok (.nullRec 0b111#3 0b111#3, [])
      ∧ decode [0x00#8, 0x00#8, 0b11000000#8] = .ok (.nullRec 0b000#3 0b000#3, [])
      ∧ decode [0x00#8, 0x00#8, 0b00010010#8] = .ok (.nullRec 0b100#3 0b001#3, []) := by decide

/-- V4, V5, V14: a direction bit alone is no step. -/
theorem test_decode_dwellRec :
    decode [0x01#8, 0x00#8, 0b00000000#8] = .ok (.dwellRec 1#16 0b000#3, [])
      ∧ decode [0x64#8, 0x00#8, 0b00101010#8] = .ok (.dwellRec 100#16 0b111#3, [])
      ∧ decode [0x05#8, 0x00#8, 0b00001000#8] = .ok (.dwellRec 5#16 0b010#3, [])
      ∧ decode [0x00#8, 0x01#8, 0b11000000#8] = .ok (.dwellRec 256#16 0b000#3, []) := by decide

/-- V6, V7, V9, V10, V13. -/
theorem test_decode_stepRec :
    decode [0x01#8, 0x00#8, 0b00000011#8] = .ok (.stepRec 1#16 0b001#3 0b001#3, [])
      ∧ decode [0x01#8, 0x00#8, 0b00000001#8] = .ok (.stepRec 1#16 0b001#3 0b000#3, [])
      ∧ decode [0x34#8, 0x12#8, 0b00110111#8] = .ok (.stepRec 4660#16 0b111#3 0b101#3, [])
      ∧ decode [0xF4#8, 0x01#8, 0b00010000#8] = .ok (.stepRec 500#16 0b100#3 0b000#3, [])
      ∧ decode [0x05#8, 0x00#8, 0b00000100#8] = .ok (.stepRec 5#16 0b010#3 0b000#3, []) := by decide

/-- V8, V11, V12: `RSV` makes no difference. -/
theorem test_decode_stepRec_more :
    decode [0x07#8, 0x00#8, 0b00001111#8] = .ok (.stepRec 7#16 0b011#3 0b011#3, [])
      ∧ decode [0xFF#8, 0xFF#8, 0b00010101#8] = .ok (.stepRec 65535#16 0b111#3 0b000#3, [])
      ∧ decode [0x01#8, 0x00#8, 0b11000011#8] = .ok (.stepRec 1#16 0b001#3 0b001#3, []) := by decide

/-- V15, V16: nothing of a short source is consumed. -/
theorem test_decode_stream :
    decode [0x01#8, 0x00#8, 0x03#8, 0x07#8] = .ok (.stepRec 1#16 0b001#3 0b001#3, [0x07#8])
      ∧ decode [0x07#8] = .error .short ∧ decode [0x07#8, 0x00#8] = .error .short
      ∧ decode [] = .error .exhausted := by decide

/-- The bytes of 30_encoding.md R122. -/
theorem test_encode :
    encode (.nullRec 0b011#3 0b011#3) = [0x00#8, 0x00#8, 0x0F#8]
      ∧ encode (.dwellRec 100#16 0b111#3) = [0x64#8, 0x00#8, 0x2A#8]
      ∧ encode (.stepRec 0x1234#16 0b111#3 0b101#3) = [0x34#8, 0x12#8, 0x37#8]
      ∧ encode (.stepRec 500#16 0b100#3 0b000#3) = [0xF4#8, 0x01#8, 0x10#8] := by decide

/-- Words numbered as the opcode table numbers them. -/
theorem test_decodeTableWord :
    decodeTableWord 24 0x030001 = some (.stepRec 1#16 0b001#3 0b001#3)
      ∧ decodeTableWord 24 0x2A0064 = some (.dwellRec 100#16 0b111#3)
      ∧ decodeTableWord 24 0x3F0000 = some (.nullRec 0b111#3 0b111#3)
      ∧ decodeTableWord 16 0x0007 = some (.dwellRec 7#16 0#3) := by decide

/-! ## The Step Executor -/

/-- V17, V19, V20. -/
theorem test_minDur :
    [0, 1, 2, 3].map (minDur .standard) = [7, 7, 9, 11]
      ∧ [0, 1, 2, 3].map (minDur { Params.standard with fClk := 1000, spm := 1000, vmax := 60000 })
        = [2, 2, 2, 2]
      ∧ [0, 1, 2, 3].map (minDur { Params.standard with fClk := 7000, spm := 60, vmax := 1000 })
        = [7, 7, 10, 13] := by decide +kernel

/-- V18, V21, V22. -/
theorem test_minDur_more :
    [0, 1, 2, 3].map (minDur { Params.standard with fClk := 1000000, spm := 100, vmax := 6000 })
        = [100, 100, 142, 174]
      ∧ [0, 1, 2, 3].map (minDur { Params.standard with vmax := 300 }) = [63, 63, 89, 109]
      ∧ [0, 1, 2, 3].map (minDur { Params.standard with fClk := 16000000, spm := 80, vmax := 1000 })
        = [12000, 12000, 16971, 20785] := by decide +kernel

/-- V23b, V23d, V23f, V23h, V23i. -/
theorem test_armedDur :
    armedDur .standard .runningProgram 7 2 = 9 ∧ armedDur .standard .runningProgram 10 3 = 11
      ∧ armedDur .standard .runningProgram 3 0 = 7 ∧ armedDur .standard .manualControl 1 1 = 2
      ∧ armedDur .standard .manualControl 5 2 = 5 := by decide +kernel

/-- V23k, V23l: the direction latch of all three axes. -/
theorem test_dirLevels :
    dirLevels { Params.standard with dirPol := ⟨1#1, 0#1, 1#1⟩ } 0b001#3 = 0b100#3
      ∧ dirLevels { Params.standard with dirPol := ⟨1#1, 1#1, 1#1⟩ } 0b000#3 = 0b111#3
      ∧ dirLevels { Params.standard with dirPol := ⟨1#1, 0#1, 0#1⟩ } 0b110#3 = 0b111#3 := by decide

/-! ## The records, one step each -/

/-- V25b: `NULL_REC` through the whole fetch. -/
theorem test_step_nullRec :
    (got (step (State.reset.withFetchWord 24 0x000000))).map
        (fun t => (t.zrec, t.speed, t.srcPos, t.phase, t.trace))
      = some (true, ⟨0, 0⟩, 3, .gate, []) := by decide

/-- V2: the flags of a `NULL_REC` move nothing. -/
theorem test_exec_nullRec :
    (got (exec (.nullRec 0b111#3 0b111#3) (start .arm .runningProgram []))).map
        (fun t => (t.timer.state, t.dirOut, t.stepOut, t.phase))
      = some (.stopped, 0b000#3, 0b000#3, .gate) := by decide

/-- V5, V23f: a dwell arms with geometry factor 1 and writes the direction lines. -/
theorem test_step_dwellRec :
    (got (step (State.reset.withFetchWord 24 0x2A0064))).map
        (fun t => (t.ev, t.dirOut, t.timer, t.phase, t.trace))
      = some (⟨100, 0b000#3, 0b111#3, 0⟩, 0b111#3, ⟨.run, 100, false, false⟩, .waitCmp,
        [.arm 100, .dir 0b111#3]) := by decide

/-- V23f: a short dwell is clamped. -/
theorem test_exec_dwellRec :
    (got (exec (.dwellRec 3#16 0b101#3) (start .arm .runningProgram []))).map
        (fun t => (t.ev, t.zrec, t.trace))
      = some (⟨7, 0b000#3, 0b101#3, 0⟩, false, [.arm 7, .dir 0b101#3]) := by decide

/-- V25a, W1: the §8 scenario. -/
theorem test_step_stepRec :
    (got (step (State.reset.withFetchWord 24 0x030001))).map
        (fun t => (t.ev, t.srcPos, t.zrec, t.phase, t.trace))
      = some (⟨7, 0b001#3, 0b001#3, 1⟩, 3, false, .waitCmp, [.arm 7, .dir 0b001#3]) := by decide

/-- V23d: three axes. -/
theorem test_exec_stepRec :
    (got (exec (.stepRec 10#16 0b111#3 0b000#3) (start .arm .runningProgram []))).map
        (fun t => (t.ev, t.dirOut, t.timer))
      = some (⟨11, 0b111#3, 0b000#3, 3⟩, 0b000#3, ⟨.run, 11, false, false⟩) := by decide

/-! ## The scheduler -/

/-- V24b, V24c, V24e: the end of a program, and its precedence over the e-stop. -/
theorem test_gate_end :
    (got (poll (start .gate .runningProgram []))).map (fun t => (t.mode, t.phase, t.trace))
        = some (.idle, .arm, [.log .programEnd])
      ∧ (got (poll (start .gate .runningProgram [1#8, 0#8]))).map (fun t => (t.mode, t.phase))
        = some (.idle, .arm)
      ∧ (got (poll { start .gate .runningProgram [] with estopN := false })).map
          (fun t => (t.mode, t.phase, t.trace))
        = some (.idle, .gate, [.log .programEnd]) := by decide

/-- V24d, V24g, V24j. -/
theorem test_gate_pause :
    (got (poll { start .gate .runningProgram [1#8, 0#8, 3#8] with estopN := false })).map
          (fun t => (t.mode, t.phase, t.trace))
        = some (.pausedProgram, .gate, [.spindleOff])
      ∧ (got (poll (start .gate .pausedProgram []))).map (fun t => (t.mode, t.phase, t.trace))
        = some (.pausedProgram, .gate, [])
      ∧ (got (poll { start .gate .runningProgram [1#8, 0#8, 3#8] with
            zrec := true, params := { Params.standard with zeroRecordEndsProgram := true } })).map
          (fun t => (t.mode, t.phase, t.zrec))
        = some (.idle, .arm, false) := by decide

/-- V25e, V25f: the manual source. -/
theorem test_arm_manual :
    (got (poll { start .arm .manualControl [] with vel := velocities 10 (-7) 0 })).map
          (fun t => (t.syn.tick, t.ev, t.phase, t.trace))
        = some (0, ⟨31, 0b001#3, 0b001#3, 1⟩, .waitCmp, [.arm 31, .dir 0b001#3])
      ∧ (got (poll { start .arm .manualControl [] with tick := 77 })).map
          (fun t => (t.syn.tick, t.phase, t.trace))
        = some (77, .gate, []) := by decide +kernel

/-- V33g: a duration beyond the timer's range. -/
theorem test_arm_fault :
    (got (poll { start .arm .manualControl [] with vel := velocities (mkRat 1 1000) 0 0 })).map
        (fun t => (t.fault, t.phase, t.trace, t.syn.vel.x))
      = some (some .timerRange, .arm, [], .exact (mkRat 1 1000)) := by decide +kernel

/-- V26b, V26c, V26d. -/
theorem test_fire :
    (got (poll (matched 7 0b001#3 0b001#3 .runningProgram))).map
          (fun t => (t.stepOut, t.pos, t.speed, t.timer.cmp, t.trace))
        = some (0b001#3, ⟨1, 0, 0⟩, ⟨7, 1⟩, false, [.dir 0b001#3, .step 0b001#3])
      ∧ (got (poll { matched 9 0b011#3 0b010#3 .runningProgram with pos := ⟨5, 5, 5⟩ })).map
          (fun t => (t.pos, t.speed))
        = some (⟨4, 6, 5⟩, ⟨9, 2⟩)
      ∧ (got (poll (matched 100 0b000#3 0b101#3 .runningProgram))).map
          (fun t => (t.pos, t.speed, t.stepOut))
        = some (⟨0, 0, 0⟩, ⟨100, 0⟩, 0b000#3) := by decide

/-- V26e, V26f, V26h: Position wraps; `Moved`. -/
theorem test_fire_wraps :
    (got (poll { matched 7 0b001#3 0b001#3 .idle with pos := ⟨2147483647, 0, 0⟩ })).map
          (fun t => t.pos.x)
        = some (-2147483648)
      ∧ (got (poll { matched 7 0b010#3 0b000#3 .idle with pos := ⟨0, -2147483648, 0⟩ })).map
          (fun t => t.pos.y)
        = some 2147483647
      ∧ (got (poll { matched 7 0b001#3 0b001#3 .idle with
            params := { Params.standard with movedPolicy := .everyStep } })).map (fun t => t.trace)
        = some [.dir 0b001#3, .step 0b001#3, .log .moved] := by decide

/-- V26k, V26l. -/
theorem test_waitEnd :
    (got (poll { elapsed 9 0b011#3 0b000#3 with timer := ⟨.cmpd, 9, false, false⟩ })).map
          (fun t => (t.stepOut, t.phase))
        = some (0b011#3, .waitEnd)
      ∧ (got (poll (elapsed 9 0b011#3 0b000#3))).map
          (fun t => (t.stepOut, t.phase, t.timer.elapsed, t.trace))
        = some (0b000#3, .gate, false, [.step 0b000#3]) := by decide

/-! ## Commands, ring, timer, tick -/

/-- V28c, V28f, V28h. -/
theorem test_commands :
    (cmdProgramStart (start .gate .manualControl [])).2.trace = [.log .programStart]
      ∧ ((cmdResume (start .gate .pausedProgram [])).1, (cmdResume (start .gate .pausedProgram [])).2.mode)
        = (true, .runningProgram)
      ∧ (toggleManual { start .gate .idle [] with raw := ⟨120#8, 130#8, 128#8⟩ }).2.zero
        = ⟨120#8, 130#8, 128#8⟩ := by decide

/-- V29, V30. -/
theorem test_ring :
    ([.programStart, .moved, .moved, .moved, .programEnd].foldl EventLog.push State.reset.log)
        = ⟨#v[.programEnd, .moved, .moved, .moved], 1⟩
      ∧ ([.programStart, .moved, .enterManual, .exitManual].foldl EventLog.push State.reset.log)
        = ⟨#v[.programStart, .moved, .enterManual, .exitManual], 0⟩ := by decide

/-- V31b, V31c, V31d. -/
theorem test_timer :
    (timerCompare { State.reset with timer := ⟨.run, 7, false, false⟩ }).timer
        = ⟨.cmpd, 7, true, false⟩
      ∧ (timerPeriod { State.reset with timer := ⟨.cmpd, 7, false, false⟩ }).timer
        = ⟨.stopped, 7, false, true⟩
      ∧ timerArm 7 { State.reset with timer := ⟨.stopped, 5, false, true⟩ }
        = .error { State.reset with
          timer := ⟨.stopped, 5, false, true⟩, fault := some .armBusy } := by decide +kernel

/-- V32a, V32b, V32c. -/
theorem test_tick :
    ((tickContext { State.reset with tick := 4294967295 }).tick,
        (tickContext { State.reset with tick := 4294967295 }).tickTodo)
        = (0, [.sample, .shape])
      ∧ (tickContext { State.reset with tick := 48 }).tickTodo = [.shape]
      ∧ (tickContext { State.reset with tick := 49 }).tickTodo = [.sample, .shape] := by decide

/-- V35a, V35b, V35d, V35e, V35f. -/
theorem test_debouncer :
    (debounceRun State.reset (List.replicate 49 true)).db = ⟨true, 49, false⟩
      ∧ (debounceRun State.reset (List.replicate 50 true)).mode = .manualControl
      ∧ (debounceRun State.reset (List.replicate 49 true ++ [false] ++ List.replicate 49 true)).db
        = ⟨true, 49, false⟩
      ∧ (debounceRun State.reset
          (List.replicate 50 true ++ List.replicate 50 false ++ List.replicate 50 true)).mode
        = .idle := by decide +kernel

/-! ## Synthesizer and shaper -/

/-- V27b, V27d, V27f, V27g. -/
theorem test_synthesizer :
    synthEvent .standard 31 (velocities 10 (-7) 0) = ⟨13, 0b010#3, 0b001#3⟩
      ∧ synthEvent .standard 0 (velocities 5 10 0) = ⟨31, 0b010#3, 0b011#3⟩
      ∧ synthEvent .standard 0 (velocities 10 5 (-10)) = ⟨31, 0b101#3, 0b011#3⟩
      ∧ synthEvent .standard 0 (velocities 400 0 0) = ⟨1, 0b001#3, 0b001#3⟩ := by decide +kernel

/-- V27i, V27m, V27n, V27h. -/
theorem test_synthesizer_more :
    synthEvent .standard 40 (velocities 10 (-5) 0) = ⟨22, 0b011#3, 0b001#3⟩
      ∧ synthEvent .standard 4294967295 (velocities 10 0 0) = ⟨28, 0b001#3, 0b001#3⟩
      ∧ synthEvent .standard 100 (velocities 10 (-7) 3) = ⟨4, 0b100#3, 0b101#3⟩
      ∧ synthEvent .standard 7 (velocities 0 0 0) = ⟨0, 0b000#3, 0b000#3⟩ := by decide +kernel

/-- The zero calibration of the shaper vectors. -/
def centre : Axis3 Byte := ⟨128#8, 128#8, 128#8⟩

/-- V34b, V34c, V34d, V34e, V34g: which components are kept. -/
theorem test_shaper :
    shape .standard ⟨128#8, 128#8, 200#8⟩ centre = ⟨.exact 0, .exact 0, .shaped 72 5184 5184⟩
      ∧ shape .standard ⟨200#8, 150#8, 128#8⟩ centre = ⟨.shaped 72 5668 5184, .exact 0, .exact 0⟩
      ∧ shape .standard ⟨200#8, 200#8, 190#8⟩ centre
        = ⟨.shaped 72 14212 10368, .shaped 72 14212 10368, .exact 0⟩
      ∧ shape .standard ⟨100#8, 170#8, 128#8⟩ centre = ⟨.exact 0, .shaped 42 2548 1764, .exact 0⟩
      ∧ shape .standard ⟨143#8, 128#8, 128#8⟩ centre = velocities 0 0 0 := by decide +kernel

/-- W6: the period of V34b's velocity is 86. -/
theorem test_shaper_period :
    synthEvent .standard 0 (shape .standard ⟨128#8, 128#8, 200#8⟩ centre)
      = ⟨86, 0b100#3, 0b100#3⟩ := by decide +kernel

/-- DZ = 1/4, feeds 90 and 720: a deflection of 64 on x has mag = 1/3, s = 3, v = 1/3 * 3 = 1; at
F_CLK = 200000 and SPM = 500 the quotient of its period is the whole number 400. -/
def exactFeeds : Params := { Params.standard with
  spm := 500, dz := .rational (mkRat 1 4), feedMin := .rational 90, feedMax := .rational 720 }

theorem test_period_of_exactFeeds : period exactFeeds (.shaped 64 4096 4096) = 400 := by
  have hv : velReal exactFeeds (.shaped 64 4096 4096) = 1 := by
    have h : Real.sqrt (4096 : ℕ) = 64 := by
      rw [show ((4096 : ℕ) : ℝ) = 64 ^ 2 by norm_num, Real.sqrt_sq (by norm_num)]
    have e : (12 : ℝ) ^ (1 / 3 : ℝ) * (3 / 2 : ℝ) ^ (2 / 3 : ℝ) = 3 := by
      rw [show (2 / 3 : ℝ) = 2 * (1 / 3) by norm_num, Real.rpow_mul (by norm_num),
        ← Real.mul_rpow (by norm_num) (by positivity),
        show (12 : ℝ) * (3 / 2 : ℝ) ^ (2 : ℝ) = 3 ^ (3 : ℝ) by norm_num,
        ← Real.rpow_mul (by norm_num)]
      norm_num
    simp only [velReal, realDeflection, realScalar, exactFeeds, RealNumber.value_rational, h,
      Rat.mkRat_eq_div]
    norm_num at e ⊢
    linarith
  rw [period_unsettled (r := ⟨mkRat 1 4, 90, 720⟩) rfl (by decide +kernel), hv]
  simp [realPeriod, exactFeeds, Params.standard]
  norm_num

/-- DZ = SNAP = 0 and both feeds 60: a deflection of (64, 32, 0) has s = 1 and v = 1/2 on x; at SPM = 625
the quotient is 640. -/
def exactDeflection : Params := { Params.standard with
  spm := 625, dz := .rational 0, snap := .rational 0, feedMin := .rational 60, feedMax := .rational 60 }

theorem test_period_of_exactDeflection : period exactDeflection (.shaped 64 5120 5120) = 640 := by
  have hv : velReal exactDeflection (.shaped 64 5120 5120) = 1 / 2 := by
    have h0 : 0 < Real.sqrt (5120 : ℕ) := by positivity
    have h1 : Real.sqrt (5120 : ℕ) / 128 ≤ 1 := by
      rw [div_le_one (by norm_num), Real.sqrt_le_left (by norm_num)]; norm_num
    simp only [velReal, realDeflection, realScalar, exactDeflection, RealNumber.value_rational,
      min_eq_right h1]
    field_simp
    norm_num
    ring
  rw [period_unsettled (r := ⟨0, 60, 60⟩) rfl (by decide +kernel), hv]
  simp [realPeriod, exactDeflection, Params.standard]
  norm_num

/-- V33h. -/
theorem test_refused_parameters :
    (State.boot { Boot.standard with params := { Params.standard with vmax := 0 } }).fault
        = some .param
      ∧ (State.boot { Boot.standard with params := { Params.standard with dz := .rational 1 } }).fault
        = some .param := by decide +kernel

/-- V23c, V23e, V23m, V23n: the limits of the clamp and of the timer. -/
theorem test_startStep :
    (startStep ⟨9, 0b011#3, 0b001#3⟩ .runningProgram State.reset).toOption.map (·.1)
        = some ⟨true, 9, 2⟩
      ∧ (startStep ⟨500, 0b100#3, 0b000#3⟩ .runningProgram State.reset).toOption.map (·.1)
        = some ⟨true, 500, 1⟩
      ∧ (startStep ⟨312500, 0b001#3, 0b001#3⟩ .manualControl State.reset).toOption = none
      ∧ (startStep ⟨65535, 0b001#3, 0b001#3⟩ .runningProgram State.reset).toOption.map (·.1)
        = some ⟨true, 65535, 1⟩ := by decide +kernel

/-! ## Witnesses: what meets the hypotheses of each statement that has some -/

/-- Parameters so slow that every minimum is beyond `TIMER_MAX`. -/
def slow : Params := { Params.standard with vmax := mkRat 1 4 }

/-- A machine at ARM in RunningProgram with a ready timer. -/
def atArm : State := start .arm .runningProgram []

theorem test_witness_DecodeInvertsEncode :
    (Instr.nullRec 0b101#3 0b010#3).wf = true ∧ (Instr.dwellRec 65535#16 0b111#3).wf = true
      ∧ (Instr.stepRec 1#16 0b100#3 0b011#3).wf = true := by decide

theorem test_witness_EveryTripleDecodesToItsClass :
    ((0x00#8).toNat + 256 * (0x00#8).toNat = 0)
      ∧ ((0x00#8).toNat + 256 * (0x01#8).toNat ≠ 0 ∧ (0x2A#8).getLsbD 0 = false
        ∧ (0x2A#8).getLsbD 2 = false ∧ (0x2A#8).getLsbD 4 = false)
      ∧ ((0x01#8).toNat + 256 * (0x00#8).toNat ≠ 0 ∧ (0x10#8).getLsbD 4 = true) := by decide

theorem test_witness_ReservedBitsAreIgnored :
    (0x030001#24).extractLsb' 0 22 = (0xC30001#24).extractLsb' 0 22
      ∧ (0x030001#24) ≠ 0xC30001#24 := by decide

theorem test_witness_SourceReadTakesThreeBytes :
    3 ≤ srcAvail (start .arm .runningProgram [1#8, 0#8, 3#8])
      ∧ srcAvail (start .arm .runningProgram [1#8, 0#8]) < 3 := by decide

theorem test_witness_ShortSourceGivesZeroEvent :
    srcAvail (start .arm .runningProgram []) < 3
      ∧ srcAvail (start .arm .runningProgram [1#8, 0#8]) < 3 := by decide

/-- The parameters of `State.reset` are valid: MinimumDurationIsExact,
ShaperComputesItsRealFormula, PeriodIsTheExactFloor, VelocityTestsAgreeWithTheReals. -/
theorem test_witness_validParameters : Params.standard.valid = true ∧ slow.valid = true := by
  decide +kernel

theorem test_witness_StartStepArmsTheClampedDuration :
    0 < (⟨65535, 0b001#3, 0b001#3⟩ : StepEvent).dur ∧ timerReady atArm
      ∧ max 65535 (minDur atArm.params 1) ≤ atArm.params.timerMax ∧ max 65535 2 ≤ 65535 :=
  ⟨by decide, by unfold timerReady; decide, by decide +kernel, by decide⟩

theorem test_witness_ArmedDurationHasItsLowerBound :
    (startStep ⟨1, 0b001#3, 0b001#3⟩ .runningProgram atArm).toOption.isSome = true
      ∧ (startStep ⟨1, 0b001#3, 0b001#3⟩ .manualControl atArm).toOption.isSome = true := by
  decide +kernel

theorem test_witness_TimerRangeFaultsBeforeSideEffects :
    atArm.fault = none
      ∧ atArm.params.timerMax < armedDur atArm.params .manualControl 65536 1
      ∧ slow.valid = true
      ∧ slow.timerMax < armedDur slow .runningProgram
          (recordEvent (.stepRec 1#16 0b001#3 0b001#3)).dur 1 := by decide +kernel

theorem test_witness_DwellRecordCompletes :
    (1#16 : BitVec 16) ≠ 0#16 ∧ timerReady atArm
      ∧ armedDur atArm.params atArm.mode (1#16).toNat 0 ≤ atArm.params.timerMax
      ∧ armedDur atArm.params atArm.mode (65535#16).toNat 0 ≤ atArm.params.timerMax :=
  ⟨by decide, by unfold timerReady; decide, by decide +kernel, by decide +kernel⟩

theorem test_witness_StepRecordCompletes :
    (1#16 : BitVec 16) ≠ 0#16 ∧ timerReady atArm
      ∧ armedDur atArm.params atArm.mode (1#16).toNat (popcount 0b001#3).val
        ≤ atArm.params.timerMax
      ∧ armedDur atArm.params atArm.mode (65535#16).toNat (popcount 0b111#3).val
        ≤ atArm.params.timerMax :=
  ⟨by decide, by unfold timerReady; decide, by decide +kernel, by decide +kernel⟩

theorem test_witness_TimedRecordFaultsAreRecorded :
    (recordEvent (.stepRec 1#16 0b001#3 0b001#3)).dur ≠ 0 ∧ atArm.fault = none
      ∧ slow.timerMax < armedDur slow .runningProgram 1 1
      ∧ armedDur .standard .runningProgram 1 1 ≤ Params.standard.timerMax
      ∧ ¬ timerReady { atArm with timer := ⟨.stopped, 5, false, true⟩ } :=
  ⟨by decide, by decide, by decide +kernel, by decide +kernel, by unfold timerReady; decide⟩

theorem test_witness_RecordsLeaveTheRestUnchanged :
    (got (exec (.stepRec 1#16 0b001#3 0b001#3) atArm)).isSome = true
      ∧ (got (exec (.nullRec 0b001#3 0b001#3) atArm)).isSome = true
      ∧ (got (exec (.dwellRec 1#16 0b001#3) atArm)).isSome = true := by decide

theorem test_witness_StepRunsTheDecodedRecord :
    let s := { start .arm .runningProgram [1#8, 0#8, 3#8, 9#8] with inputs := [.poll] }
    s.inputs = .poll :: [] ∧ s.fault = none ∧ s.phase = .arm ∧ s.mode = .runningProgram
      ∧ decode s.src = .ok (.stepRec 1#16 0b001#3 0b001#3, [9#8]) := by decide

theorem test_witness_RefusedParametersStopEveryAgent :
    { Params.standard with vmax := 0 }.valid = false
      ∧ { State.reset with fault := some .param }.fault = some .param := by decide +kernel

theorem test_witness_GateEndsAnExhaustedProgram :
    (start .gate .runningProgram []).fault = none
      ∧ srcAvail (start .gate .runningProgram [1#8, 0#8]) < 3
      ∧ (let s := { start .gate .runningProgram [1#8, 0#8, 3#8] with
            zrec := true, params := { Params.standard with zeroRecordEndsProgram := true } }
         s.params.zeroRecordEndsProgram = true ∧ s.zrec = true)
      ∧ (start .gate .pausedProgram []).mode ≠ .runningProgram
      ∧ 3 ≤ srcAvail (start .gate .runningProgram [1#8, 0#8, 3#8])
      ∧ (start .gate .runningProgram [1#8, 0#8, 3#8]).zrec = false := by decide

theorem test_witness_GatePausesOnEmergencyStop :
    let s := { start .gate .runningProgram [1#8, 0#8, 3#8] with estopN := false }
    s.fault = none ∧ s.phase = .gate ∧ s.mode = .runningProgram ∧ estop s = true
      ∧ 3 ≤ srcAvail s ∧ s.params.zeroRecordEndsProgram = false := by decide

/-- The first clause in Idle, in RunningProgram and in PausedProgram; the second with each outcome. -/
theorem test_witness_GatePassesOnlyWhenClear :
    (got (poll (start .gate .idle []))).map (·.phase) = some .arm
      ∧ (got (poll (start .gate .pausedProgram []))).map (·.phase) = some .gate
      ∧ (got (poll { start .gate .idle [] with estopN := false })).map (·.phase)
        = some .gate := by decide

theorem test_witness_ArmWithoutSourceReturnsToGate :
    (start .arm .idle []).mode = .idle ∧ (start .arm .pausedProgram []).mode = .pausedProgram
      ∧ srcAvail (start .arm .runningProgram [1#8, 0#8]) < 3
      ∧ (start .arm .idle []).fault = none := by decide

/-- Its three clauses: no velocity, a duration at the range's end, one beyond it. -/
theorem test_witness_ManualArmStartsTheSynthesizedEvent :
    (start .arm .manualControl []).fault = none ∧ timerReady (start .arm .manualControl [])
      ∧ (synthEvent .standard 0 (velocities 0 0 0)).dur = 0
      ∧ 0 < (synthEvent .standard 0 (velocities 400 0 0)).dur
      ∧ max (synthEvent .standard 0 (velocities 400 0 0)).dur 2 ≤ 65535
      ∧ 65535 < max (synthEvent .standard 0 (velocities (mkRat 1 1000) 0 0)).dur 2 :=
  ⟨by decide, by unfold timerReady; decide, by decide +kernel, by decide +kernel,
    by decide +kernel, by decide +kernel⟩

/-- Also of MovedFollowsItsPolicy and PositionChangesOnlyAtCompareMatch. -/
theorem test_witness_CompareMatchFiresTheEvent :
    let s := { matched 7 0b001#3 0b001#3 .manualControl with inputs := [.poll] }
    s.fault = none ∧ s.phase = .waitCmp ∧ s.timer.cmp = true
      ∧ (got (step s)).map (·.pos) = some ⟨1, 0, 0⟩ ∧ s.pos = ⟨0, 0, 0⟩ := by decide

theorem test_witness_WrapIsTheOneInRange :
    posFits 1 (-1) ∧ (-1 : Int) % 2 ^ 1 = 3 % 2 ^ 1 ∧ wrapN 32 2147483648 = -2147483648 := by
  unfold posFits; decide

theorem test_witness_EndOfPeriodReleasesTheLines :
    (elapsed 7 0b001#3 0b001#3).fault = none ∧ (elapsed 7 0b001#3 0b001#3).phase = .waitEnd
      ∧ (elapsed 7 0b001#3 0b001#3).timer.elapsed = true
      ∧ { elapsed 7 0b001#3 0b001#3 with timer := ⟨.cmpd, 7, false, false⟩ }.timer.elapsed
        = false := by decide

theorem test_witness_SuspensionHasNoTimeout :
    let s := { start .waitCmp .idle [] with inputs := [.poll, .poll, .timerCompare] }
    let u := { start .waitEnd .idle [] with inputs := [.poll, .poll, .timerCompare] }
    s.fault ≠ some .param ∧ s.inputs = List.replicate 2 .poll ++ [.timerCompare]
      ∧ (s.phase = .waitCmp ∧ s.timer.cmp = false)
      ∧ (u.phase = .waitEnd ∧ u.timer.elapsed = false) := by decide

theorem test_witness_FaultedSchedulerStandsStill :
    { State.reset with fault := some .timerRange }.fault ≠ none := by decide

theorem test_witness_EmergencyStopDoesNotAbortAPulse :
    (matched 7 0b001#3 0b001#3 .runningProgram).phase ≠ .gate := by decide

theorem test_witness_ModeChangeDoesNotAlterAPulse :
    inFlight (matched 7 0b001#3 0b001#3 .runningProgram)
      ∧ inFlight (elapsed 7 0b001#3 0b001#3)
      ∧ (got (poll (matched 7 0b001#3 0b001#3 .runningProgram))).isSome = true :=
  ⟨.inl rfl, .inr rfl, by decide⟩

/-- A launch with one record and the moves of its whole life. -/
def launched : State :=
  { start .gate .runningProgram (encode (.stepRec 1#16 0b011#3 0b001#3) ++ [9#8]) with
    inputs := [.poll, .poll, .timerCompare, .poll, .timerPeriod, .poll] }

theorem test_witness_TimedRecordRunsFromGateToGate :
    (Instr.stepRec 1#16 0b011#3 0b001#3).wf = true
      ∧ (recordEvent (.stepRec 1#16 0b011#3 0b001#3)).dur ≠ 0
      ∧ launched.inputs = [.poll, .poll, .timerCompare, .poll, .timerPeriod, .poll] ++ []
      ∧ launched.phase = .gate ∧ launched.mode = .runningProgram ∧ launched.fault = none
      ∧ timerReady launched ∧ estop launched = false ∧ launched.stepOut = 0#3
      ∧ launched.params.zeroRecordEndsProgram = false
      ∧ launched.src = encode (.stepRec 1#16 0b011#3 0b001#3) ++ [9#8]
      ∧ max 1 (minDur launched.params 2) ≤ launched.params.timerMax :=
  ⟨by decide, by decide, rfl, rfl, rfl, rfl, by unfold timerReady; decide, by decide, rfl, rfl, rfl,
    by decide +kernel⟩

/-- The mode after one move, each of the six transitions. -/
noncomputable def modeAfter (s : State) (m : Move) : Option Mode :=
  (got (step { s with inputs := [m] })).map (·.mode)

theorem test_witness_ModeTransitionsAreTheListedOnes :
    modeAfter (start .gate .idle []) .programStart = some .runningProgram
      ∧ modeAfter { start .gate .runningProgram [1#8, 0#8, 3#8] with estopN := false } .poll
        = some .pausedProgram
      ∧ modeAfter (start .gate .pausedProgram []) .resume = some .runningProgram
      ∧ modeAfter (start .gate .runningProgram []) .poll = some .idle
      ∧ modeAfter (start .gate .idle []) .manualToggle = some .manualControl
      ∧ modeAfter { start .gate .manualControl [] with
            tickTodo := [.sample], button := true, db := ⟨true, 49, false⟩ } .tickContext
        = some .idle := by decide

theorem test_witness_ManualToggleCommand :
    (start .gate .idle []).mode = .idle ∧ (start .gate .manualControl []).mode = .manualControl
      ∧ (start .gate .runningProgram []).mode = .runningProgram
      ∧ (start .gate .pausedProgram []).mode = .pausedProgram := by decide

theorem test_witness_RingKeepsTheFourMostRecent :
    4 ≤ [LogEvent.moved, .moved, .moved, .programEnd].length := by decide

theorem test_witness_PauseHoldsTheSchedulerAtGate :
    let s := { start .gate .pausedProgram [] with inputs := [.poll] }
    s.mode = .pausedProgram ∧ s.phase = .gate
      ∧ (got (step s)).map (·.mode) = some .pausedProgram := by decide

theorem test_witness_TimerMovesRaiseTheirFlags :
    { State.reset with timer := ⟨.run, 7, false, false⟩ }.timer.state = .run
      ∧ { State.reset with timer := ⟨.cmpd, 7, true, false⟩ }.timer.state = .cmpd := by decide

theorem test_witness_TickMakesItsDutiesDue :
    State.reset.tickTodo = [] ∧ { State.reset with tickTodo := [.sample] }.tickTodo ≠ []
      ∧ { State.reset with tickTodo := [.sample, .shape] }.tickTodo = .sample :: [.shape]
      ∧ { State.reset with tickTodo := [.shape] }.tickTodo = .shape :: []
      ∧ { State.reset with tickTodo := [.writeVel .y (.exact 3)] }.tickTodo
        = .writeVel .y (.exact 3) :: [] := by decide +kernel

/-- 45_collaborators.md R312, 60_exceptions.md R358: an owed sample reads the button's level and is then no longer owed. -/
theorem test_owed_sample :
    (got (perform .tickContext { State.reset with
          tickTodo := [.sample, .shape], button := true, db := ⟨false, 7, false⟩ })).map
        (fun t => (t.db, t.tickTodo)) = some (⟨true, 1, false⟩, [.shape])
      ∧ (got (perform .tickContext { State.reset with
          tickTodo := [.sample], db := ⟨false, 7, false⟩ })).map
        (fun t => (t.db, t.tickTodo)) = some (⟨false, 8, false⟩, []) := by decide

/-- V28c: the program start as a move. -/
theorem test_move_programStart :
    (got (perform .programStart (start .gate .manualControl []))).map (fun t => (t.mode, t.trace))
      = some (.runningProgram, [.log .programStart]) := by decide

/-- Rising at the sample before the cap and at it, in each mode; falling. -/
theorem test_witness_HeldButtonTogglesOnce :
    1 ≤ State.reset.params.dbCap ∧ State.reset.db.last = false ∧ State.reset.db.state = false
      ∧ State.reset.mode = .idle ∧ 49 < State.reset.params.dbCap
      ∧ State.reset.params.dbCap ≤ 50
      ∧ (start .gate .manualControl []).db.last = false
      ∧ (start .gate .pausedProgram []).db.state = false
      ∧ { State.reset with db := ⟨true, 50, true⟩ }.db.state = true := by decide

/-- V35h: the edge is consumed in RunningProgram; and a falling edge calls nothing. -/
theorem test_debouncer_consumes_edges :
    ((debounceRun (start .gate .runningProgram []) (List.replicate 50 true)).mode,
        (debounceRun (start .gate .runningProgram []) (List.replicate 50 true)).db)
        = (.runningProgram, ⟨true, 50, true⟩)
      ∧ ((debounceRun { State.reset with db := ⟨true, 50, true⟩ } (List.replicate 50 false)).mode,
        (debounceRun { State.reset with db := ⟨true, 50, true⟩ } (List.replicate 50 false)).db)
        = (.idle, ⟨false, 50, false⟩) := by decide +kernel

/-- With a cap of 2: alternating samples have no two high ones in a row, nor after a low one counted. -/
theorem test_witness_BouncingButtonNeverToggles :
    let s := { State.reset with
      params := { Params.standard with dbCap := 2 }, db := ⟨true, 1, false⟩ }
    ¬ List.replicate s.params.dbCap (!s.db.state) <:+:
      List.replicate s.db.count s.db.last ++ [false, true, false] := by decide

/-- The discard, where it is allowed and where it is not. -/
theorem test_srcDropTail :
    (srcDropTail (start .gate .idle [1#8, 0#8])).src = []
      ∧ (srcDropTail (start .gate .runningProgram [1#8, 0#8])).src = [1#8, 0#8] := by decide

/-- 20_memory.md R92: reads of Position across the compare-match of a step on x and y; three reads. -/
theorem test_witness_PositionIsReadAxisByAxis :
    let s := { matched 7 0b011#3 0b011#3 .runningProgram with
      inputs := [.readPos .x, .poll, .readPos .y, .readPos .z] }
    s.fault = none ∧ s.phase = .waitCmp ∧ s.timer.cmp = true ∧ s.fault ≠ some .param
      ∧ (got (Sys2Proof.core.run 4 s)).map (fun t => (t.posRead, t.pos))
        = some (⟨0, 1, 0⟩, ⟨1, 1, 0⟩)
      ∧ (got (Sys2Proof.core.run 3 { State.reset with
            pos := ⟨4, 5, -6⟩, inputs := [.readPos .x, .readPos .y, .readPos .z] })).map (·.posRead)
        = some ⟨4, 5, -6⟩ := by decide

/-- At the tie of the first two periods. -/
theorem test_witness_MinimalDeadlineAtTickZero :
    (∀ a, velIsZero ((velocities 10 (-10) 5).get a) = false)
      ∧ period .standard (.exact 10) ≤ period .standard (.exact (-10))
      ∧ period .standard (.exact (-10)) ≤ period .standard (.exact 5) :=
  ⟨by intro a; cases a <;> decide +kernel, by decide +kernel, by decide +kernel⟩

/-- Also of VelocityTestsAgreeWithTheReals. A rational component; V34b's, whose period the bounds
settle. -/
theorem test_witness_PeriodIsTheExactFloor :
    Params.standard.valid = true ∧ velocityWf .standard (.exact (mkRat 1 1000)) = true
      ∧ velReal .standard (.exact (mkRat 1 1000)) ≠ 0
      ∧ velocityWf .standard (.shaped 72 5184 5184) = true
      ∧ Params.standard.shaperRationals = some ⟨mkRat 3 25, 60, 3000⟩
      ∧ periodSettled .standard (speedBounds ⟨mkRat 3 25, 60, 3000⟩ 72 5184 5184) = true
      ∧ 0 < (speedBounds ⟨mkRat 3 25, 60, 3000⟩ 72 5184 5184).lo :=
  ⟨by decide +kernel, rfl, by simp [velReal, Rat.mkRat_eq_div], by decide +kernel, rfl,
    by decide +kernel, by decide +kernel⟩

/-- The first clause on V34b; the mixed vector is the z of one run with the x of the next. -/
theorem test_witness_DominantZIsExclusive :
    dominant (normalised .standard ⟨128#8, 128#8, 200#8⟩ centre) = .z
      ∧ synthEvent .standard 0 ⟨(shape .standard ⟨200#8, 128#8, 128#8⟩ centre).x,
          (shape .standard ⟨128#8, 128#8, 200#8⟩ centre).y,
          (shape .standard ⟨128#8, 128#8, 200#8⟩ centre).z⟩
        = ⟨86, 0b101#3, 0b101#3⟩ := by decide +kernel

theorem test_witness_ShaperWritesOneComponentAMove :
    { State.reset with tickTodo := [.shape] }.tickTodo = .shape :: [] := by decide

/-- The machine with a compare-match pending, a poll next. -/
def firing : State := { matched 7 0b001#3 0b001#3 .runningProgram with inputs := [.poll] }

theorem test_witness_EveryStepKeepsTheInvariant :
    Inv firing ∧ (got (step firing)).isSome = true := by
  refine ⟨?_, by decide⟩
  constructor
  case posRange => intro a; cases a <;> (unfold posFits; decide +kernel)
  case ready => intro h; exact absurd (.inl rfl) h
  case beforeFire => intro _; exact .inr (.inl ⟨rfl, rfl, rfl⟩)
  case afterFire => intro h; cases h
  case armedDur => intro _; rfl
  case minWidth => intro _; decide
  case dirLatched => intro _; decide
  all_goals decide +kernel

theorem test_witness_SourcePositionCountsConsumedBytes :
    (got (step { start .arm .runningProgram [1#8, 0#8, 3#8] with inputs := [.poll] })).map
        (·.srcPos) = some 3
      ∧ (got (step firing)).map (·.srcPos) = some 0 := by decide

/-- An append and a discard; a consuming poll and one that consumes nothing are above. -/
theorem test_witness_SourcePosition_moves :
    (got (step { start .gate .idle [] with inputs := [.srcAppend [1#8]] })).map (·.src) = some [1#8]
      ∧ (got (step { start .gate .idle [1#8] with inputs := [.srcDropTail] })).map (·.src)
        = some [] := by decide

/-- A launch with a program of one `NULL_REC`, and three polls: GATE, ARM, GATE. -/
def launchedNull : State :=
  { start .gate .runningProgram (wordBytes 0x000000#24) with inputs := [.poll, .poll, .poll] }

/-- The state after the first `n` of them. -/
def afterPolls (n : Nat) : State :=
  match n with
  | 0 => launchedNull
  | 1 => { launchedNull with phase := .arm, inputs := [.poll, .poll] }
  | _ => { launchedNull with src := [], srcPos := 3, zrec := true, inputs := [.poll] }

/-- Also of AnEndedRunHasConsumedItsProgram's clauses about runs with e-stop changes: its first clause
makes this program run one of those. -/
theorem test_witness_AnEndedRunHasConsumedItsProgram :
    ∃ t, ProgramEnds [0x000000#24] launchedNull t ∧ t.mode = .idle
      ∧ launchedNull.params.zeroRecordEndsProgram = false := by
  refine ⟨logAppend .programEnd
      { afterPolls 2 with inputs := [], mode := .idle, phase := .arm, zrec := false }, ?_, rfl, rfl⟩
  refine ⟨afterPolls 2, ?_, by rfl, by rfl, by rfl, by unfold AtEnd; decide⟩
  have h0 : Running RunStep [0x000000#24] launchedNull (afterPolls 0) :=
    .launch ⟨rfl, rfl, rfl, by decide, by decide⟩
  have h1 : Running RunStep [0x000000#24] launchedNull (afterPolls 1) :=
    .step h0 ⟨⟨by rfl, by rfl⟩, rfl⟩ (fun h => absurd h.ends.2.1 (by decide))
  exact .step h1 ⟨⟨by rfl, by rfl⟩, rfl⟩ (fun h => absurd h.ends.2.1 (by decide))

/-- The note to P2: a change of the e-stop is no step of a program run. -/
theorem test_estop_change_is_no_run_step :
    let s := { launchedNull with inputs := [.estopPin false] }
    CommandFreeStep s { s with inputs := [], estopN := false }
      ∧ ¬ RunStep s { s with inputs := [], estopN := false } :=
  ⟨⟨by rfl, by rfl⟩, fun h => absurd h.steady (by decide)⟩

/-- A step after a fault leaves it. -/
theorem test_witness_NoStepRewritesHistory :
    (got (step { start .arm .idle [] with fault := some .timerRange, inputs := [.poll] })).map
        (fun t => (t.fault, t.params))
      = some (some .timerRange, Params.standard) := by decide +kernel

end Sys2Proof.Tests
end

section
/-! PROOFS. The program source and the decoder (40_program_records.md). -/

namespace Sys2Proof.Machine

/-- Exhaustion is exactly a source of fewer than three bytes: R142 makes a short record no case of
its own (40_program_records.md R141, R142). -/
theorem fetchRecord_eq_none_iff (s : State) : fetchRecord s = none ↔ srcAvail s < 3 := by
  rcases fetchRecord_cases s with ⟨b0, b1, b2, rest, hsrc, hfetch⟩ | ⟨hshort, hfetch⟩
  · simp [hfetch, srcAvail, hsrc]
  · simp [hfetch, srcAvail, hshort]

/-- `DecodeNext` at exhaustion (40_program_records.md R140, R141). -/
theorem decodeNext_of_fetchRecord_eq_none {s : State} (h : fetchRecord s = none) :
    decodeNext s = (zeroEvent, false, s) := by
  simp [decodeNext, h]

/-- Settles O8: a short source has no record to fetch. -/
theorem shortSourceGivesZeroEvent : Obligations.ShortSourceGivesZeroEvent := by
  intro s hshort
  exact decodeNext_of_fetchRecord_eq_none ((fetchRecord_eq_none_iff s).mpr hshort)

end Sys2Proof.Machine
end

section
/-! PROOFS. The suspension points WAIT_CMP and WAIT_END (42_pulse_scheduler.md). -/

namespace Sys2Proof.Machine

/-- The scheduler waits for the timer: it is at WAIT_CMP without `T_CMP` or at WAIT_END without
`T_END` (42_pulse_scheduler.md R219). -/
def Suspended (s : State) : Prop :=
  (s.phase = .waitCmp ∧ s.timer.cmp = false) ∨ (s.phase = .waitEnd ∧ s.timer.elapsed = false)

/-- Suspension does not look at the coming moves. -/
@[simp] theorem suspended_setInputs (s : State) (ms : List Move) :
    Suspended (s.setInputs ms) ↔ Suspended s := Iff.rfl

/-- A poll of a suspended scheduler changes nothing, with a fault (42_pulse_scheduler.md R201) or
without one (R210, R214). -/
theorem poll_of_suspended {s : State} (hs : Suspended s) : poll s = .next s := by
  rcases poll_cases s with ⟨-, idle⟩ | ⟨-, hphase, -⟩ | ⟨-, hphase, -⟩ | ⟨-, -, -, idle⟩
    | ⟨-, hphase, hcmp, -⟩ | ⟨-, -, -, idle⟩ | ⟨-, hphase, helapsed, -⟩
  · exact idle
  · simp [Suspended, hphase] at hs
  · simp [Suspended, hphase] at hs
  · exact idle
  · simp [Suspended, hphase, hcmp] at hs
  · exact idle
  · simp [Suspended, hphase, helapsed] at hs

/-- A poll at WAIT_END once the period has elapsed (42_pulse_scheduler.md R214). -/
theorem poll_of_elapsed {s : State} (hfault : s.fault = none) (hphase : s.phase = .waitEnd)
    (helapsed : s.timer.elapsed = true) :
    poll s = .next ((writeStep 0#3 (timerClearEnd s)).setPhase .gate) := by
  simpa [hfault, hphase, helapsed] using poll_cases s

/-- A listed poll of a suspended scheduler uses up only itself. -/
theorem step_of_suspended {s : State} {ms : List Move} (hfault : s.fault ≠ some .param)
    (hinputs : s.inputs = .poll :: ms) (hs : Suspended s) : step s = .next (s.setInputs ms) := by
  calc step s = poll (s.setInputs ms) := step_listed hfault hinputs
    _ = .next (s.setInputs ms) := poll_of_suspended ((suspended_setInputs s ms).mpr hs)

/-- A run whose first step has a next state goes on from there. -/
theorem core_run_succ {s t : State} (n : Nat) (h : step s = .next t) :
    Sys2Proof.core.run (n + 1) s = Sys2Proof.core.run n t := by
  have hstep : Sys2Proof.core.step s = .next t := h
  simp only [Host.Core.run, hstep]

/-- Settles O30, by induction on the number of polls: each is used up and leaves the scheduler
suspended. -/
theorem suspensionHasNoTimeout : Obligations.SuspensionHasNoTimeout := by
  intro n
  induction n with
  | zero =>
    rintro s ms - rfl -
    rfl
  | succ n ih =>
    intro s ms hfault hinputs hs
    have hfirst : step s = .next (s.setInputs (List.replicate n .poll ++ ms)) :=
      step_of_suspended hfault hinputs hs
    rw [core_run_succ n hfirst]
    exact ih _ ms hfault rfl hs

/-- Settles O29: before `T_END` the scheduler is suspended, after it the poll ends the period. -/
theorem endOfPeriodReleasesTheLines : Obligations.EndOfPeriodReleasesTheLines := by
  intro s hfault hphase
  cases helapsed : s.timer.elapsed with
  | false => exact poll_of_suspended (.inr ⟨hphase, helapsed⟩)
  | true => exact poll_of_elapsed hfault hphase helapsed

end Sys2Proof.Machine
end

section
/-! PROOFS. The Velocity Shaper (45_collaborators.md section 1): every line of `Shape()` acts on a real
multiple of an integer vector, so the shaper need only hold the integers. -/

namespace Sys2Proof.Machine

/-! ## The ranges of the shaper's parameters -/

/-- What `F_PARAM`'s test says of the two radii (60_exceptions.md R346). -/
theorem radii_of_valid {p : Params} (h : p.valid = true) :
    0 ≤ p.dz.value ∧ p.dz.value < 1 ∧ 0 ≤ p.snap.value := by
  simp only [Params.valid, Bool.and_eq_true, Bool.not_eq_true', Bool.eq_false_iff, ne_eq,
    realBelow_iff, Rat.cast_zero, Rat.cast_one, not_lt] at h
  obtain ⟨⟨⟨⟨⟨⟨⟨⟨-, hdz0⟩, hdz1⟩, hsnap⟩, -⟩, -⟩, -⟩, -⟩, -⟩ := h
  exact ⟨hdz0, hdz1, hsnap⟩

/-- Outside the deadzone the whole vector is not zero. -/
theorem sqrt_pos_of_not_inDeadzone {p : Params} {q : ℕ} (h0 : 0 ≤ p.dz.value)
    (hq : inDeadzone p q = false) : 0 < Real.sqrt q := by
  by_contra hzero
  have hin : inDeadzone p q = true := by
    rw [inDeadzone_iff h0]
    exact (min_le_right _ _).trans (by linarith)
  rw [hin] at hq
  cases hq

/-! ## Real multiples of integer vectors -/

/-- The real vector `k * n` of an integer vector `n`. -/
noncomputable def scaled (k : ℝ) (n : Axis3 ℤ) : Axis3 ℝ := n.map (fun c : ℤ => k * c)

@[simp] theorem scaled_x (k : ℝ) (n : Axis3 ℤ) : (scaled k n).x = k * n.x := rfl
@[simp] theorem scaled_y (k : ℝ) (n : Axis3 ℤ) : (scaled k n).y = k * n.y := rfl
@[simp] theorem scaled_z (k : ℝ) (n : Axis3 ℤ) : (scaled k n).z = k * n.z := rfl

@[simp] theorem axis3_get_map {α β : Type} (f : α → β) (v : Axis3 α) (a : Axis) :
    (v.map f).get a = f (v.get a) := by
  cases a <;> rfl

@[simp] theorem scaled_get (k : ℝ) (n : Axis3 ℤ) (a : Axis) : (scaled k n).get a = k * n.get a :=
  axis3_get_map _ n a

/-- Scaling a multiple gives another multiple. -/
theorem map_scaled {f : ℝ → ℝ} {k l : ℝ} (h : ∀ c, f (k * c) = l * c) (n : Axis3 ℤ) :
    (scaled k n).map f = scaled l n := by
  simp [scaled, Axis3.map, h]

/-- The square of the norm of the x, y part of a vector. -/
def planeSq (n : Axis3 ℤ) : ℕ := n.x.natAbs * n.x.natAbs + n.y.natAbs * n.y.natAbs

theorem normSq_cast (n : Axis3 ℤ) : (normSq n : ℝ) = (n.x : ℝ) ^ 2 + (n.y : ℝ) ^ 2 + (n.z : ℝ) ^ 2 := by
  simp [normSq, Nat.cast_natAbs, ← sq]

theorem planeSq_cast (n : Axis3 ℤ) : (planeSq n : ℝ) = (n.x : ℝ) ^ 2 + (n.y : ℝ) ^ 2 := by
  simp [planeSq, Nat.cast_natAbs, ← sq]

theorem realNorm_scaled {k : ℝ} (hk : 0 ≤ k) (n : Axis3 ℤ) :
    realNorm (scaled k n) = k * Real.sqrt (normSq n) := by
  have h : (scaled k n).x ^ 2 + (scaled k n).y ^ 2 + (scaled k n).z ^ 2 = k ^ 2 * normSq n := by
    rw [normSq_cast, scaled_x, scaled_y, scaled_z]; ring
  rw [realNorm, h, Real.sqrt_mul (sq_nonneg k), Real.sqrt_sq hk]

theorem sqrt_plane_scaled {k : ℝ} (hk : 0 ≤ k) (n : Axis3 ℤ) :
    Real.sqrt ((scaled k n).x ^ 2 + (scaled k n).y ^ 2) = k * Real.sqrt (planeSq n) := by
  have h : (scaled k n).x ^ 2 + (scaled k n).y ^ 2 = k ^ 2 * planeSq n := by
    rw [planeSq_cast, scaled_x, scaled_y]; ring
  rw [h, Real.sqrt_mul (sq_nonneg k), Real.sqrt_sq hk]

/-! ## Normalise and clamp (45_collaborators.md R301, R302) -/

theorem realNormalised_eq_scaled (p : Params) (raw zero : Axis3 Byte) :
    realNormalised p raw zero = scaled (1 / 128) (normalised p raw zero) := by
  simp only [realNormalised, scaled, normalised, Axis3.map, Axis3.mk.injEq]
  push_cast
  refine ⟨?_, ?_, ?_⟩ <;> ring

/-- The factor after the clamp: a vector longer than 128 is divided by its length. -/
theorem realClamp_scaled (n : Axis3 ℤ) :
    realClamp (scaled (1 / 128) n) = scaled (1 / max 128 (Real.sqrt (normSq n))) n := by
  have hnorm : realNorm (scaled (1 / 128) n) = 1 / 128 * Real.sqrt (normSq n) :=
    realNorm_scaled (by norm_num) n
  unfold realClamp
  rw [hnorm]
  split
  · next hlong =>
    rw [max_eq_right (by linarith)]
    apply map_scaled
    intro c
    field_simp
  · next hshort => rw [max_eq_left (by linarith)]

theorem one_div_max_mul (s : ℝ) : 1 / max 128 s * s = min 1 (s / 128) := by
  rcases le_total s 128 with h | h
  · rw [max_eq_left h, min_eq_right (by linarith)]; ring
  · rw [max_eq_right h, min_eq_left (by linarith), one_div_mul_cancel (by linarith)]

/-- The norm after the clamp. -/
theorem realNorm_realClamp_scaled (n : Axis3 ℤ) :
    realNorm (realClamp (scaled (1 / 128) n)) = min 1 (Real.sqrt (normSq n) / 128) := by
  rw [realClamp_scaled, realNorm_scaled (by positivity), one_div_max_mul]

/-! ## The deadzone (45_collaborators.md R303) -/

/-- The factor of the integer vector after the deadzone: the norm left over the length. -/
noncomputable def keptScale (p : Params) (n : Axis3 ℤ) : ℝ :=
  realDeflection p.dz.value (Real.sqrt (normSq n) / 128) / Real.sqrt (normSq n)

theorem keptScale_pos {p : Params} {n : Axis3 ℤ} (h0 : 0 ≤ p.dz.value) (h1 : p.dz.value < 1)
    (hout : inDeadzone p (normSq n) = false) : 0 < keptScale p n :=
  div_pos (realDeflection_pos h0 h1 hout) (sqrt_pos_of_not_inDeadzone h0 hout)

theorem realDeadzone_of_inDeadzone {p : Params} {n : Axis3 ℤ} (h0 : 0 ≤ p.dz.value)
    (hin : inDeadzone p (normSq n) = true) :
    realDeadzone p.dz.value (realClamp (scaled (1 / 128) n)) = ⟨0, 0, 0⟩ := by
  unfold realDeadzone
  rw [realNorm_realClamp_scaled, if_pos ((inDeadzone_iff h0 _).1 hin)]

theorem realDeadzone_of_not_inDeadzone {p : Params} {n : Axis3 ℤ} (h0 : 0 ≤ p.dz.value)
    (hout : inDeadzone p (normSq n) = false) :
    realDeadzone p.dz.value (realClamp (scaled (1 / 128) n)) = scaled (keptScale p n) n := by
  have hq := sqrt_pos_of_not_inDeadzone h0 hout
  have habove : ¬ min 1 (Real.sqrt (normSq n) / 128) ≤ p.dz.value := by
    rw [← inDeadzone_iff h0, hout]; decide
  unfold realDeadzone
  rw [realNorm_realClamp_scaled, if_neg habove, realClamp_scaled, ← one_div_max_mul]
  apply map_scaled
  intro c
  rw [keptScale, realDeflection, ← one_div_max_mul]
  have hmax : (0 : ℝ) < max 128 (Real.sqrt (normSq n)) := by positivity
  field_simp

/-! ## The dominant axis and axis snapping (45_collaborators.md R304, R305) -/

theorem abs_mul_le_abs_mul_iff {k : ℝ} (hk : 0 < k) (b c : ℤ) :
    |k * b| ≤ |k * c| ↔ b.natAbs ≤ c.natAbs := by
  rw [abs_mul, abs_mul, mul_le_mul_iff_right₀ (abs_pos.2 hk.ne'), ← Int.cast_abs, ← Int.cast_abs,
    Int.cast_le, Int.abs_eq_natAbs, Int.abs_eq_natAbs, Int.ofNat_le]

theorem realDominant_scaled {k : ℝ} (hk : 0 < k) (n : Axis3 ℤ) :
    realDominant (scaled k n) = dominant n := by
  simp only [realDominant, dominant, scaled_x, scaled_y, scaled_z, abs_mul_le_abs_mul_iff hk]

/-- For a nonnegative number a comparison is one of squares, if the other side is positive. -/
theorem lt_iff_pos_and_sq_lt {a b : ℝ} (ha : 0 ≤ a) : a < b ↔ 0 < b ∧ a ^ 2 < b ^ 2 := by
  constructor
  · intro h
    exact ⟨ha.trans_lt h, (sq_lt_sq₀ ha (ha.trans h.le)).2 h⟩
  · rintro ⟨hb, h⟩
    exact (sq_lt_sq₀ ha hb.le).1 h

/-- The two squarings by which `planeExceedsRational` decides its test below full deflection. -/
theorem add_lt_mul_iff_squares {e f u v : ℝ} (he : 0 ≤ e) (hf : 0 ≤ f) (hu : 0 ≤ u) (hv : 0 ≤ v) :
    e * u + f * v < u * v ↔
      0 < u ^ 2 * v ^ 2 - e ^ 2 * u ^ 2 - f ^ 2 * v ^ 2
        ∧ (2 * e * f) ^ 2 * (u ^ 2 * v ^ 2) < (u ^ 2 * v ^ 2 - e ^ 2 * u ^ 2 - f ^ 2 * v ^ 2) ^ 2 := by
  have hcross : (2 * e * f) ^ 2 * (u ^ 2 * v ^ 2) = (2 * e * f * (u * v)) ^ 2 := by ring
  rw [hcross, ← lt_iff_pos_and_sq_lt (by positivity), ← sq_lt_sq₀ (by positivity) (by positivity)]
  constructor <;> intro h <;> linarith

/-- The rational test is the comparison of 45_collaborators.md R305. -/
theorem planeExceedsRational_iff {dz snap : ℚ} {q : ℕ} (h0 : 0 ≤ dz) (h1 : dz < 1)
    (hs : 0 ≤ snap) (hq : 0 < Real.sqrt q) (r : ℕ) :
    planeExceedsRational dz snap q r = true ↔
      (snap : ℝ) < Real.sqrt r / Real.sqrt q * realDeflection dz (Real.sqrt q / 128) := by
  have h0' : (0 : ℝ) ≤ dz := by exact_mod_cast h0
  have h1' : (0 : ℝ) < 1 - dz := by
    have : (dz : ℝ) < 1 := by exact_mod_cast h1
    linarith
  have hs' : (0 : ℝ) ≤ snap := by exact_mod_cast hs
  have hqsq : Real.sqrt q ^ 2 = q := Real.sq_sqrt (by positivity)
  have hrsq : Real.sqrt r ^ 2 = r := Real.sq_sqrt (by positivity)
  unfold planeExceedsRational
  split
  · next hfull =>
    have hdefl : realDeflection dz (Real.sqrt q / 128) = 1 := by
      rw [realDeflection, min_eq_left (by linarith [sqrt_ge_128 hfull]), div_self h1'.ne']
    have hclear : (snap : ℝ) < Real.sqrt r / Real.sqrt q * realDeflection dz (Real.sqrt q / 128) ↔
        (snap : ℝ) ^ 2 * q < r := by
      rw [hdefl, mul_one, lt_div_iff₀ hq, ← sq_lt_sq₀ (by positivity) (by positivity), mul_pow,
        hqsq, hrsq]
    rw [hclear, decide_eq_true_iff, ← Rat.cast_lt (K := ℝ)]
    push_cast
    rfl
  · next hbelow =>
    have hshort : min 1 (Real.sqrt q / 128) = Real.sqrt q / 128 :=
      min_eq_right (by linarith [sqrt_lt_128 (Nat.lt_of_not_le hbelow)])
    have hclear : (snap : ℝ) < Real.sqrt r / Real.sqrt q * realDeflection dz (Real.sqrt q / 128) ↔
        128 * (dz : ℝ) * Real.sqrt r + 128 * snap * (1 - dz) * Real.sqrt q
          < Real.sqrt r * Real.sqrt q := by
      rw [realDeflection, hshort, div_mul_div_comm, lt_div_iff₀ (by positivity)]
      constructor <;> intro h <;> linarith
    rw [hclear, add_lt_mul_iff_squares (by positivity) (by positivity) (by positivity) hq.le,
      hqsq, hrsq, Bool.and_eq_true, decide_eq_true_iff, decide_eq_true_iff,
      ← Rat.cast_lt (K := ℝ), ← Rat.cast_lt (K := ℝ)]
    push_cast
    rfl

/-- The snapping test is the comparison of 45_collaborators.md R305. -/
theorem planeExceeds_iff {p : Params} {q : ℕ} (hp : p.valid = true) (hq : 0 < Real.sqrt q) (r : ℕ) :
    planeExceeds p q r = true ↔
      p.snap.value < Real.sqrt r / Real.sqrt q * realDeflection p.dz.value (Real.sqrt q / 128) := by
  obtain ⟨h0, h1, hs⟩ := radii_of_valid hp
  unfold planeExceeds
  split
  · next dz snap hdz hsnap =>
    rw [hdz, RealNumber.value_rational] at h0 h1 ⊢
    rw [hsnap, RealNumber.value_rational] at hs ⊢
    exact planeExceedsRational_iff (by exact_mod_cast h0) (by exact_mod_cast h1)
      (by exact_mod_cast hs) hq r
  · exact exactly_iff _

/-- Snapping on the integers is snapping on the vector the deadzone leaves. -/
theorem realSnap_scaled_keptScale {p : Params} {n : Axis3 ℤ} (hp : p.valid = true)
    (hout : inDeadzone p (normSq n) = false) :
    realSnap p.snap.value (scaled (keptScale p n) n) = scaled (keptScale p n) (axisSnap p n) := by
  obtain ⟨h0, h1, -⟩ := radii_of_valid hp
  have hk := keptScale_pos h0 h1 hout
  have hplane : Real.sqrt ((scaled (keptScale p n) n).x ^ 2 + (scaled (keptScale p n) n).y ^ 2)
      ≤ p.snap.value ↔ ¬ planeExceeds p (normSq n) (planeSq n) = true := by
    rw [planeExceeds_iff hp (sqrt_pos_of_not_inDeadzone h0 hout), not_lt, sqrt_plane_scaled hk.le,
      keptScale]
    ring_nf
  unfold realSnap axisSnap
  simp only [planeSq] at hplane
  simp only [realDominant_scaled hk, hplane, ite_not]
  cases dominant n with
  | z => simp [scaled, Axis3.map]
  | x => simp only; split <;> simp [scaled, Axis3.map]
  | y => simp only; split <;> simp [scaled, Axis3.map]

/-! ## The speed mapping (45_collaborators.md R306) -/

theorem get_eq_zero_of_realNorm_eq_zero {n : Axis3 ℝ} (h : realNorm n = 0) (a : Axis) :
    n.get a = 0 := by
  have hsum : n.x ^ 2 + n.y ^ 2 + n.z ^ 2 = 0 := (Real.sqrt_eq_zero (by positivity)).1 h
  have hle : n.get a ^ 2 ≤ n.x ^ 2 + n.y ^ 2 + n.z ^ 2 := by
    cases a <;> simp only [Axis3.get] <;> nlinarith [sq_nonneg n.x, sq_nonneg n.y, sq_nonneg n.z]
  exact (pow_eq_zero_iff two_ne_zero).1 (le_antisymm (hle.trans hsum.le) (sq_nonneg _))

/-- The case of the zero vector is no case of its own: its components times any scalar are 0. -/
theorem realSpeedMap_get (feedMin feedMax : ℝ) (n : Axis3 ℝ) (a : Axis) :
    (realSpeedMap feedMin feedMax n).get a = n.get a * realScalar feedMin feedMax (realNorm n) := by
  unfold realSpeedMap
  split
  · next h => rw [get_eq_zero_of_realNorm_eq_zero h a, zero_mul]; cases a <;> rfl
  · exact axis3_get_map _ n a

/-! ## The whole shaper (45_collaborators.md R308) -/

/-- The number a component of the result denotes, the zero component no case of its own. -/
theorem velReal_shapedComponent (p : Params) (q m : ℕ) (c : ℤ) :
    velReal p (shapedComponent q m c) = velReal p (.shaped c q m) := by
  unfold shapedComponent
  split
  · next h => simp [velReal, h]
  · rfl

theorem shape_of_inDeadzone {p : Params} {raw zero : Axis3 Byte}
    (hin : inDeadzone p (normSq (normalised p raw zero)) = true) (a : Axis) :
    (shape p raw zero).get a = .exact 0 := by
  rw [shape, if_pos hin]
  cases a <;> rfl

theorem shape_of_not_inDeadzone {p : Params} {raw zero : Axis3 Byte}
    (hout : inDeadzone p (normSq (normalised p raw zero)) = false) (a : Axis) :
    (shape p raw zero).get a
      = shapedComponent (normSq (normalised p raw zero))
          (normSq (axisSnap p (normalised p raw zero)))
          ((axisSnap p (normalised p raw zero)).get a) := by
  rw [shape, if_neg (by simp [hout])]
  exact axis3_get_map _ _ a

theorem shapeReal_of_inDeadzone {p : Params} {raw zero : Axis3 Byte} (h0 : 0 ≤ p.dz.value)
    (hin : inDeadzone p (normSq (normalised p raw zero)) = true) (a : Axis) :
    (shapeReal p raw zero).get a = 0 := by
  have hsnap : ∀ b, (realSnap p.snap.value ⟨0, 0, 0⟩).get b = 0 := by
    intro b
    cases b <;> simp [realSnap, realDominant, Axis3.get]
  rw [shapeReal, realNormalised_eq_scaled, realDeadzone_of_inDeadzone h0 hin, realSpeedMap_get,
    hsnap, zero_mul]

theorem shapeReal_of_not_inDeadzone {p : Params} {raw zero : Axis3 Byte} (hp : p.valid = true)
    (hout : inDeadzone p (normSq (normalised p raw zero)) = false) (a : Axis) :
    (shapeReal p raw zero).get a
      = keptScale p (normalised p raw zero) * (axisSnap p (normalised p raw zero)).get a
        * realScalar p.feedMin.value p.feedMax.value
          (keptScale p (normalised p raw zero)
            * Real.sqrt (normSq (axisSnap p (normalised p raw zero)))) := by
  obtain ⟨h0, h1, -⟩ := radii_of_valid hp
  rw [shapeReal, realNormalised_eq_scaled, realDeadzone_of_not_inDeadzone h0 hout,
    realSnap_scaled_keptScale hp hout, realSpeedMap_get, scaled_get,
    realNorm_scaled (keptScale_pos h0 h1 hout).le]

/-- A shaped component in terms of the factor the deadzone leaves. -/
theorem velReal_shaped (p : Params) (n : Axis3 ℤ) (m : ℕ) (c : ℤ) :
    velReal p (.shaped c (normSq n) m)
      = keptScale p n * c
        * realScalar p.feedMin.value p.feedMax.value (keptScale p n * Real.sqrt m) := by
  simp only [velReal, keptScale]
  ring_nf

/-- Settles O49: in the deadzone both sides are 0; outside it both are the snapped integers times the
factor the deadzone leaves and the scalar of the norm so scaled. -/
theorem shaperComputesItsRealFormula : Obligations.ShaperComputesItsRealFormula := by
  intro p raw zero hp a
  obtain ⟨h0, -, -⟩ := radii_of_valid hp
  cases hdz : inDeadzone p (normSq (normalised p raw zero)) with
  | true =>
    rw [shape_of_inDeadzone hdz, shapeReal_of_inDeadzone h0 hdz]
    exact Rat.cast_zero
  | false =>
    rw [shape_of_not_inDeadzone hdz, velReal_shapedComponent, velReal_shaped,
      shapeReal_of_not_inDeadzone hp hdz]

end Sys2Proof.Machine
end

section
/-! PROOFS. The record decoder and encoder (30_encoding.md sections 1 to 3): the class masks are tests
on the fields of the word, so decoding and encoding are inverse on the fields. -/

namespace Sys2Proof

/-- The mask of the first row of 30_encoding.md R115 tests the duration. -/
theorem mask_dur_eq_zero_iff (w : BitVec 24) :
    w &&& 0x00FFFF#24 = 0x000000#24 ↔ fieldDur w = 0#16 := by
  have hmask : (w &&& 0x00FFFF#24).toNat = w.toNat % 65536 :=
    Nat.and_two_pow_sub_one_eq_mod w.toNat 16
  rw [← BitVec.toNat_inj, ← BitVec.toNat_inj, hmask, fieldDur_toNat]
  rfl

/-- The mask of the second row has the bits 16, 18 and 20. -/
theorem mask_step_bits : ∀ i : Fin 24,
    (0x150000#24).getLsbD i = decide (i.val = 16 ∨ i.val = 18 ∨ i.val = 20) := by
  decide

/-- The mask of the second row of 30_encoding.md R115 tests the step flags. -/
theorem mask_step_eq_zero_iff (w : BitVec 24) :
    w &&& 0x150000#24 = 0x000000#24 ↔ fieldStep w = 0#3 := by
  obtain ⟨h0, h1, h2⟩ := fieldStep_bits w
  constructor
  · intro h
    have hbit : ∀ i : Fin 24, (i.val = 16 ∨ i.val = 18 ∨ i.val = 20) → w.getLsbD i = false := by
      intro i hi
      have hand := congrArg (fun v => v.getLsbD i.val) h
      simpa only [BitVec.getLsbD_and, mask_step_bits i, hi, decide_true, Bool.and_true,
        BitVec.getLsbD_zero] using hand
    exact lines_ext (h0.trans (hbit 16 (by decide))) (h1.trans (hbit 18 (by decide)))
      (h2.trans (hbit 20 (by decide)))
  · intro h
    rw [h] at h0 h1 h2
    apply BitVec.eq_of_getLsbD_eq
    intro i hi
    rw [BitVec.getLsbD_and, mask_step_bits ⟨i, hi⟩, BitVec.getLsbD_zero]
    by_cases hset : i = 16 ∨ i = 18 ∨ i = 20
    · rcases hset with rfl | rfl | rfl
      · rw [← h0]; rfl
      · rw [← h1]; rfl
      · rw [← h2]; rfl
    · simp [hset]

/-- The class of a word by its fields (30_encoding.md R115). -/
theorem decodeWord_eq (w : BitVec 24) :
    decodeWord w = if fieldDur w = 0#16 then .nullRec (fieldStep w) (fieldDir w)
      else if fieldStep w = 0#3 then .dwellRec (fieldDur w) (fieldDir w)
      else .stepRec (fieldDur w) (fieldStep w) (fieldDir w) := by
  simp only [decodeWord, mask_dur_eq_zero_iff, mask_step_eq_zero_iff]

/-- Every word decodes to a well-formed record (30_encoding.md R117). -/
theorem decodeWord_wf (w : BitVec 24) : (decodeWord w).wf = true := by
  rw [decodeWord_eq]
  split
  · rfl
  · next hdur =>
    split
    · simp [Instr.wf, hdur]
    · next hstep => simp [Instr.wf, hdur, hstep]

/-- The event of a word's record is made of the word's fields, whatever its class
(40_program_records.md R140). -/
theorem recordEvent_decodeWord (w : BitVec 24) :
    Machine.recordEvent (decodeWord w) = ⟨(fieldDur w).toNat, fieldStep w, fieldDir w⟩ := by
  rw [decodeWord_eq]
  split
  · next hdur => simp [Machine.recordEvent, hdur]
  · split
    · next hstep => simp [Machine.recordEvent, hstep]
    · rfl

/-- A well-formed record's word decodes to it. -/
theorem decodeWord_encodeWord {i : Instr} (h : i.wf = true) : decodeWord (encodeWord i) = i := by
  cases i with
  | nullRec step dir =>
    simp [encodeWord, decodeWord_eq, fieldDur_flagsByte, fieldStep_flagsByte, fieldDir_flagsByte]
  | dwellRec dur dir =>
    have hdur : dur ≠ 0#16 := by simpa [Instr.wf] using h
    simp [encodeWord, decodeWord_eq, fieldDur_flagsByte, fieldStep_flagsByte, fieldDir_flagsByte, hdur]
  | stepRec dur step dir =>
    have hfields : dur ≠ 0#16 ∧ step ≠ 0#3 := by simpa [Instr.wf] using h
    simp [encodeWord, decodeWord_eq, fieldDur_flagsByte, fieldStep_flagsByte, fieldDir_flagsByte,
      hfields]

/-- The word of a decoded word is made of the same fields. -/
theorem encodeWord_decodeWord (w : BitVec 24) :
    encodeWord (decodeWord w) = flagsByte (fieldStep w) (fieldDir w) ++ fieldDur w := by
  rw [decodeWord_eq]
  split
  · next hdur => simp [encodeWord, hdur]
  · split
    · next hstep => simp [encodeWord, hstep]
    · rfl

/-- Settles O2. -/
theorem decodeInvertsEncode : Obligations.DecodeInvertsEncode := by
  intro i rest h
  rw [encode, decode_wordBytes, decodeWord_encodeWord h]

/-- Settles O3. -/
theorem recordFieldsRoundTrip : Obligations.RecordFieldsRoundTrip := by
  intro D s r rest
  refine ⟨_, decode_wordBytes _ rest, ?_⟩
  rw [recordEvent_decodeWord, fieldDur_flagsByte, fieldStep_flagsByte, fieldDir_flagsByte]

/-- Settles O4. -/
theorem eventIsReadFromItsBits : Obligations.EventIsReadFromItsBits := by
  intro w
  obtain ⟨sx, sy, sz⟩ := fieldStep_bits w
  obtain ⟨dx, dy, dz⟩ := fieldDir_bits w
  rw [recordEvent_decodeWord]
  exact ⟨fieldDur_toNat w, sx, sy, sz, dx, dy, dz⟩

/-- The duration of three bytes, low byte first (30_encoding.md R111). -/
theorem fieldDur_recordWord (b0 b1 b2 : Byte) :
    (fieldDur (recordWord b0 b1 b2)).toNat = b0.toNat + 256 * b1.toNat := by
  have h0 := b0.isLt
  have h1 := b1.isLt
  have hword : (recordWord b0 b1 b2).toNat = (b2.toNat * 256 + b1.toNat) * 256 + b0.toNat := by
    simp only [recordWord, BitVec.toNat_append]
    rw [← Nat.shiftLeft_add_eq_or_of_lt h1, ← Nat.shiftLeft_add_eq_or_of_lt h0, Nat.shiftLeft_eq,
      Nat.shiftLeft_eq]
  rw [fieldDur_toNat, hword]
  omega

/-- A word's upper byte is its third. -/
theorem recordWord_upper_bit (b0 b1 b2 : Byte) (i : Nat) (hi : i < 8) :
    (recordWord b0 b1 b2).getLsbD (16 + i) = b2.getLsbD i := by
  have hmid : ¬ 16 + i < 8 := by omega
  have hlow : ¬ 16 + i - 8 < 8 := by omega
  have hsub : 16 + i - 8 - 8 = i := by omega
  refine BitVec.getLsbD_append.trans ?_
  rw [if_neg hmid]
  refine BitVec.getLsbD_append.trans ?_
  rw [if_neg hlow, hsub]

/-- Three bytes carry no step flag if bits 0, 2 and 4 of the third are clear. -/
theorem fieldStep_recordWord_eq_zero_iff (b0 b1 b2 : Byte) :
    fieldStep (recordWord b0 b1 b2) = 0#3
      ↔ b2.getLsbD 0 = false ∧ b2.getLsbD 2 = false ∧ b2.getLsbD 4 = false := by
  obtain ⟨h0, h1, h2⟩ := fieldStep_bits (recordWord b0 b1 b2)
  rw [← recordWord_upper_bit b0 b1 b2 0 (by decide), ← recordWord_upper_bit b0 b1 b2 2 (by decide),
    ← recordWord_upper_bit b0 b1 b2 4 (by decide), ← h0, ← h1, ← h2]
  constructor
  · intro h
    simp [h]
  · rintro ⟨g0, g1, g2⟩
    exact lines_ext g0 g1 g2

/-- Settles O5: the class is chosen by the fields. -/
theorem everyTripleDecodesToItsClass : Obligations.EveryTripleDecodesToItsClass := by
  intro b0 b1 b2 rest
  refine ⟨decodeWord (recordWord b0 b1 b2), rfl, decodeWord_wf _, ?_⟩
  have hdur : fieldDur (recordWord b0 b1 b2) = 0#16 ↔ b0.toNat + 256 * b1.toNat = 0 := by
    rw [← fieldDur_recordWord b0 b1 b2, ← BitVec.toNat_inj]
    rfl
  rw [decodeWord_eq]
  simp only [hdur, fieldStep_recordWord_eq_zero_iff]
  split
  · exact ⟨_, _, rfl⟩
  · split
    · exact ⟨_, _, rfl⟩
    · exact ⟨_, _, _, rfl⟩

/-- Bits 21 to 0 of a word determine each of them. -/
theorem getLsbD_eq_of_low_eq {w v : BitVec 24} (h : w.extractLsb' 0 22 = v.extractLsb' 0 22) {i : Nat}
    (hi : i < 22) : w.getLsbD i = v.getLsbD i := by
  have hbit := congrArg (fun u => u.getLsbD i) h
  simpa [hi] using hbit

/-- No field holds a reserved bit (30_encoding.md R112, R116). -/
theorem fields_eq_of_low_eq {w v : BitVec 24} (h : w.extractLsb' 0 22 = v.extractLsb' 0 22) :
    fieldDur w = fieldDur v ∧ fieldStep w = fieldStep v ∧ fieldDir w = fieldDir v := by
  have hbit : ∀ i < 22, w.getLsbD i = v.getLsbD i := fun i hi => getLsbD_eq_of_low_eq h hi
  obtain ⟨sw0, sw1, sw2⟩ := fieldStep_bits w
  obtain ⟨sv0, sv1, sv2⟩ := fieldStep_bits v
  obtain ⟨dw0, dw1, dw2⟩ := fieldDir_bits w
  obtain ⟨dv0, dv1, dv2⟩ := fieldDir_bits v
  refine ⟨?_, ?_, ?_⟩
  · apply BitVec.eq_of_getLsbD_eq
    intro i hi
    rw [fieldDur_bits w i hi, fieldDur_bits v i hi, hbit i (by omega)]
  · apply lines_ext
    · rw [sw0, sv0, hbit 16 (by decide)]
    · rw [sw1, sv1, hbit 18 (by decide)]
    · rw [sw2, sv2, hbit 20 (by decide)]
  · apply lines_ext
    · rw [dw0, dv0, hbit 17 (by decide)]
    · rw [dw1, dv1, hbit 19 (by decide)]
    · rw [dw2, dv2, hbit 21 (by decide)]

/-- The bits of the upper byte put together from a word's flags. -/
theorem flagsByte_fields_bits (w : BitVec 24) : ∀ i : Fin 8,
    (flagsByte (fieldStep w) (fieldDir w)).getLsbD i
      = (w.getLsbD (16 + i) && decide (i.val < 6)) := by
  obtain ⟨b0, b1, b2, b3, b4, b5, b6, b7⟩ := flagsByte_bits (fieldStep w) (fieldDir w)
  obtain ⟨s0, s1, s2⟩ := fieldStep_bits w
  obtain ⟨d0, d1, d2⟩ := fieldDir_bits w
  rw [s0] at b0
  rw [d0] at b1
  rw [s1] at b2
  rw [d1] at b3
  rw [s2] at b4
  rw [d2] at b5
  intro i
  match i with
  | 0 => simpa using b0
  | 1 => simpa using b1
  | 2 => simpa using b2
  | 3 => simpa using b3
  | 4 => simpa using b4
  | 5 => simpa using b5
  | 6 => simpa using b6
  | 7 => simpa using b7

/-- The word put together from a word's fields is the word without its reserved bits. -/
theorem word_of_fields (w : BitVec 24) :
    (show BitVec 24 from flagsByte (fieldStep w) (fieldDir w) ++ fieldDur w) = w &&& 0x3FFFFF#24 := by
  have hmask : ∀ i : Fin 24, (0x3FFFFF#24).getLsbD i = decide (i.val < 22) := by decide
  apply BitVec.eq_of_getLsbD_eq
  intro i hi
  rw [word_bits, BitVec.getLsbD_and, hmask ⟨i, hi⟩]
  split
  · next hlow =>
    rw [fieldDur_bits w i hlow]
    simp [show i < 22 by omega]
  · next hhigh =>
    have hbit := flagsByte_fields_bits w ⟨i - 16, by omega⟩
    simp only [show 16 + (i - 16) = i by omega, show i - 16 < 6 ↔ i < 22 by omega] at hbit
    exact hbit

/-- The encoder writes the reserved bits as 0 (30_encoding.md R116). -/
theorem reserved_of_encodeWord (i : Instr) : (encodeWord i).extractLsb' 22 2 = 0#2 := by
  have hshape : (encodeWord i).getLsbD 22 = false ∧ (encodeWord i).getLsbD 23 = false := by
    cases i with
    | nullRec step dir => exact Laws.reserved_clear step dir 0#16
    | dwellRec dur dir => exact Laws.reserved_clear 0#3 dir dur
    | stepRec dur step dir => exact Laws.reserved_clear step dir dur
  obtain ⟨h22, h23⟩ := hshape
  apply BitVec.eq_of_getLsbD_eq
  intro j hj
  match j, hj with
  | 0, _ => simpa using h22
  | 1, _ => simpa using h23

/-- Settles O6. -/
theorem reservedBitsAreIgnored : Obligations.ReservedBitsAreIgnored := by
  refine ⟨?_, reserved_of_encodeWord, ?_⟩
  · intro w v h
    obtain ⟨hdur, hstep, hdir⟩ := fields_eq_of_low_eq h
    have hdec : decodeWord w = decodeWord v := by
      rw [decodeWord_eq, decodeWord_eq, hdur, hstep, hdir]
    exact ⟨hdec, fun s => by rw [hdec]⟩
  · intro w
    rw [encodeWord_decodeWord]
    exact word_of_fields w

/-- A row of the table of 30_encoding.md R122: the decoder reads what the encoder writes. -/
theorem decode_eq_of_encode_eq {i : Instr} {bytes : List Byte} (hwf : i.wf = true)
    (henc : encode i = bytes) : decode bytes = .ok (i, []) := by
  have h := decodeInvertsEncode i [] hwf
  rwa [List.append_nil, henc] at h

/-- Settles O1: each row's bytes are those the encoder gives, but for the row with reserved bits set,
which is decoded by evaluation. -/
theorem writtenRecordsDecode : Obligations.WrittenRecordsDecode := by
  have row : ∀ {i : Instr} {b0 b1 b2 : Byte} {w : BitVec 24}, i.wf = true →
      encode i = [b0, b1, b2] → recordWord b0 b1 b2 = w →
      decode [b0, b1, b2] = .ok (i, []) ∧ recordWord b0 b1 b2 = w ∧ encode i = [b0, b1, b2] :=
    fun hwf henc hword => ⟨decode_eq_of_encode_eq hwf henc, hword, henc⟩
  exact ⟨row (by decide) (by decide) (by decide), row (by decide) (by decide) (by decide),
    row (by decide) (by decide) (by decide), row (by decide) (by decide) (by decide),
    row (by decide) (by decide) (by decide), row (by decide) (by decide) (by decide),
    row (by decide) (by decide) (by decide), row (by decide) (by decide) (by decide),
    row (by decide) (by decide) (by decide), by decide, by decide⟩

end Sys2Proof
end

section
/-! PROOFS. The parameters, wrap, and the Step Executor (00_scope.md section 4, 41_step_executor.md,
60_exceptions.md section 1). -/

namespace Sys2Proof.Machine

/-! ## Valid parameters (60_exceptions.md R346) -/

theorem realBelow_eq_false_iff (x : RealNumber) (v : ℚ) : realBelow x v = false ↔ (v : ℝ) ≤ x.value := by
  rw [← not_lt, ← realBelow_iff, Bool.not_eq_true]

/-- `F_PARAM`'s test, bound by bound. -/
theorem valid_iff (p : Params) : p.valid = true ↔
    0 < p.fClk ∧ 0 < p.spm ∧ 0 < p.vmax ∧ 65535 ≤ p.timerMax ∧ 2 ≤ p.posBits ∧ 1 ≤ p.tickBits
      ∧ (∀ a, p.orient.get a = 1 ∨ p.orient.get a = -1)
      ∧ 0 ≤ p.dz.value ∧ p.dz.value < 1 ∧ 0 ≤ p.snap.value
      ∧ 0 < p.feedMin.value ∧ 0 < p.feedMax.value
      ∧ 1 ≤ p.dbDiv ∧ 1 ≤ p.dbCap ∧ 1 ≤ p.shapeDiv := by
  have horient : (∀ a, p.orient.get a = 1 ∨ p.orient.get a = -1) ↔
      (p.orient.x = 1 ∨ p.orient.x = -1) ∧ (p.orient.y = 1 ∨ p.orient.y = -1)
        ∧ (p.orient.z = 1 ∨ p.orient.z = -1) :=
    ⟨fun h => ⟨h .x, h .y, h .z⟩, fun ⟨hx, hy, hz⟩ a => by cases a <;> assumption⟩
  simp only [Params.valid, Bool.and_eq_true, Bool.or_eq_true, decide_eq_true_iff, Bool.not_eq_true',
    realBelow_eq_false_iff, realBelow_iff, realAbove_iff, Rat.cast_zero, Rat.cast_one, horient,
    and_assoc]

theorem rates_pos_of_valid {p : Params} (h : p.valid = true) : 0 < p.fClk ∧ 0 < p.spm ∧ 0 < p.vmax := by
  obtain ⟨hclk, hspm, hvmax, -⟩ := (valid_iff p).1 h
  exact ⟨hclk, hspm, hvmax⟩

theorem widths_of_valid {p : Params} (h : p.valid = true) :
    65535 ≤ p.timerMax ∧ 2 ≤ p.posBits ∧ 1 ≤ p.tickBits := by
  obtain ⟨-, -, -, htimer, hpos, htick, -⟩ := (valid_iff p).1 h
  exact ⟨htimer, hpos, htick⟩

theorem feeds_pos_of_valid {p : Params} (h : p.valid = true) :
    0 < p.feedMin.value ∧ 0 < p.feedMax.value := by
  obtain ⟨-, -, -, -, -, -, -, -, -, -, hmin, hmax, -⟩ := (valid_iff p).1 h
  exact ⟨hmin, hmax⟩

theorem dbCap_pos_of_valid {p : Params} (h : p.valid = true) : 1 ≤ p.dbCap := by
  obtain ⟨-, -, -, -, -, -, -, -, -, -, -, -, -, hcap, -⟩ := (valid_iff p).1 h
  exact hcap

/-- Settles O20. -/
theorem refusedParametersStopEveryAgent : Obligations.RefusedParametersStopEveryAgent := by
  refine ⟨valid_iff, ?_⟩
  intro b hb
  refine ⟨?_, ?_⟩
  · simp [State.boot, State.power, hb]
  · intro s hs
    rw [step, if_pos hs]

/-! ## Wrap (00_scope.md R9) -/

/-- Settles O28: two numbers in range that are congruent differ by a multiple of the modulus below the
modulus. -/
theorem wrapIsTheOneInRange : Obligations.WrapIsTheOneInRange := by
  intro n i hn
  have hrange := wrapN_range hn i
  have hcongr : wrapN n i % 2 ^ n = i % 2 ^ n := by exact_mod_cast wrapN_emod n i
  refine ⟨hrange, hcongr, ?_⟩
  rintro j ⟨jlo, jhi⟩ hj
  obtain ⟨k, rfl⟩ : ∃ k, n = k + 1 := ⟨n - 1, by omega⟩
  obtain ⟨wlo, whi⟩ := hrange
  simp only [Nat.add_sub_cancel] at jlo jhi wlo whi
  have hdvd : (2 : Int) ^ (k + 1) ∣ j - wrapN (k + 1) i :=
    Int.ModEq.dvd (hcongr.trans hj.symm)
  have hlt : |j - wrapN (k + 1) i| < 2 ^ (k + 1) := by
    rw [abs_lt, pow_succ]
    constructor <;> omega
  have hzero := Int.eq_zero_of_abs_lt_dvd hdvd hlt
  omega

/-! ## The minimum duration (41_step_executor.md R173) -/

/-- The two sides of R173's comparison are the naturals of `minDur` over one positive denominator. -/
theorem minDur_integers (p : Params) (hclk : 0 < p.fClk) (hspm : 0 < p.spm) (hvmax : 0 < p.vmax) :
    ∃ D : ℚ, 0 < D
      ∧ ((p.vmax.num.natAbs * p.spm.num.natAbs * p.fClk.den : ℕ) : ℚ) = p.vmax * p.spm * D
      ∧ ((60 * p.fClk.num.natAbs * p.vmax.den * p.spm.den : ℕ) : ℚ) = 60 * p.fClk * D := by
  have hnum : ∀ q : ℚ, 0 < q → ((q.num.natAbs : ℕ) : ℚ) = q * q.den := by
    intro q hq
    rw [Rat.mul_den_eq_num, Nat.cast_natAbs, abs_of_pos (Rat.num_pos.2 hq)]
  refine ⟨p.fClk.den * p.vmax.den * p.spm.den, by positivity, ?_, ?_⟩
  · push_cast [hnum _ hvmax, hnum _ hspm]
    ring
  · push_cast [hnum _ hclk]
    ring

/-- The natural number under `MinDur`'s maximum. -/
def minDurRoot (p : Params) (k : Nat) : Nat :=
  let a := p.vmax.num.natAbs * p.spm.num.natAbs * p.fClk.den
  let b := 60 * p.fClk.num.natAbs * p.vmax.den * p.spm.den
  isqrtUp (ceilDiv (max k 1 * (b * b)) (a * a))

theorem minDur_eq_max (p : Params) (k : Nat) : minDur p k = max 2 (minDurRoot p k) := rfl

/-- `MinDur`'s root is the least natural that meets R173's comparison. -/
theorem minDurRoot_le_iff {p : Params} (hp : p.valid = true) (k n : Nat) :
    minDurRoot p k ≤ n ↔
      ((max k 1 : Nat) : ℚ) * (60 * p.fClk) ^ 2 ≤ (n : ℚ) * n * (p.vmax * p.spm) ^ 2 := by
  obtain ⟨hclk, hspm, hvmax⟩ := rates_pos_of_valid hp
  obtain ⟨D, hD, ha, hb⟩ := minDur_integers p hclk hspm hvmax
  simp only [minDurRoot]
  generalize p.vmax.num.natAbs * p.spm.num.natAbs * p.fClk.den = a at *
  generalize 60 * p.fClk.num.natAbs * p.vmax.den * p.spm.den = b at *
  have hapos : 0 < a := by
    have : (0 : ℚ) < a := by rw [ha]; positivity
    exact_mod_cast this
  rw [isqrtUp_le_iff, ceilDiv_le_iff (Nat.mul_pos hapos hapos), ← Nat.cast_le (α := ℚ)]
  simp only [Nat.cast_mul]
  have hleft : ((max k 1 : Nat) : ℚ) * (60 * p.fClk * D * (60 * p.fClk * D))
      = ((max k 1 : Nat) : ℚ) * (60 * p.fClk) ^ 2 * D ^ 2 := by ring
  have hright : (n : ℚ) * n * (p.vmax * p.spm * D * (p.vmax * p.spm * D))
      = (n : ℚ) * n * (p.vmax * p.spm) ^ 2 * D ^ 2 := by ring
  rw [ha, hb, hleft, hright, mul_le_mul_iff_left₀ (by positivity)]

/-- The real formula under `MinDur`'s maximum is the same root. -/
theorem ceil_geometry_base_eq_minDurRoot {p : Params} (hp : p.valid = true) (k : Nat) :
    ⌈geometryFactor k * baseDuration p⌉₊ = minDurRoot p k := by
  obtain ⟨hclk, hspm, hvmax⟩ := rates_pos_of_valid hp
  have hclk' : (0 : ℝ) < p.fClk := by exact_mod_cast hclk
  have hden : (0 : ℝ) < p.vmax * p.spm := by exact_mod_cast mul_pos hvmax hspm
  apply eq_of_forall_ge_iff
  intro n
  have hleft : (geometryFactor k * (60 * p.fClk)) ^ 2
      = ((max k 1 : Nat) : ℝ) * (60 * (p.fClk : ℝ)) ^ 2 := by
    rw [mul_pow, geometryFactor, Real.sq_sqrt (Nat.cast_nonneg _)]
  have hright : ((n : ℝ) * (p.vmax * p.spm)) ^ 2 = (n : ℝ) * n * (p.vmax * p.spm) ^ 2 := by ring
  rw [Nat.ceil_le, minDurRoot_le_iff hp, baseDuration, ← mul_div_assoc, div_le_iff₀ hden,
    ← sq_le_sq₀ (by unfold geometryFactor; positivity) (by positivity), hleft, hright,
    ← Rat.cast_le (K := ℝ)]
  push_cast
  rfl

/-- Settles O9. -/
theorem minimumDurationIsExact : Obligations.MinimumDurationIsExact := by
  intro p k hp
  refine ⟨⟨minDurRoot p k, ⟨(minDurRoot_le_iff hp k _).1 le_rfl, ?_⟩, minDur_eq_max p k⟩, ?_⟩
  · intro n hn
    exact (minDurRoot_le_iff hp k n).2 hn
  · rw [minDur_eq_max, minDurReal, ceil_geometry_base_eq_minDurRoot hp]

/-! ## `StartStep` (41_step_executor.md R180) -/

/-- The armed duration under the manual exemption (41_step_executor.md R177). -/
theorem armedDur_manual (p : Params) (dur k : Nat) : armedDur p .manualControl dur k = max dur 2 := rfl

/-- The armed duration under the clamp (41_step_executor.md R176). -/
theorem armedDur_clamped {mode : Mode} (hmode : mode ≠ .manualControl) (p : Params) (dur k : Nat) :
    armedDur p mode dur k = max dur (minDur p k) := if_neg hmode

/-- The registers a started pulse writes (41_step_executor.md R180). -/
theorem startedState_eq (ev : StepEvent) (d : Nat) (s : State) :
    startedState ev d s = { s with
      timer := { s.timer with state := .run, dur := d }
      dirOut := ev.dir ^^^ s.params.polarity
      trace := s.trace ++ [.arm d, .dir (ev.dir ^^^ s.params.polarity)] } := by
  simp [startedState, writeDir, State.emit, State.setDirOut, State.setTimer, dirLevels]

/-- A zero duration starts nothing (41_step_executor.md R175). -/
theorem startStep_zero {ev : StepEvent} (h : ev.dur = 0) (mode : Mode) (s : State) :
    startStep ev mode s = .ok (⟨false, 0, popcount ev.step⟩, s) := by
  rcases startStep_cases ev mode s with ⟨-, he⟩ | ⟨hpos, -⟩ | ⟨hpos, -⟩ | ⟨hpos, -⟩
  · exact he
  all_goals omega

/-- A positive duration in range starts a pulse on a ready timer. -/
theorem startStep_started {ev : StepEvent} {mode : Mode} {s : State} (hdur : 0 < ev.dur)
    (hready : timerBusy s.timer = false)
    (hmax : armedDur s.params mode ev.dur (popcount ev.step).val ≤ s.params.timerMax) :
    startStep ev mode s = .ok (⟨true, armedDur s.params mode ev.dur (popcount ev.step).val,
      popcount ev.step⟩, startedState ev (armedDur s.params mode ev.dur (popcount ev.step).val) s) := by
  rcases startStep_cases ev mode s with ⟨hzero, -⟩ | ⟨-, hover, -⟩ | ⟨-, -, hbusy, -⟩ | ⟨-, -, -, he⟩
  · omega
  · omega
  · rw [hready] at hbusy; cases hbusy
  · exact he

/-- A duration out of range raises `F_TIMER_RANGE` (41_step_executor.md R179). -/
theorem startStep_out_of_range {ev : StepEvent} {mode : Mode} {s : State} (hdur : 0 < ev.dur)
    (hmax : s.params.timerMax < armedDur s.params mode ev.dur (popcount ev.step).val) :
    startStep ev mode s = .error (raiseFault .timerRange s) := by
  rcases startStep_cases ev mode s with ⟨hzero, -⟩ | ⟨-, -, he⟩ | ⟨-, hin, -⟩ | ⟨-, hin, -⟩
  · omega
  · exact he
  · omega
  · omega

/-- A fault that is raised where none is set (60_exceptions.md R343). -/
theorem raiseFault_of_none {s : State} (h : s.fault = none) (r : FaultReason) :
    raiseFault r s = { s with fault := some r } := by
  simp [raiseFault, h, State.setFault]

/-- Settles O10. -/
theorem zeroDurationStartsNothing : Obligations.ZeroDurationStartsNothing := by
  intro step dir mode s
  exact startStep_zero rfl mode s

/-- The number of step flags (41_step_executor.md R171). -/
theorem popcount_eq_length_filter (v : Lines) :
    (popcount v).val = ([Axis.x, .y, .z].filter (fun a => line v a)).length := by
  revert v; decide

/-- The polarity table as a vector, axis by axis (41_step_executor.md R181). -/
theorem line_polarity (p : Params) (a : Axis) : line p.polarity a = (p.dirPol.get a).getLsbD 0 := by
  obtain ⟨h0, h1, h2⟩ := lines_of_bits p.dirPol.z p.dirPol.y p.dirPol.x
  cases a with
  | x => exact h0
  | y => exact h1
  | z => exact h2

/-- Settles O11. -/
theorem startStepArmsTheClampedDuration : Obligations.StartStepArmsTheClampedDuration := by
  refine ⟨?_, popcount_eq_length_filter, ?_⟩
  · intro ev mode s hdur hready k d hmax
    have hd : armedDur s.params mode ev.dur (popcount ev.step).val = d := rfl
    rw [startStep_started hdur hready hmax, startedState_eq, hd]
  · intro p dir a
    rw [← line_polarity]
    exact BitVec.getLsbD_xor

/-- Settles O12. -/
theorem armedDurationHasItsLowerBound : Obligations.ArmedDurationHasItsLowerBound := by
  refine ⟨two_le_minDur, ?_⟩
  intro ev mode s t r hstart hdur
  rcases startStep_cases ev mode s with ⟨hzero, -⟩ | ⟨-, -, he⟩ | ⟨-, -, -, he⟩ | ⟨-, -, -, he⟩
  · omega
  · rw [he] at hstart; cases hstart
  · rw [he] at hstart; cases hstart
  · rw [he] at hstart
    cases hstart
    refine ⟨rfl, rfl, rfl, ?_, ?_⟩
    · intro hmode
      rw [armedDur_clamped hmode]
      exact le_max_right _ _
    · rintro rfl
      exact le_max_right _ _

/-- A record's duration has 16 bits (30_encoding.md R112). -/
theorem recordEvent_dur_lt (i : Instr) : (recordEvent i).dur < 65536 := by
  cases i with
  | nullRec step dir => exact Nat.zero_lt_succ _
  | dwellRec dur dir => exact dur.isLt
  | stepRec dur step dir => exact dur.isLt

/-- Settles O13. -/
theorem timerRangeFaultsBeforeSideEffects : Obligations.TimerRangeFaultsBeforeSideEffects := by
  refine ⟨?_, ?_⟩
  · intro ev mode s hdur hfault hmax
    rw [startStep_out_of_range hdur hmax, raiseFault_of_none hfault]
  · intro p i mode hp hmode hmax
    obtain ⟨htimer, -⟩ := widths_of_valid hp
    have hdur := recordEvent_dur_lt i
    rw [armedDur_clamped hmode, lt_max_iff] at hmax
    rcases hmax with hlarge | hmin
    · omega
    · exact hmin

end Sys2Proof.Machine
end

section
/-! PROOFS. The program source, the meanings of the records and the scheduler's sub-steps
(20_memory.md section 1, 40_program_records.md section 2, 42_pulse_scheduler.md). -/

namespace Sys2Proof.Machine

/-! ## The program source -/

/-- Settles O7. -/
theorem sourceReadTakesThreeBytes : Obligations.SourceReadTakesThreeBytes := by
  intro s
  rcases srcRead_cases s with ⟨b0, b1, b2, rest, hsrc, hread⟩ | ⟨hshort, hread⟩
  · have hrest : s.src.drop 3 = rest := by rw [hsrc]; rfl
    refine ⟨fun _ => ⟨b0, b1, b2, ?_, ?_⟩, fun h => ?_⟩
    · rw [hrest, hsrc]
    · rw [hrest]; exact hread
    · simp only [srcAvail, hsrc, List.length_cons] at h; omega
  · refine ⟨fun h => ?_, fun _ => hread⟩
    simp only [srcAvail] at h; omega

/-- The fetch consumes three bytes and nothing else. -/
theorem fetchRecord_of_decode {s : State} {i : Instr} {rest : List Byte}
    (h : decode s.src = .ok (i, rest)) :
    fetchRecord s = some (i, { s with src := rest, srcPos := s.srcPos + 3 }) := by
  rw [fetchRecord_eq_decode, h]
  rfl

/-- A record that can be fetched stands decoded at the front of the source. -/
theorem fetchRecord_eq_some {s u : State} {i : Instr} (h : fetchRecord s = some (i, u)) :
    ∃ b0 b1 b2 rest, s.src = b0 :: b1 :: b2 :: rest ∧ i = decodeWord (recordWord b0 b1 b2)
      ∧ u = { s with src := rest, srcPos := s.srcPos + 3 } := by
  rcases fetchRecord_cases s with ⟨b0, b1, b2, rest, hsrc, he⟩ | ⟨-, he⟩
  · rw [he] at h
    cases h
    exact ⟨b0, b1, b2, rest, hsrc, rfl, rfl⟩
  · rw [he] at h
    cases h

/-! ## The sub-step a poll selects (42_pulse_scheduler.md R200) -/

theorem poll_of_gate {s : State} (hfault : s.fault = none) (hphase : s.phase = .gate) :
    poll s = .next (gateStep s) := by
  simp [poll, hfault, hphase]

theorem poll_of_arm {s : State} (hfault : s.fault = none) (hphase : s.phase = .arm) :
    poll s = armStep s := by
  simp [poll, hfault, hphase]

/-- A poll at WAIT_CMP with `T_CMP` pending (42_pulse_scheduler.md R210). -/
theorem poll_of_matched {s : State} (hfault : s.fault = none) (hphase : s.phase = .waitCmp)
    (hcmp : s.timer.cmp = true) : poll s = .next (fire s) := by
  simp [poll, hfault, hphase, waitCmpStep, hcmp]

/-- With FAULT set a poll has no effect (42_pulse_scheduler.md R201). -/
theorem poll_of_fault {s : State} (hfault : s.fault ≠ none) : poll s = .next s := if_pos hfault

/-- ARM runs the record that the fetch gives. -/
theorem armStep_of_fetchRecord {s u : State} {i : Instr} (hmode : s.mode = .runningProgram)
    (hfetch : fetchRecord s = some (i, u)) : armStep s = exec i u := by
  simp only [armStep, hmode, hfetch]

/-- Settles O19. -/
theorem stepRunsTheDecodedRecord : Obligations.StepRunsTheDecodedRecord := by
  intro s i rest ms hinputs hfault hphase hmode hdecode
  have hparam : s.fault ≠ some .param := by rw [hfault]; decide
  calc step s = poll (s.setInputs ms) := step_listed hparam hinputs
    _ = armStep (s.setInputs ms) := poll_of_arm hfault hphase
    _ = exec i _ := armStep_of_fetchRecord hmode (fetchRecord_of_decode hdecode)

/-! ## The meanings of the records -/

/-- The registers an ARM sub-step with motion writes (42_pulse_scheduler.md R206). -/
theorem armedState_eq {ev : StepEvent} {s : State} {d : Nat}
    (hd : armedDur s.params s.mode ev.dur (popcount ev.step).val = d) :
    armedState ev s = { s with
      zrec := false
      timer := { s.timer with state := .run, dur := d }
      dirOut := ev.dir ^^^ s.params.polarity
      ev := ⟨d, ev.step, ev.dir, popcount ev.step⟩
      phase := .waitCmp
      trace := s.trace ++ [.arm d, .dir (ev.dir ^^^ s.params.polarity)] } := by
  simp [armedState, startedState_eq, State.setZrec, State.setEv, State.setPhase, hd]

/-- The ARM sub-step on an event of duration 0 (42_pulse_scheduler.md R207). -/
theorem armEvent_zero {ev : StepEvent} (h : ev.dur = 0) (consumed : Bool) (s : State) :
    armEvent ev consumed s = { s with zrec := consumed, speed := ⟨0, 0⟩, phase := .gate } := by
  rcases armEvent_cases ev consumed s with ⟨-, he⟩ | ⟨hpos, -⟩ | ⟨hpos, -⟩ | ⟨hpos, -⟩
  · exact he
  all_goals omega

/-- The ARM sub-step on an event of positive duration in range, with a ready timer. -/
theorem armEvent_started {ev : StepEvent} {s : State} (hdur : 0 < ev.dur)
    (hready : timerBusy s.timer = false)
    (hmax : armedDur s.params s.mode ev.dur (popcount ev.step).val ≤ s.params.timerMax)
    (consumed : Bool) : armEvent ev consumed s = armedState ev s := by
  rcases armEvent_cases ev consumed s with ⟨hzero, -⟩ | ⟨-, hover, -⟩ | ⟨-, -, hbusy, -⟩ | ⟨-, -, -, he⟩
  · omega
  · omega
  · rw [hready] at hbusy; cases hbusy
  · exact he

/-- The ARM sub-step on an event beyond `TIMER_MAX` (60_exceptions.md R344). -/
theorem armEvent_out_of_range {ev : StepEvent} {s : State} (hdur : 0 < ev.dur)
    (hmax : s.params.timerMax < armedDur s.params s.mode ev.dur (popcount ev.step).val)
    (consumed : Bool) : armEvent ev consumed s = raiseFault .timerRange (s.setZrec false) := by
  rcases armEvent_cases ev consumed s with ⟨hzero, -⟩ | ⟨-, -, he⟩ | ⟨-, hin, -⟩ | ⟨-, hin, -⟩
  · omega
  · exact he
  · omega
  · omega

/-- The ARM sub-step on an event in range, with a busy timer (60_exceptions.md R345). -/
theorem armEvent_busy {ev : StepEvent} {s : State} (hdur : 0 < ev.dur)
    (hmax : armedDur s.params s.mode ev.dur (popcount ev.step).val ≤ s.params.timerMax)
    (hbusy : timerBusy s.timer = true)
    (consumed : Bool) : armEvent ev consumed s = raiseFault .armBusy (s.setZrec false) := by
  rcases armEvent_cases ev consumed s with ⟨hzero, -⟩ | ⟨-, hover, -⟩ | ⟨-, -, -, he⟩ | ⟨-, -, hready, -⟩
  · omega
  · omega
  · exact he
  · rw [hready] at hbusy; cases hbusy

/-- What an ARM sub-step leaves unchanged, whatever the event. -/
theorem armEvent_frame (ev : StepEvent) (consumed : Bool) (s : State) :
    armEvent ev consumed s = { s with
      phase := (armEvent ev consumed s).phase
      speed := (armEvent ev consumed s).speed
      ev := (armEvent ev consumed s).ev
      dirOut := (armEvent ev consumed s).dirOut
      zrec := (armEvent ev consumed s).zrec
      fault := (armEvent ev consumed s).fault
      timer := (armEvent ev consumed s).timer
      trace := (armEvent ev consumed s).trace } := by
  rcases armEvent_cases ev consumed s with ⟨-, he⟩ | ⟨-, -, he⟩ | ⟨-, -, -, he⟩ | ⟨-, -, -, he⟩
  · rw [he]; rfl
  · rw [he]; rfl
  · rw [he]; rfl
  · rw [he, armedState_eq rfl]

/-- An ARM sub-step raises neither condition of the timer, and with motion leaves the speed. -/
theorem armEvent_timer_speed (ev : StepEvent) (consumed : Bool) (s : State) :
    (armEvent ev consumed s).timer.cmp = s.timer.cmp
      ∧ (armEvent ev consumed s).timer.elapsed = s.timer.elapsed
      ∧ (ev.dur ≠ 0 → (armEvent ev consumed s).speed = s.speed) := by
  rcases armEvent_cases ev consumed s with ⟨hzero, he⟩ | ⟨-, -, he⟩ | ⟨-, -, -, he⟩ | ⟨-, -, -, he⟩
  · rw [he]
    exact ⟨rfl, rfl, fun h => absurd hzero h⟩
  · rw [he]
    exact ⟨rfl, rfl, fun _ => rfl⟩
  · rw [he]
    exact ⟨rfl, rfl, fun _ => rfl⟩
  · rw [he, armedState_eq rfl]
    exact ⟨rfl, rfl, fun _ => rfl⟩

/-- Settles O14. -/
theorem nullRecordCompletes : Obligations.NullRecordCompletes := by
  intro step dir s
  rw [exec_eq, armEvent_zero rfl]

theorem toNat_pos_of_ne_zero {dur : BitVec 16} (h : dur ≠ 0#16) : 0 < dur.toNat :=
  Nat.pos_of_ne_zero fun hzero => h (BitVec.eq_of_toNat_eq hzero)

/-- Settles O15. -/
theorem dwellRecordCompletes : Obligations.DwellRecordCompletes := by
  intro dur dir s hdur hready d hmax
  have hk : popcount 0#3 = 0 := (popcount_eq_zero_iff _).2 rfl
  have hd : armedDur s.params s.mode (recordEvent (.dwellRec dur dir)).dur
      (popcount (recordEvent (.dwellRec dur dir)).step).val = d := by
    simp only [recordEvent, hk]
    rfl
  rw [exec_eq, armEvent_started (toNat_pos_of_ne_zero hdur) hready (hd.trans_le hmax),
    armedState_eq hd]
  simp only [recordEvent, hk]

/-- Settles O16. -/
theorem stepRecordCompletes : Obligations.StepRecordCompletes := by
  intro dur step dir s hdur hready d hmax
  have hd : armedDur s.params s.mode (recordEvent (.stepRec dur step dir)).dur
      (popcount (recordEvent (.stepRec dur step dir)).step).val = d := rfl
  rw [exec_eq, armEvent_started (toNat_pos_of_ne_zero hdur) hready (hd.trans_le hmax),
    armedState_eq hd]
  rfl

/-- Settles O17. -/
theorem timedRecordFaultsAreRecorded : Obligations.TimedRecordFaultsAreRecorded := by
  intro i s hdur hfault d
  have hpos := Nat.pos_of_ne_zero hdur
  refine ⟨fun hmax => ?_, fun hmax hbusy => ?_⟩
  · rw [exec_eq, armEvent_out_of_range hpos hmax, raiseFault_of_none (s := s.setZrec false) hfault]
    rfl
  · rw [exec_eq, armEvent_busy hpos hmax (Bool.eq_true_of_not_eq_false hbusy),
      raiseFault_of_none (s := s.setZrec false) hfault]
    rfl

/-- Settles O18. -/
theorem recordsLeaveTheRestUnchanged : Obligations.RecordsLeaveTheRestUnchanged := by
  intro i s t h
  rw [exec_eq] at h
  cases h
  obtain ⟨hcmp, helapsed, hspeed⟩ := armEvent_timer_speed (recordEvent i) true s
  refine ⟨?_, hcmp, helapsed, fun hzero => ?_, hspeed⟩
  · rw [armEvent_frame]
    simp only [and_self]
  · rw [armEvent_zero hzero]
    simp only [and_self]

/-! ## GATE (42_pulse_scheduler.md section 2) -/

/-- When a program ends at GATE (42_pulse_scheduler.md R203). -/
theorem programEnds_iff (s : State) : programEnds s = true ↔ s.mode = .runningProgram
    ∧ (srcAvail s < 3 ∨ (s.params.zeroRecordEndsProgram = true ∧ s.zrec = true)) := by
  simp [programEnds]

theorem programEnds_eq_false_iff (s : State) : programEnds s = false ↔ s.mode ≠ .runningProgram
    ∨ (3 ≤ srcAvail s ∧ (s.params.zeroRecordEndsProgram = false ∨ s.zrec = false)) := by
  rw [← Bool.not_eq_true, programEnds_iff]
  by_cases hmode : s.mode = .runningProgram <;>
    simp [hmode, imp_iff_not_or]

/-- What a GATE sub-step leaves unchanged. -/
theorem gateStep_frame (s : State) :
    gateStep s = { s with
      phase := (gateStep s).phase
      mode := (gateStep s).mode
      zrec := false
      log := (gateStep s).log
      trace := (gateStep s).trace } := by
  rcases gateStep_cases s with ⟨-, -, he⟩ | ⟨-, -, he⟩ | ⟨-, -, -, he⟩ | ⟨-, -, -, he⟩ | ⟨-, -, -, he⟩
  all_goals
    rw [he]
    rfl

/-- A GATE sub-step that ends the program. -/
theorem gateStep_of_programEnds {s : State} (h : programEnds s = true) :
    gateStep s = { s with
      mode := .idle
      log := s.log.push .programEnd
      trace := s.trace ++ [.log .programEnd]
      zrec := false
      phase := if estop s then .gate else .arm } := by
  rcases gateStep_cases s with ⟨-, hstop, he⟩ | ⟨-, hstop, he⟩ | ⟨hno, -⟩ | ⟨hno, -⟩ | ⟨hno, -⟩
  · rw [he, hstop]; rfl
  · rw [he, hstop]; rfl
  all_goals rw [h] at hno; cases hno

/-- A GATE sub-step that pauses the program (42_pulse_scheduler.md R204). -/
theorem gateStep_of_pause {s : State} (hends : programEnds s = false)
    (hmode : s.mode = .runningProgram) (hstop : estop s = true) :
    gateStep s = { s with
      mode := .pausedProgram
      trace := s.trace ++ [.spindleOff]
      zrec := false
      phase := .gate } := by
  rcases gateStep_cases s with ⟨hyes, -⟩ | ⟨hyes, -⟩ | ⟨-, -, -, he⟩ | ⟨-, hno, -⟩ | ⟨-, -, hno, -⟩
  · rw [hends] at hyes; cases hyes
  · rw [hends] at hyes; cases hyes
  · rw [he]; rfl
  · exact absurd ⟨hmode, hstop⟩ hno
  · rw [hstop] at hno; cases hno

/-- A GATE sub-step that neither ends nor pauses a program (42_pulse_scheduler.md R205). -/
theorem gateStep_of_pass {s : State} (hends : programEnds s = false)
    (hpause : ¬ (s.mode = .runningProgram ∧ estop s = true)) :
    gateStep s = { s with
      zrec := false
      phase := if estop s = true ∨ s.mode = .pausedProgram then .gate else .arm } := by
  rcases gateStep_cases s with ⟨hyes, -⟩ | ⟨hyes, -⟩ | ⟨-, hmode, hstop, -⟩ | ⟨-, -, hheld, he⟩
    | ⟨-, hmode, hstop, he⟩
  · rw [hends] at hyes; cases hyes
  · rw [hends] at hyes; cases hyes
  · exact absurd ⟨hmode, hstop⟩ hpause
  · rw [he, if_pos hheld.symm]; rfl
  · rw [he, if_neg (by simp [hmode, hstop])]; rfl

/-- Where a GATE sub-step goes (42_pulse_scheduler.md R205). -/
theorem gateStep_phase (s : State) : (gateStep s).phase
    = if estop s = false ∧ (gateStep s).mode ≠ .pausedProgram then .arm else .gate := by
  rcases gateStep_cases s with ⟨-, hstop, he⟩ | ⟨-, hstop, he⟩ | ⟨-, -, hstop, he⟩ | ⟨-, -, hheld, he⟩
    | ⟨-, hmode, hstop, he⟩
  · simp [he, hstop]
  · simp [he, hstop]
  · simp [he, hstop]
  · rcases hheld with hheld | hheld <;> simp [he, hheld]
  · simp [he, hstop, hmode]

/-- Settles O21. -/
theorem gateEndsAnExhaustedProgram : Obligations.GateEndsAnExhaustedProgram := by
  intro s hfault hphase
  rw [poll_of_gate hfault hphase]
  refine ⟨fun hmode hend => ?_, fun hno => ?_⟩
  · rw [gateStep_of_programEnds ((programEnds_iff s).2 ⟨hmode, hend⟩)]
  · have hends : programEnds s = false := (programEnds_eq_false_iff s).2 hno
    by_cases hpause : s.mode = .runningProgram ∧ estop s = true
    · rw [gateStep_of_pause hends hpause.1 hpause.2]
      exact ⟨_, rfl, rfl, fun h => absurd hpause.1 h⟩
    · rw [gateStep_of_pass hends hpause]
      exact ⟨_, rfl, rfl, fun _ => rfl⟩

/-- Settles O22. -/
theorem gatePausesOnEmergencyStop : Obligations.GatePausesOnEmergencyStop := by
  intro s hfault hphase hmode hstop havail hzero
  rw [poll_of_gate hfault hphase,
    gateStep_of_pause ((programEnds_eq_false_iff s).2 (.inr ⟨havail, hzero⟩)) hmode hstop]

/-- A paused program stays paused at GATE (42_pulse_scheduler.md R220). -/
theorem gateStep_mode_of_paused {s : State} (hmode : s.mode = .pausedProgram) :
    (gateStep s).mode = .pausedProgram := by
  have hrun : s.mode ≠ .runningProgram := by rw [hmode]; decide
  rw [gateStep_of_pass ((programEnds_eq_false_iff s).2 (.inl hrun)) (fun h => hrun h.1)]
  exact hmode

/-- Settles O23. -/
theorem gatePassesOnlyWhenClear : Obligations.GatePassesOnlyWhenClear := by
  refine ⟨?_, ?_⟩
  · intro s hfault hphase hpass
    have hends : programEnds s = false :=
      (programEnds_eq_false_iff s).2 (hpass.imp id And.right)
    have hpause : ¬ (s.mode = .runningProgram ∧ estop s = true) := by
      rintro ⟨hmode, hstop⟩
      rcases hpass with hother | ⟨hclear, -⟩
      · exact hother hmode
      · rw [hclear] at hstop; cases hstop
    rw [poll_of_gate hfault hphase, gateStep_of_pass hends hpause]
  · intro s t hfault hphase h
    rw [poll_of_gate hfault hphase] at h
    cases h
    refine ⟨gateStep_phase s, ?_, ?_, ?_, ?_, ?_, gateStep_mode_of_paused⟩
    all_goals rw [gateStep_frame]

/-! ## ARM (42_pulse_scheduler.md section 3) -/

/-- The zero event starts nothing and consumes nothing (42_pulse_scheduler.md R207, R209). -/
theorem armEvent_zeroEvent (s : State) : armEvent zeroEvent false s
    = { s with zrec := false, speed := ⟨0, 0⟩, phase := .gate } := armEvent_zero rfl false s

/-- Settles O24. -/
theorem armWithoutSourceReturnsToGate : Obligations.ArmWithoutSourceReturnsToGate := by
  intro s hfault hphase hsource
  rw [poll_of_arm hfault hphase, ← armEvent_zeroEvent]
  rcases hsource with hmode | hmode | ⟨hmode, hshort⟩
  · simp only [armStep, hmode]
  · simp only [armStep, hmode]
  · simp only [armStep, hmode, (fetchRecord_eq_none_iff s).2 hshort]

/-- Settles O25. -/
theorem manualArmStartsTheSynthesizedEvent : Obligations.ManualArmStartsTheSynthesizedEvent := by
  intro s hfault hphase hmode hready ev
  have hpoll : poll s = .next (armEvent ev false (s.setSyn ⟨s.vel, s.tick⟩)) := by
    rw [poll_of_arm hfault hphase]
    simp only [armStep, hmode]
    rfl
  have hdur : armedDur (s.setSyn ⟨s.vel, s.tick⟩).params (s.setSyn ⟨s.vel, s.tick⟩).mode ev.dur
      (popcount ev.step).val = max ev.dur 2 := by
    rw [State.setSyn_mode, hmode, armedDur_manual]
  rw [hpoll]
  refine ⟨fun hzero => ?_, fun hpos hmax => ?_, fun hpos hmax => ?_⟩
  · rw [armEvent_zero hzero]
    rfl
  · rw [armEvent_started (s := s.setSyn ⟨s.vel, s.tick⟩) hpos hready (hdur.trans_le hmax),
      armedState_eq hdur]
    rfl
  · rw [armEvent_out_of_range (s := s.setSyn ⟨s.vel, s.tick⟩) hpos (hmax.trans_eq hdur.symm),
      raiseFault_of_none (s := (s.setSyn ⟨s.vel, s.tick⟩).setZrec false) hfault]
    rfl

/-! ## WAIT_CMP (42_pulse_scheduler.md section 4) -/

/-- The registers a compare-match writes (42_pulse_scheduler.md R210 to R213). -/
theorem fire_eq (s : State) : fire s = { s with
    stepOut := s.ev.step
    dirOut := dirLevels s.params s.ev.dir
    pos := stepPos s.params.posBits s.ev s.pos
    speed := ⟨s.ev.dur, s.ev.k⟩
    timer := { s.timer with cmp := false }
    phase := .waitEnd
    log := if movedDue s.params.movedPolicy s.mode s.ev.k = true then s.log.push .moved else s.log
    trace := s.trace ++ [.dir (dirLevels s.params s.ev.dir), .step s.ev.step]
      ++ (if movedDue s.params.movedPolicy s.mode s.ev.k = true then [.log .moved] else []) } := by
  cases hmoved : movedDue s.params.movedPolicy s.mode s.ev.k <;>
    simp [fire, movedNotice, hmoved, writeStep, writeDir, State.emit, State.setStepOut,
      State.setDirOut, State.setPos, State.setSpeed, State.setPhase, State.setTimer, State.setLog,
      timerClearCmp, logAppend]

/-- Settles O26. -/
theorem compareMatchFiresTheEvent : Obligations.CompareMatchFiresTheEvent := by
  intro s hfault hphase hcmp moved stepped
  refine ⟨?_, fun hinv => (hinv.dirLatched (.inl hphase)).symm⟩
  rw [poll_of_matched hfault hphase hcmp, fire_eq]
  rfl

/-- Settles O27. -/
theorem movedFollowsItsPolicy : Obligations.MovedFollowsItsPolicy := by
  intro s t hfault hphase hcmp h
  rw [poll_of_matched hfault hphase hcmp] at h
  cases h
  rw [fire_eq]
  refine ⟨fun hp => ?_, fun hp => ?_, fun hp => ?_⟩ <;> simp [hp, movedDue]

end Sys2Proof.Machine
end

section
/-! PROOFS. Mode commands, the event ring, the timer, the tick context, the host's moves and reset
(44_mode_and_events.md, 45_collaborators.md section 3, 60_exceptions.md sections 3 and 4,
70_reset_and_hazards.md section 1). -/

namespace Sys2Proof.Machine

/-! ## Modes -/

/-- Settles O37. -/
theorem startAndResumeCommands : Obligations.StartAndResumeCommands := by
  intro s
  exact ⟨rfl, rfl, rfl, rfl⟩

theorem toggleManual_of_idle {s : State} (h : s.mode = .idle) :
    toggleManual s = (true, { s with
      zero := s.raw
      mode := .manualControl
      log := s.log.push .enterManual
      trace := s.trace ++ [.log .enterManual] }) := by
  simp only [toggleManual, h]
  rfl

theorem toggleManual_of_manual {s : State} (h : s.mode = .manualControl) :
    toggleManual s = (true, { s with
      mode := .idle
      log := s.log.push .exitManual
      trace := s.trace ++ [.log .exitManual] }) := by
  simp only [toggleManual, h]
  rfl

/-- The toggle is not handled while a program runs or is paused (44_mode_and_events.md R276). -/
theorem toggleManual_of_program {s : State} (h : s.mode = .runningProgram ∨ s.mode = .pausedProgram) :
    toggleManual s = (false, s) := by
  rcases h with h | h <;> simp only [toggleManual, h]

/-- Settles O38. -/
theorem manualToggleCommand : Obligations.ManualToggleCommand := fun _ =>
  ⟨toggleManual_of_idle, toggleManual_of_manual, toggleManual_of_program, rfl⟩

/-- What the toggle leaves unchanged. -/
theorem toggleManual_frame (s : State) :
    (toggleManual s).2 = { s with
      mode := (toggleManual s).2.mode
      zero := (toggleManual s).2.zero
      log := (toggleManual s).2.log
      trace := (toggleManual s).2.trace } := by
  rcases toggleManual_cases s with ⟨-, he⟩ | ⟨-, he⟩ | ⟨-, he⟩
  · rw [he]; rfl
  · rw [he]; rfl
  · rw [he]

/-! ## The event ring (44_mode_and_events.md R281) -/

/-- An append drops the oldest entry and adds the newest. -/
theorem recent_push (l : EventLog) (e : LogEvent) : (l.push e).recent = l.recent.tail ++ [e] := by
  obtain ⟨ring, head⟩ := l
  fin_cases head <;> simp [EventLog.push, EventLog.recent]

/-- What a list of appends leaves in the ring. -/
theorem recent_foldl_push (es : List LogEvent) (l : EventLog) :
    (es.foldl EventLog.push l).recent = (l.recent ++ es).drop es.length := by
  induction es generalizing l with
  | nil => simp
  | cons e es ih =>
    rw [List.foldl_cons, ih, recent_push]
    simp [EventLog.recent]

/-- Settles O39. -/
theorem ringKeepsTheFourMostRecent : Obligations.RingKeepsTheFourMostRecent := by
  intro l es hlen
  have hring : l.recent.length = 4 := rfl
  rw [recent_foldl_push, List.drop_append, hring,
    List.drop_eq_nil_of_le (by omega), List.nil_append]

/-! ## The timer and the tick context -/

/-- Settles O41. -/
theorem timerMovesRaiseTheirFlags : Obligations.TimerMovesRaiseTheirFlags := by
  refine ⟨fun s h => ?_, fun s h => ?_⟩
  · simp only [perform, timerCompare, if_pos h]
    rfl
  · simp only [perform, timerPeriod, if_pos h]
    rfl

section
variable {s : State} {ds : List TickDuty}

theorem tickContext_of_nil (h : s.tickTodo = []) : tickContext s = tickIncrement s := by
  simp only [tickContext, h]

theorem tickContext_of_sample (h : s.tickTodo = .sample :: ds) :
    tickContext s = debounceSample s.button (s.setTickTodo ds) := by
  simp only [tickContext, h]

theorem tickContext_of_shape (h : s.tickTodo = .shape :: ds) :
    tickContext s = s.setTickTodo (velWrites (shape s.params s.raw s.zero) ++ ds) := by
  simp only [tickContext, h]

theorem tickContext_of_writeVel {a : Axis} {v : Velocity} (h : s.tickTodo = .writeVel a v :: ds) :
    tickContext s = (s.setTickTodo ds).setVel (s.vel.set a v) := by
  simp only [tickContext, h]

end

/-- What a debouncer sample leaves unchanged. -/
theorem debounceSample_frame (b : Bool) (s : State) :
    debounceSample b s = { s with
      db := (debounceSample b s).db
      mode := (debounceSample b s).mode
      zero := (debounceSample b s).zero
      log := (debounceSample b s).log
      trace := (debounceSample b s).trace } := by
  obtain ⟨d, -, ⟨-, -, -, he⟩ | ⟨-, -, he⟩ | ⟨-, he⟩⟩ := debounceSample_cases b s
  · rw [he, toggleManual_frame]
    rfl
  · rw [he]
    rfl
  · rw [he]
    rfl

/-- Only the increment writes `TICK` (60_exceptions.md R358). -/
theorem tickContext_tick_of_ne_nil {s : State} (h : s.tickTodo ≠ []) :
    (tickContext s).tick = s.tick := by
  rcases tickContext_cases s with ⟨hnil, -⟩ | ⟨ds, -, he⟩ | ⟨ds, -, he⟩ | ⟨a, v, ds, -, he⟩
  · exact absurd hnil h
  · rw [he, debounceSample_frame, State.setTickTodo_tick]
  · rw [he]
    rfl
  · rw [he]
    rfl

/-- Settles O42. -/
theorem tickMakesItsDutiesDue : Obligations.TickMakesItsDutiesDue := by
  intro s
  have hperform : perform .tickContext s = .next (tickContext s) := rfl
  rw [hperform]
  refine ⟨fun h => ?_, fun h => ⟨_, rfl, tickContext_tick_of_ne_nil h⟩, fun ds h => ⟨?_, ?_⟩,
    fun ds h => ?_, fun a v ds h => ?_, rfl⟩
  · rw [tickContext_of_nil h]
    rfl
  · rw [tickContext_of_sample h]
    rfl
  · rw [debounceSample_frame]
  · rw [tickContext_of_shape h]
    rfl
  · rw [tickContext_of_writeVel h]
    rfl

/-- Settles O54: the owed writes come off the list one by one. -/
theorem shaperWritesOneComponentAMove : Obligations.ShaperWritesOneComponentAMove := by
  intro s ds h v s1 s2 s3 s4
  have h1 : s1 = s.setTickTodo (velWrites v ++ ds) := tickContext_of_shape h
  have h2 : s2 = { s with
      vel := ⟨v.x, s.vel.y, s.vel.z⟩, tickTodo := .writeVel .y v.y :: .writeVel .z v.z :: ds } :=
    tickContext_of_writeVel (by rw [h1]; rfl) |>.trans (by rw [h1]; rfl)
  have h3 : s3 = { s with vel := ⟨v.x, v.y, s.vel.z⟩, tickTodo := .writeVel .z v.z :: ds } :=
    tickContext_of_writeVel (by rw [h2]) |>.trans (by rw [h2]; rfl)
  have h4 : s4 = { s with vel := v, tickTodo := ds } :=
    tickContext_of_writeVel (by rw [h3]) |>.trans (by rw [h3]; rfl)
  rw [h1, h2, h3]
  exact ⟨rfl, rfl, rfl, h4⟩

/-! ## The host's moves -/

/-- What a register array holds after a write to one element. -/
theorem axis3_get_set {α : Type} (v : Axis3 α) (a b : Axis) (c : α) :
    (v.set a c).get b = if b = a then c else v.get b := by
  cases a <;> cases b <;> rfl

/-- A host velocity denotes the real number written. -/
theorem velReal_hostVelocity (p : Params) (x : RealNumber) : velReal p (hostVelocity x) = x.value := by
  cases x <;> rfl

theorem srcDropTail_eq (s : State) : srcDropTail s = { s with
    src := if srcAvail s < 3 ∧ (s.mode = .idle ∨ s.mode = .manualControl) then [] else s.src } := by
  unfold srcDropTail
  split <;> rfl

/-- Settles O45. -/
theorem hostMovesWriteOneInput : Obligations.HostMovesWriteOneInput := by
  intro s level a v x bytes
  refine ⟨rfl, rfl, ⟨_, rfl, rfl, fun b => axis3_get_set s.raw a b v⟩, ⟨_, rfl, rfl, ?_, ?_⟩, rfl, ?_, rfl⟩
  · rw [State.setVel_vel, axis3_get_set, if_pos rfl, velReal_hostVelocity]
  · intro b hb
    rw [State.setVel_vel, axis3_get_set, if_neg hb]
  · rw [← srcDropTail_eq]
    rfl

/-- A run whose first move is listed goes on from the state that move gives. -/
theorem core_run_listed {s t : State} {m : Move} {ms : List Move} (n : Nat)
    (hfault : s.fault ≠ some .param) (hinputs : s.inputs = m :: ms)
    (hmove : perform m (s.setInputs ms) = .next t) :
    Sys2Proof.core.run (n + 1) s = Sys2Proof.core.run n t :=
  core_run_succ n ((step_listed hfault hinputs).trans hmove)

/-- A run whose next moves are listed reads of Position. -/
theorem core_run_readPos {s : State} {a : Axis} {ms : List Move} (n : Nat)
    (hfault : s.fault ≠ some .param) (hinputs : s.inputs = .readPos a :: ms) :
    Sys2Proof.core.run (n + 1) s
      = Sys2Proof.core.run n { s with inputs := ms, posRead := s.posRead.set a (s.pos.get a) } :=
  core_run_listed n hfault hinputs rfl

/-- Settles O46: each listed move is run in turn. -/
theorem positionIsReadAxisByAxis : Obligations.PositionIsReadAxisByAxis := by
  refine ⟨fun s a => ⟨_, rfl, rfl, fun b => axis3_get_set s.posRead a b _⟩, ?_, ?_⟩
  · intro s ms hfault hinputs
    refine (core_run_readPos 2 hfault hinputs).trans ?_
    refine Eq.trans (core_run_readPos 1 (by exact hfault) rfl) ?_
    exact Eq.trans (core_run_readPos 0 (by exact hfault) rfl) rfl
  · intro s ms hfault hphase hcmp hinputs
    have hparam : s.fault ≠ some .param := by rw [hfault]; decide
    obtain ⟨u, hu⟩ : ∃ u, u = fire { s with
      inputs := [.readPos .y, .readPos .z] ++ ms, posRead := s.posRead.set .x s.pos.x } := ⟨_, rfl⟩
    have hpoll : perform .poll { s with
        inputs := [.readPos .y, .readPos .z] ++ ms, posRead := s.posRead.set .x s.pos.x } = .next u := by
      rw [hu]; exact poll_of_matched hfault hphase hcmp
    rw [fire_eq] at hu
    have hinputs' : u.inputs = .readPos .y :: .readPos .z :: ms := by rw [hu]; rfl
    have hparam' : u.fault ≠ some .param := by rw [hu]; exact hparam
    refine ⟨{ u with inputs := ms, posRead := (u.posRead.set .y u.pos.y).set .z u.pos.z }, ?_, ?_, ?_⟩
    · refine (core_run_readPos 3 hparam hinputs).trans ?_
      refine Eq.trans (core_run_listed 2 (by exact hparam) rfl hpoll) ?_
      refine (core_run_readPos 1 hparam' hinputs').trans ?_
      exact Eq.trans (core_run_readPos 0 (by exact hparam') rfl) rfl
    · rw [hu]; rfl
    · rw [hu]

/-! ## Reset -/

/-- Settles O55. -/
theorem resetLeavesTheStatedValues : Obligations.ResetLeavesTheStatedValues := by
  intro b
  refine ⟨rfl, rfl, rfl, rfl, rfl, rfl, rfl, rfl, rfl, rfl, rfl, rfl, rfl, rfl, rfl, rfl, rfl, rfl, rfl,
    rfl, rfl⟩

/-- Settles O56. -/
theorem invariantHoldsAtReset : Obligations.InvariantHoldsAtReset := by
  intro b
  have hidle : ¬ inFlight (State.boot b) := by
    rintro (h | h) <;> cases h
  have hfault : (State.boot b).fault = if b.params.valid = true then none else some .param := rfl
  constructor
  case paramFault =>
    rw [hfault]
    change _ ↔ b.params.valid = false
    cases b.params.valid <;> simp
  case neverBusy =>
    rw [hfault]
    split <;> simp
  case ready => exact fun _ => rfl
  case beforeFire => intro h; cases h
  case afterFire => intro h; cases h
  case armedDur => exact fun h => absurd h hidle
  case minWidth => exact fun h => absurd h hidle
  case evRange => exact Nat.zero_le _
  case speedRange => exact Nat.zero_le _
  case evCount => exact (popcount_eq_zero_iff _).2 rfl |>.symm
  case dirLatched => exact fun h => absurd h hidle
  case stepLines => rfl
  case pausedAtGate => exact fun _ => rfl
  case zrecAtArm => exact fun _ => rfl
  case posRange =>
    intro a
    have hzero : (State.boot b).pos.get a = 0 := by cases a <;> rfl
    rw [hzero]
    exact ⟨by simp, by positivity⟩
  case tickRange => exact Nat.two_pow_pos _
  case synTickRange => exact Nat.two_pow_pos _
  case dbRange => exact Nat.zero_le _
  case framing => rfl
  case velocities => rfl
  case synVelocities => rfl
  case duties => rfl

end Sys2Proof.Machine
end

section
/-! PROOFS. The Input Debouncer (45_collaborators.md section 2). -/

namespace Sys2Proof.Machine

/-! ## One sample -/

@[simp] theorem debounceCount_state (cap : Nat) (d : Debouncer) (b : Bool) :
    (debounceCount cap d b).state = d.state := by
  unfold debounceCount
  split
  · rfl
  · split <;> rfl

/-- What a debounced edge to `b` calls: a rising one `ToggleManual`, a falling one nothing
(45_collaborators.md R314). -/
def debounceEdge (b : Bool) (s : State) : State := if b then (toggleManual s).2 else s

/-- A sample that does not bring the count to the cap writes the debouncer only. -/
theorem debounceSample_of_count_ne {b : Bool} {s : State}
    (h : (debounceCount s.params.dbCap s.db b).count ≠ s.params.dbCap) :
    debounceSample b s = s.setDb (debounceCount s.params.dbCap s.db b) := by
  simp only [debounceSample, if_neg h]

/-- A sample that leaves the count at the cap at the accepted value writes the debouncer only. -/
theorem debounceSample_of_accepted {b : Bool} {s : State}
    (h : (debounceCount s.params.dbCap s.db b).last = s.db.state) :
    debounceSample b s = s.setDb (debounceCount s.params.dbCap s.db b) := by
  have hstate := debounceCount_state s.params.dbCap s.db b
  obtain ⟨d, rfl, ⟨-, hlow, hhigh, -⟩ | ⟨-, -, he⟩ | ⟨-, he⟩⟩ := debounceSample_cases b s
  · rw [hhigh, ← hstate, hlow] at h
    cases h
  · exact he.trans (congrArg (fun v => s.setDb { debounceCount s.params.dbCap s.db b with state := v })
      (h.trans hstate.symm))
  · exact he

/-- The sample that brings the count of the other value to the cap accepts it and calls the edge. -/
theorem debounceSample_of_edge {b : Bool} {s : State}
    (h : debounceCount s.params.dbCap s.db b = ⟨b, s.params.dbCap, !b⟩) :
    debounceSample b s
      = (debounceEdge b (s.setDb ⟨b, s.params.dbCap, !b⟩)).setDb ⟨b, s.params.dbCap, b⟩ := by
  simp only [debounceSample, h, debounceEdge, if_true]
  cases b <;> rfl

/-! ## A bouncing button (45_collaborators.md R315) -/

/-- The samples already counted and those to come, after a sample, end the list they were before it. -/
theorem counted_suffix (cap : Nat) (d : Debouncer) (b : Bool) (rest : List Bool) :
    List.replicate (debounceCount cap d b).count (debounceCount cap d b).last ++ rest
      <:+ List.replicate d.count d.last ++ b :: rest := by
  unfold debounceCount
  split
  · exact List.suffix_append _ _
  · next hsame =>
    rw [not_not.1 hsame]
    have hshift : ∀ n, List.replicate n d.last ++ d.last :: rest
        = List.replicate (n + 1) d.last ++ rest := by
      intro n
      rw [List.replicate_succ', List.append_assoc, List.singleton_append]
    rw [hshift]
    split
    · exact List.suffix_rfl
    · rw [List.replicate_succ, List.cons_append]
      exact List.suffix_cons _ _

/-- Samples that, with those counted, never stay for the cap at the other value write the debouncer's
count only, one sample at a time. -/
theorem debounceSample_of_bounce {s : State} {b : Bool} {rest : List Bool}
    (h : ¬ List.replicate s.params.dbCap (!s.db.state) <:+:
      List.replicate s.db.count s.db.last ++ b :: rest) :
    debounceSample b s = s.setDb (debounceCount s.params.dbCap s.db b) := by
  by_cases hcount : (debounceCount s.params.dbCap s.db b).count = s.params.dbCap
  · apply debounceSample_of_accepted
    by_contra hother
    refine h ?_
    have hrun := (counted_suffix s.params.dbCap s.db b rest).isInfix
    rw [hcount, Bool.eq_not_of_ne hother] at hrun
    exact (List.prefix_append _ _).isInfix.trans hrun
  · exact debounceSample_of_count_ne hcount

/-- Settles O44, by induction on the samples: what is counted and still to come keeps the premise. -/
theorem bouncingButtonNeverToggles : Obligations.BouncingButtonNeverToggles := by
  intro s samples
  induction samples generalizing s with
  | nil => exact fun _ => ⟨rfl, rfl⟩
  | cons b rest ih =>
    intro h
    have hrest : ¬ List.replicate s.params.dbCap
          (!(debounceCount s.params.dbCap s.db b).state) <:+:
        List.replicate (debounceCount s.params.dbCap s.db b).count
          (debounceCount s.params.dbCap s.db b).last ++ rest := by
      rw [debounceCount_state]
      exact fun hin => h (hin.trans (counted_suffix s.params.dbCap s.db b rest).isInfix)
    obtain ⟨hframe, hstate⟩ := ih (s.setDb (debounceCount s.params.dbCap s.db b)) hrest
    have hrun : debounceRun s (b :: rest)
        = debounceRun (s.setDb (debounceCount s.params.dbCap s.db b)) rest := by
      rw [debounceRun, List.foldl_cons, debounceSample_of_bounce h]
      rfl
    simp only [hrun]
    refine ⟨?_, hstate.trans (debounceCount_state _ _ _)⟩
    rw [hframe]
    rfl

/-! ## A held button (45_collaborators.md R313) -/

theorem debounceRun_replicate_succ (s : State) (n : Nat) (b : Bool) :
    debounceRun s (List.replicate (n + 1) b) = debounceSample b (debounceRun s (List.replicate n b)) := by
  rw [debounceRun, List.replicate_succ', List.foldl_append]
  rfl

/-- The debouncer has accepted the other value and counted `n` samples of `b` in a row. -/
def HeldFor (b : Bool) (n : Nat) (d : Debouncer) : Prop :=
  (n = 0 ∧ d.last = !b ∧ d.state = !b) ∨ (0 < n ∧ d = ⟨b, n, !b⟩)

/-- One more sample of the same value. -/
theorem HeldFor.count_succ {b : Bool} {n cap : Nat} {d : Debouncer} (h : HeldFor b n d) (hn : n < cap) :
    debounceCount cap d b = ⟨b, n + 1, !b⟩ := by
  rcases h with ⟨rfl, hlast, hstate⟩ | ⟨-, rfl⟩
  · simp [debounceCount, hlast, hstate]
  · simp [debounceCount, hn]

/-- Below the cap a held value moves only the count. -/
theorem debounceRun_below_cap {s : State} {b : Bool} (h : HeldFor b 0 s.db) :
    ∀ n < s.params.dbCap, ∃ d, HeldFor b n d ∧ debounceRun s (List.replicate n b) = s.setDb d := by
  intro n
  induction n with
  | zero => exact fun _ => ⟨s.db, h, rfl⟩
  | succ n ih =>
    intro hn
    obtain ⟨d, hd, hrun⟩ := ih (by omega)
    have hcount : debounceCount s.params.dbCap d b = ⟨b, n + 1, !b⟩ := hd.count_succ (by omega)
    refine ⟨⟨b, n + 1, !b⟩, .inr ⟨by omega, rfl⟩, ?_⟩
    rw [debounceRun_replicate_succ, hrun, debounceSample_of_count_ne]
    · simp only [State.setDb_params, State.setDb_db, hcount]
      rfl
    · simp only [State.setDb_params, State.setDb_db, hcount]
      omega

/-- At the cap a held value is accepted, with its edge called. -/
theorem debounceRun_at_cap {s : State} {b : Bool} (h : HeldFor b 0 s.db) (hcap : 1 ≤ s.params.dbCap) :
    debounceRun s (List.replicate s.params.dbCap b)
      = (debounceEdge b (s.setDb ⟨b, s.params.dbCap, !b⟩)).setDb ⟨b, s.params.dbCap, b⟩ := by
  obtain ⟨m, hm⟩ : ∃ m, s.params.dbCap = m + 1 := ⟨s.params.dbCap - 1, by omega⟩
  obtain ⟨d, hd, hrun⟩ := debounceRun_below_cap h m (by omega)
  have hcount : debounceCount s.params.dbCap d b = ⟨b, s.params.dbCap, !b⟩ := by
    rw [hd.count_succ (by omega), hm]
  calc debounceRun s (List.replicate s.params.dbCap b)
      = debounceSample b (debounceRun s (List.replicate m b)) := by
        rw [hm, debounceRun_replicate_succ]
    _ = debounceSample b (s.setDb d) := by rw [hrun]
    _ = _ := debounceSample_of_edge (s := s.setDb d) hcount

/-- An accepted value that stays changes nothing more. -/
theorem debounceRun_of_settled {s : State} {b : Bool} (h : s.db = ⟨b, s.params.dbCap, b⟩) (n : Nat) :
    debounceRun s (List.replicate n b) = s := by
  induction n with
  | zero => rfl
  | succ n ih =>
    have hcount : debounceCount s.params.dbCap s.db b = s.db := by
      simp [debounceCount, h]
    rw [debounceRun_replicate_succ, ih, debounceSample_of_accepted, hcount]
    · rfl
    · rw [hcount, h]

@[simp] theorem debounceEdge_params (b : Bool) (s : State) : (debounceEdge b s).params = s.params := by
  unfold debounceEdge
  split
  · rw [toggleManual_frame]
  · rfl

/-- From the cap on a held value is as it was accepted. -/
theorem debounceRun_from_cap {s : State} {b : Bool} (h : HeldFor b 0 s.db) (hcap : 1 ≤ s.params.dbCap)
    {n : Nat} (hn : s.params.dbCap ≤ n) :
    debounceRun s (List.replicate n b)
      = (debounceEdge b (s.setDb ⟨b, s.params.dbCap, !b⟩)).setDb ⟨b, s.params.dbCap, b⟩ := by
  obtain ⟨m, rfl⟩ := Nat.exists_eq_add_of_le hn
  rw [List.replicate_add, debounceRun, List.foldl_append]
  change debounceRun (debounceRun s (List.replicate s.params.dbCap b)) (List.replicate m b) = _
  rw [debounceRun_at_cap h hcap, debounceRun_of_settled]
  simp

/-- Settles O43. -/
theorem heldButtonTogglesOnce : Obligations.HeldButtonTogglesOnce := by
  intro s n hcap
  refine ⟨?_, ?_⟩
  · intro hlast hstate t high
    have hheld : HeldFor true 0 s.db := .inl ⟨rfl, hlast, hstate⟩
    have hfrom : s.params.dbCap ≤ n →
        t = (toggleManual (s.setDb ⟨true, s.params.dbCap, false⟩)).2.setDb high :=
      debounceRun_from_cap hheld hcap
    refine ⟨fun hn => ?_, fun hn hmode => ?_, fun hn hmode => ?_, fun hn hmode => ?_⟩
    · obtain ⟨d, -, hrun⟩ := debounceRun_below_cap hheld n hn
      simp only [t, hrun]
      rfl
    · rw [hfrom hn, toggleManual_of_idle (by exact hmode)]
      rfl
    · rw [hfrom hn, toggleManual_of_manual (by exact hmode)]
      rfl
    · rw [hfrom hn, toggleManual_of_program (by exact hmode)]
      rfl
  · intro hlast hstate t
    have hheld : HeldFor false 0 s.db := .inl ⟨rfl, hlast, hstate⟩
    have hfrom : s.params.dbCap ≤ n → t = s.setDb ⟨false, s.params.dbCap, false⟩ :=
      debounceRun_from_cap hheld hcap
    refine ⟨?_, fun hn => ?_⟩
    · rcases Nat.lt_or_ge n s.params.dbCap with hn | hn
      · obtain ⟨d, -, hrun⟩ := debounceRun_below_cap hheld n hn
        simp only [t, hrun]
        rfl
      · rw [hfrom hn]
        rfl
    · rw [hfrom hn]
      rfl

end Sys2Proof.Machine
end

section
/-! PROOFS. Velocities and the Manual Step Synthesizer (43_manual_synthesizer.md, 45_collaborators.md
section 1). -/

namespace Sys2Proof.Machine

/-! ## The real number a component denotes -/

theorem realScalar_pos {feedMin feedMax : ℝ} (hmin : 0 < feedMin) (hmax : 0 < feedMax) (mag : ℝ) :
    0 < realScalar feedMin feedMax mag :=
  mul_pos (Real.rpow_pos_of_pos (by positivity) _) (Real.rpow_pos_of_pos (by positivity) _)

/-- What a well-formed shaped component is (45_collaborators.md R301 to R308). -/
theorem velocityWf_shaped_iff (p : Params) (c : ℤ) (q m : ℕ) :
    velocityWf p (.shaped c q m) = true ↔ c ≠ 0 ∧ c.natAbs * c.natAbs ≤ m ∧ m ≤ q ∧ q ≤ 195075
      ∧ inDeadzone p q = false := by
  simp only [velocityWf, Bool.and_eq_true, decide_eq_true_iff, Bool.not_eq_true', and_assoc]

/-- A well-formed shaped component is its integer times a positive real. -/
theorem velReal_shaped_eq_mul {p : Params} {c : ℤ} {q m : ℕ} (hp : p.valid = true)
    (hwf : velocityWf p (.shaped c q m) = true) :
    ∃ k : ℝ, 0 < k ∧ velReal p (.shaped c q m) = c * k := by
  obtain ⟨-, -, -, -, hout⟩ := (velocityWf_shaped_iff p c q m).1 hwf
  obtain ⟨h0, h1, -⟩ := radii_of_valid hp
  obtain ⟨hmin, hmax⟩ := feeds_pos_of_valid hp
  have hq := sqrt_pos_of_not_inDeadzone h0 hout
  have hd := realDeflection_pos h0 h1 hout
  refine ⟨1 / Real.sqrt q * realDeflection p.dz.value (Real.sqrt q / 128)
    * realScalar p.feedMin.value p.feedMax.value
      (Real.sqrt m / Real.sqrt q * realDeflection p.dz.value (Real.sqrt q / 128)), ?_, ?_⟩
  · have := realScalar_pos hmin hmax
      (Real.sqrt m / Real.sqrt q * realDeflection p.dz.value (Real.sqrt q / 128))
    positivity
  · simp only [velReal]
    ring

theorem velReal_shaped_ne_zero {p : Params} {c : ℤ} {q m : ℕ} (hp : p.valid = true)
    (hwf : velocityWf p (.shaped c q m) = true) : velReal p (.shaped c q m) ≠ 0 := by
  obtain ⟨hc, -⟩ := (velocityWf_shaped_iff p c q m).1 hwf
  obtain ⟨k, hk, he⟩ := velReal_shaped_eq_mul hp hwf
  rw [he]
  exact mul_ne_zero (by exact_mod_cast hc) hk.ne'

/-- Settles O51. -/
theorem velocityTestsAgreeWithTheReals : Obligations.VelocityTestsAgreeWithTheReals := by
  intro p v hp hwf
  cases v with
  | exact v =>
    simp only [velIsZero, velIsPositive, velReal, beq_iff_eq, decide_eq_true_iff, Rat.cast_eq_zero,
      Rat.cast_pos, Rat.num_eq_zero, Rat.num_pos, and_self]
  | constant n => exact ⟨exactly_iff _, exactly_iff _⟩
  | shaped c q m =>
    obtain ⟨k, hk, he⟩ := velReal_shaped_eq_mul hp hwf
    rw [he]
    simp only [velIsZero, velIsPositive, beq_iff_eq, decide_eq_true_iff, mul_eq_zero, hk.ne', or_false,
      Int.cast_eq_zero, mul_pos_iff_of_pos_right hk, Int.cast_pos, and_self]

/-! ## The period (43_manual_synthesizer.md R241) -/

/-- The period of a rational velocity is that of its real value. -/
theorem exactPeriod_eq_realPeriod {p : Params} (hclk : 0 < p.fClk) (hspm : 0 < p.spm) (v : ℚ) :
    exactPeriod p v = realPeriod p (v : ℝ) := by
  have hcast : ∀ q : ℚ, |(q : ℝ)| = (q.num.natAbs : ℝ) / q.den := by
    intro q
    rw [Rat.cast_def, abs_div, Nat.abs_cast, Nat.cast_natAbs, Int.cast_abs]
  have hclk' : (p.fClk : ℝ) = (p.fClk.num.natAbs : ℝ) / p.fClk.den := by
    rw [← hcast, abs_of_pos (by exact_mod_cast hclk)]
  have hspm' : (p.spm : ℝ) = (p.spm.num.natAbs : ℝ) / p.spm.den := by
    rw [← hcast, abs_of_pos (by exact_mod_cast hspm)]
  have hquot : (p.fClk : ℝ) / (|(v : ℝ)| * p.spm)
      = ((p.fClk.num.natAbs * v.den * p.spm.den : ℕ) : ℝ)
        / ((p.fClk.den * v.num.natAbs * p.spm.num.natAbs : ℕ) : ℝ) := by
    rw [hcast v, hclk', hspm']
    push_cast
    rw [div_mul_div_comm, div_div_div_eq]
    ring
  rw [exactPeriod, realPeriod, hquot, Nat.floor_div_eq_div]

/-- The rational bounds of a shaped component's speed bound its period (log 13). -/
theorem realPeriod_shaped_bounds {p : Params} {r : ShaperRationals} {c : ℤ} {q m : ℕ}
    (hp : p.valid = true) (hr : p.shaperRationals = some r)
    (hwf : velocityWf p (.shaped c q m) = true) :
    speedPeriod p (speedBounds r c q m).hi ≤ realPeriod p (velReal p (.shaped c q m))
      ∧ (0 < (speedBounds r c q m).lo →
        realPeriod p (velReal p (.shaped c q m)) ≤ speedPeriod p (speedBounds r c q m).lo) := by
  obtain ⟨-, -, hmq, -, hout⟩ := (velocityWf_shaped_iff p c q m).1 hwf
  obtain ⟨hclk, hspm, -⟩ := rates_pos_of_valid hp
  obtain ⟨h0, h1, -⟩ := radii_of_valid hp
  obtain ⟨hmin, hmax⟩ := feeds_pos_of_valid hp
  have hd := realDeflection_pos h0 h1 hout
  have hq : 0 < q := by exact_mod_cast Real.sqrt_pos.1 (sqrt_pos_of_not_inDeadzone h0 hout)
  obtain ⟨hdz, hfmin, hfmax⟩ := shaperRationals_eq_some hr
  rw [hdz, RealNumber.value_rational] at h1 hd
  rw [hfmin, RealNumber.value_rational] at hmin
  rw [hfmax, RealNumber.value_rational] at hmax
  obtain ⟨hlo, hhi⟩ := speedBounds_contains (c := c) hr (by exact_mod_cast h1) (by exact_mod_cast hmin)
    (by exact_mod_cast hmax) hd hq hmq
  have hpos : 0 < |velReal p (.shaped c q m)| := abs_pos.2 (velReal_shaped_ne_zero hp hwf)
  have hhi0 : (0 : ℝ) ≤ (speedBounds r c q m).hi := hpos.le.trans hhi
  refine ⟨?_, fun hlo0 => ?_⟩
  · rw [speedPeriod_eq hclk hspm (by exact_mod_cast hhi0)]
    exact realPeriod_anti hclk hspm hpos (by rwa [abs_of_nonneg hhi0])
  · have hlo0' : (0 : ℝ) < (speedBounds r c q m).lo := by exact_mod_cast hlo0
    rw [speedPeriod_eq hclk hspm hlo0.le]
    exact realPeriod_anti hclk hspm (abs_pos.2 hlo0'.ne') (by rwa [abs_of_pos hlo0'])

/-- The period of a shaped component is the real formula's: where the bounds settle it, both ends of the
interval give the same period. -/
theorem period_shaped_eq_realPeriod {p : Params} {c : ℤ} {q m : ℕ} (hp : p.valid = true)
    (hwf : velocityWf p (.shaped c q m) = true) :
    period p (.shaped c q m) = realPeriod p (velReal p (.shaped c q m)) := by
  cases hr : p.shaperRationals with
  | none => simp only [period, shapedPeriod, hr]
  | some r =>
    cases hsettled : periodSettled p (speedBounds r c q m) with
    | false => exact period_unsettled hr hsettled
    | true =>
      obtain ⟨hupper, hlower⟩ := realPeriod_shaped_bounds hp hr hwf
      simp only [periodSettled, Bool.and_eq_true, decide_eq_true_iff] at hsettled
      obtain ⟨hlo, hmeet⟩ := hsettled
      rw [period_settled hr (by simp [periodSettled, hlo, hmeet])]
      exact hupper.antisymm ((hlower hlo).trans hmeet)

/-- Settles O50. -/
theorem periodIsTheExactFloor : Obligations.PeriodIsTheExactFloor := by
  refine ⟨fun p v hp hwf _ => ?_, fun p r c q m hp hr hwf => ?_⟩
  · obtain ⟨hclk, hspm, -⟩ := rates_pos_of_valid hp
    cases v with
    | exact v => exact exactPeriod_eq_realPeriod hclk hspm v
    | constant n => rfl
    | shaped c q m => exact period_shaped_eq_realPeriod hp hwf
  · rw [period_shaped_eq_realPeriod hp hwf]
    exact realPeriod_shaped_bounds hp hr hwf

/-- No period is 0. -/
theorem period_pos (p : Params) (v : Velocity) : 1 ≤ period p v := by
  cases v with
  | exact v => exact le_max_left _ _
  | constant n => exact le_max_left _ _
  | shaped c q m =>
    simp only [period, shapedPeriod]
    split
    · split
      · exact le_max_left _ _
      · exact le_max_left _ _
    · exact le_max_left _ _

/-! ## The synthesizer's loop (43_manual_synthesizer.md R243) -/

/-- The remaining time lies in `1..P` and ends at a multiple of `P` (43_manual_synthesizer.md R242). -/
theorem remaining_spec (t : Nat) {P : Nat} (hP : 1 ≤ P) :
    1 ≤ remaining t P ∧ remaining t P ≤ P ∧ (t + remaining t P) % P = 0 := by
  have hlt : t % P < P := Nat.mod_lt t hP
  have hsum : t + remaining t P = P * (t / P + 1) := by
    have hdiv := Nat.div_add_mod t P
    rw [remaining, Nat.mul_add, Nat.mul_one]
    omega
  refine ⟨?_, Nat.sub_le _ _, ?_⟩
  · rw [remaining]; omega
  · rw [hsum, Nat.mul_mod_right]

@[simp] theorem line_zero (a : Axis) : line 0#3 a = false := by
  cases a <;> rfl

@[simp] theorem line_setLine (v : Lines) (a b : Axis) :
    line (setLine v a) b = (line v b || decide (b = a)) := by
  cases a <;> cases b <;> revert v <;> decide

/-- The direction flags after a turn for an axis (43_manual_synthesizer.md R244). -/
noncomputable def turnDir (a : Axis) (v : Velocity) (dir : Lines) : Lines :=
  if velIsPositive v then setLine dir a else dir

/-- A turn of the loop writes the direction flag first, in every case. -/
theorem synthAxis_eq (p : Params) (t : Nat) (a : Axis) (v : Velocity) (acc : SynthAcc) :
    synthAxis p t a v acc =
      if velIsZero v then { acc with dir := turnDir a v acc.dir }
      else if !acc.found || decide (remaining t (period p v) < acc.dur) then
        ⟨remaining t (period p v), true, setLine 0#3 a, turnDir a v acc.dir⟩
      else if remaining t (period p v) = acc.dur then
        { acc with step := setLine acc.step a, dir := turnDir a v acc.dir }
      else { acc with dir := turnDir a v acc.dir } := by
  unfold synthAxis turnDir
  cases velIsPositive v <;> rfl

theorem synthAxis_dir (p : Params) (t : Nat) (a : Axis) (v : Velocity) (acc : SynthAcc) :
    (synthAxis p t a v acc).dir = turnDir a v acc.dir := by
  rw [synthAxis_eq]
  split
  · rfl
  · split
    · rfl
    · split <;> rfl

theorem line_turnDir (a b : Axis) (v : Velocity) (dir : Lines) :
    line (turnDir a v dir) b = (line dir b || (decide (b = a) && velIsPositive v)) := by
  unfold turnDir
  cases velIsPositive v <;> simp

/-- What the loop has established of the axes it has passed: the step flags are the axes of the least
remaining time, which is the duration. -/
structure LoopInv (moving : Axis → Prop) (rem : Axis → Nat) (done : List Axis) (acc : SynthAcc) :
    Prop where
  step : ∀ b, line acc.step b = true ↔ b ∈ done ∧ moving b ∧ rem b = acc.dur
  least : ∀ b ∈ done, moving b → acc.dur ≤ rem b
  attained : acc.found = true → ∃ b, line acc.step b = true
  found : ∀ b ∈ done, moving b → acc.found = true
  idle : acc.found = false → acc.dur = 0

section
variable {moving : Axis → Prop} {rem : Axis → Nat} {done : List Axis} {acc : SynthAcc} {a : Axis}

theorem LoopInv.start : LoopInv moving rem [] ⟨0, false, 0#3, 0#3⟩ := by
  constructor <;> simp

/-- The loop's state but for the direction flags is all the invariant speaks of. -/
theorem LoopInv.of_dir {dir : Lines} (h : LoopInv moving rem done acc) :
    LoopInv moving rem done { acc with dir := dir } := { h with }

/-- An axis at rest is passed. -/
theorem LoopInv.skip (h : LoopInv moving rem done acc) (ha : ¬ moving a) :
    LoopInv moving rem (a :: done) acc where
  step b := by
    rw [h.step, List.mem_cons]
    constructor
    · exact fun ⟨hdone, hb⟩ => ⟨.inr hdone, hb⟩
    · rintro ⟨rfl | hdone, hmoving, hrem⟩
      · exact absurd hmoving ha
      · exact ⟨hdone, hmoving, hrem⟩
  least b hb hmoving := by
    rcases List.mem_cons.1 hb with rfl | hdone
    · exact absurd hmoving ha
    · exact h.least b hdone hmoving
  attained := h.attained
  found b hb hmoving := by
    rcases List.mem_cons.1 hb with rfl | hdone
    · exact absurd hmoving ha
    · exact h.found b hdone hmoving
  idle := h.idle

/-- A strictly smaller remaining time replaces the flags. -/
theorem LoopInv.replace (h : LoopInv moving rem done acc) (ha : moving a)
    (hless : acc.found = false ∨ rem a < acc.dur) :
    LoopInv moving rem (a :: done) ⟨rem a, true, setLine 0#3 a, acc.dir⟩ := by
  have habove : ∀ b ∈ done, moving b → rem a < rem b := by
    intro b hb hmoving
    rcases hless with hnone | hless
    · rw [h.found b hb hmoving] at hnone
      cases hnone
    · exact hless.trans_le (h.least b hb hmoving)
  constructor
  case step =>
    intro b
    simp only [line_setLine, line_zero, Bool.false_or, decide_eq_true_iff, List.mem_cons]
    constructor
    · rintro rfl
      exact ⟨.inl rfl, ha, rfl⟩
    · rintro ⟨rfl | hdone, hmoving, hrem⟩
      · rfl
      · exact absurd hrem (habove b hdone hmoving).ne'
  case least =>
    intro b hb hmoving
    rcases List.mem_cons.1 hb with rfl | hdone
    · exact le_rfl
    · exact (habove b hdone hmoving).le
  case attained => exact fun _ => ⟨a, by simp⟩
  case found => exact fun _ _ _ => rfl
  case idle => intro hnone; cases hnone

/-- An equal remaining time joins the flags. -/
theorem LoopInv.join (h : LoopInv moving rem done acc) (ha : moving a) (hfound : acc.found = true)
    (hequal : rem a = acc.dur) :
    LoopInv moving rem (a :: done) { acc with step := setLine acc.step a } where
  step b := by
    simp only [line_setLine, Bool.or_eq_true, h.step, decide_eq_true_iff, List.mem_cons]
    constructor
    · rintro (⟨hdone, hb⟩ | rfl)
      · exact ⟨.inr hdone, hb⟩
      · exact ⟨.inl rfl, ha, hequal⟩
    · rintro ⟨rfl | hdone, hb⟩
      · exact .inr rfl
      · exact .inl ⟨hdone, hb⟩
  least b hb hmoving := by
    rcases List.mem_cons.1 hb with rfl | hdone
    · exact hequal.ge
    · exact h.least b hdone hmoving
  attained _ := ⟨a, by simp⟩
  found _ _ _ := hfound
  idle := h.idle

/-- A larger remaining time leaves the axis out. -/
theorem LoopInv.leave (h : LoopInv moving rem done acc) (hfound : acc.found = true)
    (hlarger : acc.dur < rem a) : LoopInv moving rem (a :: done) acc where
  step b := by
    rw [h.step, List.mem_cons]
    constructor
    · exact fun ⟨hdone, hb⟩ => ⟨.inr hdone, hb⟩
    · rintro ⟨rfl | hdone, hmoving, hrem⟩
      · exact absurd hrem hlarger.ne'
      · exact ⟨hdone, hmoving, hrem⟩
  least b hb hmoving := by
    rcases List.mem_cons.1 hb with rfl | hdone
    · exact hlarger.le
    · exact h.least b hdone hmoving
  attained := h.attained
  found _ _ _ := hfound
  idle := h.idle

end

/-- A turn of the loop keeps its invariant (43_manual_synthesizer.md R245). -/
theorem LoopInv.turn {p : Params} {t : Nat} {vel : Axis3 Velocity} {done : List Axis} {acc : SynthAcc}
    (h : LoopInv (fun b => velIsZero (vel.get b) = false)
      (fun b => remaining t (period p (vel.get b))) done acc) (a : Axis) :
    LoopInv (fun b => velIsZero (vel.get b) = false)
      (fun b => remaining t (period p (vel.get b))) (a :: done) (synthAxis p t a (vel.get a) acc) := by
  have hdir : LoopInv _ _ done { acc with dir := turnDir a (vel.get a) acc.dir } := h.of_dir
  rw [synthAxis_eq]
  split
  · next hzero => exact hdir.skip (by simp [hzero])
  · next hmoving =>
    have hmoving := Bool.eq_false_of_not_eq_true hmoving
    split
    · next hless => exact hdir.replace hmoving (by simpa using hless)
    · next hnotless =>
      simp only [Bool.or_eq_true, Bool.not_eq_true', decide_eq_true_iff, not_or, Bool.not_eq_false,
        not_lt] at hnotless
      obtain ⟨hfound, hge⟩ := hnotless
      split
      · next hequal => exact hdir.join hmoving hfound hequal
      · next hne => exact hdir.leave hfound (lt_of_le_of_ne hge (Ne.symm hne))

/-- What the loop has established at its end. -/
theorem synthEvent_loopInv (p : Params) (t : Nat) (vel : Axis3 Velocity) :
    ∃ acc, LoopInv (fun b => velIsZero (vel.get b) = false)
        (fun b => remaining t (period p (vel.get b))) [.z, .y, .x] acc
      ∧ (synthEvent p t vel).dur = acc.dur ∧ (synthEvent p t vel).step = acc.step :=
  ⟨_, ((LoopInv.start.turn .x).turn .y).turn .z, rfl, rfl⟩

theorem line_synthEvent_dir (p : Params) (t : Nat) (vel : Axis3 Velocity) (a : Axis) :
    line (synthEvent p t vel).dir a = velIsPositive (vel.get a) := by
  cases a <;> simp [synthEvent, synthAxis_dir, line_turnDir, Axis3.get]

theorem mem_axes (a : Axis) : a ∈ [Axis.z, .y, .x] := by
  cases a <;> decide

/-- Settles O47. -/
theorem synthesizerFlagsExactlyTheMinima : Obligations.SynthesizerFlagsExactlyTheMinima := by
  intro p t vel ev rem
  obtain ⟨acc, hacc, hdur, hstep⟩ := synthEvent_loopInv p t vel
  have hev : ev.dur = acc.dur ∧ ev.step = acc.step := ⟨hdur, hstep⟩
  rw [hev.1, hev.2]
  refine ⟨fun a => ?_, line_synthEvent_dir p t vel, fun a => ?_, fun a => hacc.least a (mem_axes a), ?_, ?_⟩
  · obtain ⟨hlo, hhi, hmod⟩ := remaining_spec t (period_pos p (vel.get a))
    exact ⟨hlo, hhi, hmod, rfl⟩
  · rw [hacc.step]
    simp only [mem_axes, true_and]
    rfl
  · rintro ⟨a, ha⟩
    exact hacc.attained (hacc.found a (mem_axes a) ha)
  · intro hrest
    apply hacc.idle
    by_contra hfound
    obtain ⟨a, ha⟩ := hacc.attained (Bool.eq_true_of_not_eq_false hfound)
    obtain ⟨-, hmoving, -⟩ := (hacc.step a).1 ha
    rw [hrest a] at hmoving
    cases hmoving

/-- Settles O48: at tick 0 each remaining time is the period. -/
theorem minimalDeadlineAtTickZero : Obligations.MinimalDeadlineAtTickZero := by
  intro p vel hmoving hxy hyz
  have hrem : ∀ P, remaining 0 P = P := fun P => by rw [remaining, Nat.zero_mod, Nat.sub_zero]
  obtain ⟨-, -, hstep, hleast, hsome, -⟩ := synthesizerFlagsExactlyTheMinima p 0 vel
  simp only [hrem] at hstep hleast
  have hmin : ∀ a, period p vel.x ≤ period p (vel.get a) := by
    intro a
    cases a
    · exact le_rfl
    · exact hxy
    · exact hxy.trans hyz
  have hdur : (synthEvent p 0 vel).dur = period p vel.x := by
    obtain ⟨a, ha⟩ := hsome ⟨.x, hmoving .x⟩
    exact (hleast .x (hmoving .x)).antisymm ((hmin a).trans_eq ((hstep a).1 ha).2)
  refine ⟨fun a => hrem _, hdur, fun a => ?_⟩
  rw [hstep, hdur]
  simp only [hmoving a, true_and]

/-! ## The shaper's vectors -/

/-- A component the snapping dropped is the zero velocity. -/
theorem shape_get_of_axisSnap_eq_zero {p : Params} {raw zero : Axis3 Byte} {a : Axis}
    (h : (axisSnap p (normalised p raw zero)).get a = 0) : (shape p raw zero).get a = .exact 0 := by
  cases hin : inDeadzone p (normSq (normalised p raw zero)) with
  | true => exact shape_of_inDeadzone hin a
  | false => rw [shape_of_not_inDeadzone hin, h]; rfl

/-- Settles O52: snapping keeps the zero vector zero. -/
theorem shaperIsZeroUnderNoInput : Obligations.ShaperIsZeroUnderNoInput := by
  intro p raw
  have hn : normalised p raw raw = ⟨0, 0, 0⟩ := by simp [normalised]
  have hsnap : axisSnap p ⟨0, 0, 0⟩ = ⟨0, 0, 0⟩ := by
    simp [axisSnap, dominant]
  have hget : ∀ a, (shape p raw raw).get a = .exact 0 := by
    intro a
    apply shape_get_of_axisSnap_eq_zero
    rw [hn, hsnap]
    cases a <;> rfl
  exact congr (congr (congrArg Axis3.mk (hget .x)) (hget .y)) (hget .z)

/-- The synthesizer flags no axis at rest. -/
theorem line_synthEvent_step_of_zero {p : Params} {t : Nat} {vel : Axis3 Velocity} {a : Axis}
    (h : velIsZero (vel.get a) = true) : line (synthEvent p t vel).step a = false := by
  obtain ⟨-, -, hstep, -⟩ := synthesizerFlagsExactlyTheMinima p t vel
  rw [Bool.eq_false_iff, Ne, hstep, h]
  simp

/-- A deflection on z with the next one on x: the mixed vector flags both (43_manual_synthesizer.md
R250). -/
theorem mixed_vector_flags_x_and_z :
    dominant (normalised .standard ⟨128#8, 128#8, 200#8⟩ ⟨128#8, 128#8, 128#8⟩) = .z
      ∧ synthEvent .standard 0 ⟨(shape .standard ⟨200#8, 128#8, 128#8⟩ ⟨128#8, 128#8, 128#8⟩).x,
          (shape .standard ⟨128#8, 128#8, 200#8⟩ ⟨128#8, 128#8, 128#8⟩).y,
          (shape .standard ⟨128#8, 128#8, 200#8⟩ ⟨128#8, 128#8, 128#8⟩).z⟩
        = ⟨86, 0b101#3, 0b101#3⟩ := by
  decide +kernel

/-- Settles O53. -/
theorem dominantZIsExclusive : Obligations.DominantZIsExclusive := by
  refine ⟨fun p raw zero t hdom => ?_, ?_⟩
  · have hsnap : axisSnap p (normalised p raw zero) = ⟨0, 0, (normalised p raw zero).z⟩ := by
      simp only [axisSnap, hdom]
    have hx : (shape p raw zero).x = .exact 0 :=
      shape_get_of_axisSnap_eq_zero (a := .x) (by rw [hsnap]; rfl)
    have hy : (shape p raw zero).y = .exact 0 :=
      shape_get_of_axisSnap_eq_zero (a := .y) (by rw [hsnap]; rfl)
    refine ⟨hx, hy, line_synthEvent_step_of_zero ?_, line_synthEvent_step_of_zero ?_⟩
    · exact (congrArg velIsZero hx).trans rfl
    · exact (congrArg velIsZero hy).trans rfl
  · have hvalid : Params.standard.valid = true := by decide +kernel
    obtain ⟨hdom, hevent⟩ := mixed_vector_flags_x_and_z
    refine ⟨.standard, 0, _, _, ⟨200#8, 128#8, 128#8⟩, hvalid, hdom, ?_⟩
    simp only [hevent]
    decide

end Sys2Proof.Machine
end

section
/-! PROOFS. What one step of any agent can do (42_pulse_scheduler.md section 5, 44_mode_and_events.md
R270, 60_exceptions.md section 1): every poll and every other move is inverted once, and the statements
about all steps are read off. -/

namespace Sys2Proof.Machine

/-! ## What a step can do -/

/-- A relation of a move, a state and a next state that does not look at the coming moves holds of every
step, if it holds of every move performed. -/
theorem step_relates (R : Move → State → State → Prop)
    (hin : ∀ m s ms t, R m (s.setInputs ms) t → R m s t)
    (hcount : ∀ m s n t, R m (s.setMoveCount n) t → R m s t)
    (hmove : ∀ m s t, perform m s = .next t → R m s t) {s t : State} (h : step s = .next t) :
    R (nextMove s).1 s t := by
  obtain ⟨-, hperform⟩ := step_next h
  have hrel := hmove _ _ _ hperform
  rcases nextMove_cases s with ⟨m, ms, -, hnext⟩ | ⟨-, hnext⟩ <;> rw [hnext] at hrel ⊢
  · exact hin _ _ _ _ hrel
  · exact hcount _ _ _ _ hrel

/-- Where the event of an ARM sub-step comes from, and the state it is started in
(42_pulse_scheduler.md R206, R208). -/
inductive ArmSource (s : State) : StepEvent → Bool → State → Prop
  | record (b0 b1 b2 : Byte) (rest : List Byte) : s.mode = .runningProgram →
      s.src = b0 :: b1 :: b2 :: rest →
      ArmSource s (recordEvent (decodeWord (recordWord b0 b1 b2))) true
        { s with src := rest, srcPos := s.srcPos + 3 }
  | exhausted : s.mode = .runningProgram → srcAvail s < 3 → ArmSource s zeroEvent false s
  | manual : s.mode = .manualControl →
      ArmSource s (synthEvent s.params s.tick s.vel) false (s.setSyn ⟨s.vel, s.tick⟩)
  | none : s.mode = .idle ∨ s.mode = .pausedProgram → ArmSource s zeroEvent false s

/-- What starting an event does not read is as it was before the source gave the event. -/
theorem ArmSource.frame {s u : State} {ev : StepEvent} {consumed : Bool}
    (h : ArmSource s ev consumed u) :
    u = { s with src := u.src, srcPos := u.srcPos, syn := u.syn } := by
  cases h <;> rfl

/-- An ARM sub-step starts the event of its source. -/
theorem armStep_source (s : State) :
    ∃ ev consumed u, ArmSource s ev consumed u ∧ armStep s = .next (armEvent ev consumed u) := by
  rcases armStep_cases s with ⟨hmode, i, u, hfetch, he⟩ | ⟨hmode, hfetch, he⟩ | ⟨hmode, he⟩ | ⟨hmode, he⟩
  · obtain ⟨b0, b1, b2, rest, hsrc, rfl, rfl⟩ := fetchRecord_eq_some hfetch
    exact ⟨_, _, _, .record b0 b1 b2 rest hmode hsrc, he⟩
  · exact ⟨_, _, _, .exhausted hmode ((fetchRecord_eq_none_iff s).1 hfetch), he⟩
  · exact ⟨_, _, _, .manual hmode, he⟩
  · exact ⟨_, _, _, .none hmode, he⟩

/-- The state after the end of a period (42_pulse_scheduler.md R214). -/
def released (s : State) : State := (writeStep 0#3 (timerClearEnd s)).setPhase .gate

/-- What a poll that has a next state has done. -/
inductive Polled (s : State) : State → Prop
  | stayed : Polled s s
  | gate : s.fault = none → s.phase = .gate → Polled s (gateStep s)
  | arm {ev : StepEvent} {consumed : Bool} {u : State} : s.fault = none → s.phase = .arm →
      ArmSource s ev consumed u → Polled s (armEvent ev consumed u)
  | fired : s.fault = none → s.phase = .waitCmp → s.timer.cmp = true → Polled s (fire s)
  | ended : s.fault = none → s.phase = .waitEnd → s.timer.elapsed = true → Polled s (released s)

theorem polled_of_poll {s t : State} (h : poll s = .next t) : Polled s t := by
  rcases poll_cases s with ⟨-, he⟩ | ⟨hf, hp, he⟩ | ⟨hf, hp, he⟩ | ⟨-, -, -, he⟩ | ⟨hf, hp, hc, he⟩
    | ⟨-, -, -, he⟩ | ⟨hf, hp, hc, he⟩ <;> rw [he] at h
  · cases h; exact .stayed
  · cases h; exact .gate hf hp
  · obtain ⟨ev, consumed, u, hsource, harm⟩ := armStep_source s
    rw [harm] at h
    cases h
    exact .arm hf hp hsource
  · cases h; exact .stayed
  · cases h; exact .fired hf hp hc
  · cases h; exact .stayed
  · cases h; exact .ended hf hp hc

/-- What a move can do to the bytes of the program source, but for a poll (45_collaborators.md R320,
R321). -/
def SourceKept (m : Move) (s : State) (src : List Byte) : Prop :=
  src = s.src ∨ (∃ bytes, m = .srcAppend bytes ∧ src = s.src ++ bytes)
    ∨ (m = .srcDropTail ∧ srcAvail s < 3 ∧ (s.mode = .idle ∨ s.mode = .manualControl) ∧ src = [])

/-- The moves that may issue `ToggleManual`: the host's own, and an owed debouncer sample (log 17). -/
def Toggles (m : Move) (s : State) : Prop :=
  m = .manualToggle ∨ (m = .tickContext ∧ s.tickTodo.head? = some .sample)

/-- What a move that has a next state has done: a poll, a command or toggle that was handled, or a move
that writes inputs, the timer, the tick context's registers or the record of a read. -/
inductive Performed (m : Move) (s : State) : State → Prop
  | poll {t : State} : m = .poll → Polled s t → Performed m s t
  | start : m = .programStart → s.mode = .idle ∨ s.mode = .manualControl → estop s = false →
      Performed m s (logAppend .programStart (s.setMode .runningProgram))
  | resume : m = .resume → s.mode = .pausedProgram → estop s = false →
      Performed m s (s.setMode .runningProgram)
  | enter {duties : List TickDuty} {d : Debouncer} : Toggles m s → s.mode = .idle →
      Performed m s { s with
        mode := .manualControl, zero := s.raw, log := s.log.push .enterManual
        trace := s.trace ++ [.log .enterManual], tickTodo := duties, db := d }
  | exit {duties : List TickDuty} {d : Debouncer} : Toggles m s → s.mode = .manualControl →
      Performed m s { s with
        mode := .idle, log := s.log.push .exitManual
        trace := s.trace ++ [.log .exitManual], tickTodo := duties, db := d }
  | input {t : State} : m ≠ .poll → t = { s with
        estopN := t.estopN, button := t.button, tick := t.tick, vel := t.vel, tickTodo := t.tickTodo
        timer := t.timer, src := t.src, raw := t.raw, db := t.db, posRead := t.posRead } →
      t.timer.dur = s.timer.dur → SourceKept m s t.src → Performed m s t

/-- A toggle, with the debouncer and the owed moves of the sample that issued it. -/
theorem performed_of_toggle {m : Move} {s : State} (hm : Toggles m s) (duties : List TickDuty)
    (d d' : Debouncer) :
    Performed m s ((toggleManual ((s.setTickTodo duties).setDb d)).2.setDb d') := by
  have hpoll : m ≠ .poll := by
    rintro rfl
    rcases hm with h | ⟨h, -⟩ <;> cases h
  cases hmode : s.mode with
  | idle =>
    rw [toggleManual_of_idle (s := (s.setTickTodo duties).setDb d) hmode]
    exact .enter hm hmode
  | manualControl =>
    rw [toggleManual_of_manual (s := (s.setTickTodo duties).setDb d) hmode]
    exact .exit hm hmode
  | runningProgram =>
    rw [toggleManual_of_program (s := (s.setTickTodo duties).setDb d) (.inl hmode)]
    exact .input hpoll rfl rfl (.inl rfl)
  | pausedProgram =>
    rw [toggleManual_of_program (s := (s.setTickTodo duties).setDb d) (.inr hmode)]
    exact .input hpoll rfl rfl (.inl rfl)

/-- A move of the tick context: a toggle or a write of its own registers. -/
theorem performed_tickContext (s : State) : Performed .tickContext s (tickContext s) := by
  have hpoll : Move.tickContext ≠ .poll := by decide
  rcases tickContext_cases s with ⟨-, he⟩ | ⟨ds, hduty, he⟩ | ⟨ds, -, he⟩ | ⟨a, v, ds, -, he⟩ <;> rw [he]
  · exact .input hpoll rfl rfl (.inl rfl)
  · have htoggles : Toggles .tickContext s := .inr ⟨rfl, by rw [hduty]; rfl⟩
    obtain ⟨d, -, ⟨-, -, -, hd⟩ | ⟨-, -, hd⟩ | ⟨-, hd⟩⟩ :=
      debounceSample_cases s.button (s.setTickTodo ds) <;> rw [hd]
    · exact performed_of_toggle htoggles ds d _
    · exact .input hpoll rfl rfl (.inl rfl)
    · exact .input hpoll rfl rfl (.inl rfl)
  · exact .input hpoll rfl rfl (.inl rfl)
  · exact .input hpoll rfl rfl (.inl rfl)

theorem performed_of_perform {m : Move} {s t : State} (h : perform m s = .next t) :
    Performed m s t := by
  cases m with
  | poll => exact .poll rfl (polled_of_poll h)
  | tickContext => cases h; exact performed_tickContext s
  | manualToggle =>
    cases h
    have htoggle := performed_of_toggle (s := s) (.inl rfl) s.tickTodo s.db (toggleManual s).2.db
    exact htoggle
  | programStart =>
    cases h
    rcases cmdProgramStart_cases s with ⟨hmode, hstop, he⟩ | ⟨-, he⟩ <;> rw [he]
    · exact .start rfl hmode hstop
    · exact .input (by decide) rfl rfl (.inl rfl)
  | resume =>
    cases h
    rcases cmdResume_cases s with ⟨hmode, hstop, he⟩ | ⟨-, he⟩ <;> rw [he]
    · exact .resume rfl hmode hstop
    · exact .input (by decide) rfl rfl (.inl rfl)
  | srcDropTail =>
    cases h
    rw [srcDropTail_eq]
    by_cases hdrop : srcAvail s < 3 ∧ (s.mode = .idle ∨ s.mode = .manualControl)
    · exact .input (by decide) rfl rfl (.inr (.inr ⟨rfl, hdrop.1, hdrop.2, if_pos hdrop⟩))
    · exact .input (by decide) rfl rfl (.inl (if_neg hdrop))
  | timerCompare =>
    cases h
    simp only [timerCompare]
    split <;> exact .input (by decide) rfl rfl (.inl rfl)
  | timerPeriod =>
    cases h
    simp only [timerPeriod]
    split <;> exact .input (by decide) rfl rfl (.inl rfl)
  | srcAppend bytes => cases h; exact .input nofun rfl rfl (.inr (.inl ⟨bytes, rfl, rfl⟩))
  | estopPin level => cases h; exact .input nofun rfl rfl (.inl rfl)
  | buttonPin level => cases h; exact .input nofun rfl rfl (.inl rfl)
  | rawSample a v => cases h; exact .input nofun rfl rfl (.inl rfl)
  | velInput a v => cases h; exact .input nofun rfl rfl (.inl rfl)
  | readPos a => cases h; exact .input nofun rfl rfl (.inl rfl)
  | telemetryRead => cases h; exact .input nofun rfl rfl (.inl rfl)

/-- What the moves of the other agents leave unchanged: the registers of the scheduler. -/
theorem Performed.frame {m : Move} {s t : State} (hm : m ≠ .poll) (h : Performed m s t) :
    t.params = s.params ∧ t.phase = s.phase ∧ t.pos = s.pos ∧ t.ev = s.ev ∧ t.fault = s.fault
      ∧ t.srcPos = s.srcPos ∧ t.timer.dur = s.timer.dur ∧ SourceKept m s t.src := by
  cases h with
  | poll hpoll => exact absurd hpoll hm
  | start => exact ⟨rfl, rfl, rfl, rfl, rfl, rfl, rfl, .inl rfl⟩
  | resume => exact ⟨rfl, rfl, rfl, rfl, rfl, rfl, rfl, .inl rfl⟩
  | enter => exact ⟨rfl, rfl, rfl, rfl, rfl, rfl, rfl, .inl rfl⟩
  | exit => exact ⟨rfl, rfl, rfl, rfl, rfl, rfl, rfl, .inl rfl⟩
  | input _ hframe hdur hsrc =>
    refine ⟨?_, ?_, ?_, ?_, ?_, ?_, hdur, hsrc⟩ <;> rw [hframe]

/-! ## History -/

/-- What no step undoes: parameters, a fault that is set, the TRACE so far. -/
def KeepsHistory (s t : State) : Prop :=
  t.params = s.params ∧ (∀ r, s.fault = some r → t.fault = some r) ∧ s.trace <+: t.trace

theorem KeepsHistory.refl (s : State) : KeepsHistory s s := ⟨rfl, fun _ h => h, List.prefix_rfl⟩

/-- An update that writes neither parameters nor FAULT and adds to TRACE. -/
theorem KeepsHistory.of_append {s t : State} (outputs : List TraceEvent) (hparams : t.params = s.params)
    (hfault : t.fault = s.fault) (htrace : t.trace = s.trace ++ outputs) : KeepsHistory s t :=
  ⟨hparams, fun _ h => hfault.trans h, outputs, htrace.symm⟩

theorem keepsHistory_raiseFault (r : FaultReason) (s : State) : KeepsHistory s (raiseFault r s) := by
  refine ⟨rfl, fun r0 h => ?_, List.prefix_rfl⟩
  rw [raiseFault_fault, h]

theorem keepsHistory_armEvent (ev : StepEvent) (consumed : Bool) (s : State) :
    KeepsHistory s (armEvent ev consumed s) := by
  rcases armEvent_cases ev consumed s with ⟨-, he⟩ | ⟨-, -, he⟩ | ⟨-, -, -, he⟩ | ⟨-, -, -, he⟩
  · rw [he]; exact .refl s
  · rw [he]; exact keepsHistory_raiseFault _ (s.setZrec false)
  · rw [he]; exact keepsHistory_raiseFault _ (s.setZrec false)
  · rw [he, armedState_eq rfl]; exact .of_append _ rfl rfl rfl

theorem keepsHistory_gateStep (s : State) : KeepsHistory s (gateStep s) := by
  rcases gateStep_cases s with ⟨-, -, he⟩ | ⟨-, -, he⟩ | ⟨-, -, -, he⟩ | ⟨-, -, -, he⟩ | ⟨-, -, -, he⟩
    <;> rw [he]
  · exact .of_append _ rfl rfl rfl
  · exact .of_append _ rfl rfl rfl
  · exact .of_append _ rfl rfl rfl
  · exact .refl s
  · exact .refl s

theorem keepsHistory_polled {s t : State} (h : Polled s t) : KeepsHistory s t := by
  cases h with
  | stayed => exact .refl s
  | gate => exact keepsHistory_gateStep s
  | @arm ev consumed u _ _ hsource =>
    have hu : KeepsHistory s u := by
      rw [hsource.frame]; exact .refl s
    obtain ⟨hparams, hfault, htrace⟩ := keepsHistory_armEvent ev consumed u
    obtain ⟨huparams, hufault, hutrace⟩ := hu
    exact ⟨hparams.trans huparams, fun r hr => hfault r (hufault r hr), hutrace.trans htrace⟩
  | fired => rw [fire_eq, List.append_assoc]; exact .of_append _ rfl rfl rfl
  | ended => exact .of_append _ rfl rfl rfl

theorem keepsHistory_performed {m : Move} {s t : State} (h : Performed m s t) : KeepsHistory s t := by
  cases h with
  | poll _ hpolled => exact keepsHistory_polled hpolled
  | start => exact .of_append _ rfl rfl rfl
  | resume => exact .refl s
  | enter => exact .of_append _ rfl rfl rfl
  | exit => exact .of_append _ rfl rfl rfl
  | input _ hframe => rw [hframe]; exact .refl s

/-- Settles O59. -/
theorem noStepRewritesHistory : Obligations.NoStepRewritesHistory := fun _ _ h =>
  step_relates (fun _ s t => KeepsHistory s t) (fun _ _ _ _ h => h) (fun _ _ _ _ h => h)
    (fun _ _ _ h => keepsHistory_performed (performed_of_perform h)) h

/-! ## Position -/

/-- Only a compare-match among the sub-steps writes Position (42_pulse_scheduler.md R221). -/
theorem polled_pos {s t : State} (h : Polled s t) : t.pos = s.pos
    ∨ (s.fault = none ∧ s.phase = .waitCmp ∧ s.timer.cmp = true ∧ t = fire s) := by
  cases h with
  | stayed => exact .inl rfl
  | gate => left; rw [gateStep_frame]
  | arm _ _ hsource => left; rw [armEvent_frame, hsource.frame]
  | fired hfault hphase hcmp => exact .inr ⟨hfault, hphase, hcmp, rfl⟩
  | ended => exact .inl rfl

/-- Settles O32. -/
theorem positionChangesOnlyAtCompareMatch : Obligations.PositionChangesOnlyAtCompareMatch := by
  intro s t h
  refine step_relates (fun m s t => t.pos ≠ s.pos → m = .poll ∧ s.fault = none ∧ s.phase = .waitCmp
    ∧ s.timer.cmp = true ∧ ∀ a, t.pos.get a = if line s.ev.step a = true
      then wrapN s.params.posBits (s.pos.get a + if line s.ev.dir a = true then 1 else -1)
      else s.pos.get a) (fun _ _ _ _ h => h) (fun _ _ _ _ h => h) ?_ h
  intro m s t h hpos
  by_cases hm : m = .poll
  · subst hm
    rcases polled_pos (polled_of_poll h) with hsame | ⟨hfault, hphase, hcmp, rfl⟩
    · exact absurd hsame hpos
    · refine ⟨rfl, hfault, hphase, hcmp, fun a => ?_⟩
      rw [fire_eq]
      cases a <;> rfl
  · obtain ⟨-, -, hsame, -⟩ := (performed_of_perform h).frame hm
    exact absurd hsame hpos

/-! ## The program source -/

/-- What a sub-step does to the program source (42_pulse_scheduler.md R206, 20_memory.md R82). -/
theorem polled_src {s t : State} (h : Polled s t) :
    (t.srcPos = s.srcPos + 3 ∧ s.fault = none ∧ s.phase = .arm ∧ s.mode = .runningProgram
        ∧ ∃ b0 b1 b2, s.src = b0 :: b1 :: b2 :: t.src)
      ∨ (t.srcPos = s.srcPos ∧ t.src = s.src) := by
  cases h with
  | stayed => exact .inr ⟨rfl, rfl⟩
  | gate => right; rw [gateStep_frame]; exact ⟨rfl, rfl⟩
  | arm hfault hphase hsource =>
    rw [armEvent_frame]
    cases hsource with
    | record b0 b1 b2 rest hmode hsrc => exact .inl ⟨rfl, hfault, hphase, hmode, b0, b1, b2, hsrc⟩
    | exhausted => exact .inr ⟨rfl, rfl⟩
    | manual => exact .inr ⟨rfl, rfl⟩
    | none => exact .inr ⟨rfl, rfl⟩
  | fired => right; rw [fire_eq]; exact ⟨rfl, rfl⟩
  | ended => exact .inr ⟨rfl, rfl⟩

/-- A poll at ARM in RunningProgram consumes three bytes where there are three. -/
theorem polled_src_of_arm {s t : State} (h : poll s = .next t) (hfault : s.fault = none)
    (hphase : s.phase = .arm) (hmode : s.mode = .runningProgram) (havail : 3 ≤ srcAvail s) :
    t.srcPos = s.srcPos + 3 ∧ t.src = s.src.drop 3 := by
  obtain ⟨b0, b1, b2, rest, hsrc, hfetch⟩ | ⟨hshort, -⟩ := fetchRecord_cases s
  · rw [poll_of_arm hfault hphase, armStep_of_fetchRecord hmode hfetch, exec_eq] at h
    cases h
    rw [armEvent_frame, hsrc]
    exact ⟨rfl, rfl⟩
  · simp only [srcAvail] at havail
    omega

/-- Settles O58. -/
theorem sourcePositionCountsConsumedBytes : Obligations.SourcePositionCountsConsumedBytes := by
  refine ⟨fun s t h => ?_, fun s t h hm hfault hphase hmode havail => ?_⟩
  · refine step_relates (fun m s t =>
      (t.srcPos = s.srcPos + 3 ∧ m = .poll ∧ s.fault = none ∧ s.phase = .arm
          ∧ s.mode = .runningProgram ∧ ∃ b0 b1 b2, s.src = b0 :: b1 :: b2 :: t.src)
        ∨ (t.srcPos = s.srcPos
          ∧ (t.src = s.src ∨ (∃ bytes, m = .srcAppend bytes ∧ t.src = s.src ++ bytes)
            ∨ (m = .srcDropTail ∧ srcAvail s < 3 ∧ (s.mode = .idle ∨ s.mode = .manualControl)
              ∧ t.src = [])))) (fun _ _ _ _ h => h) (fun _ _ _ _ h => h) ?_ h
    intro m s t h
    by_cases hm : m = .poll
    · subst hm
      rcases polled_src (polled_of_poll h) with ⟨hpos, hrest⟩ | ⟨hpos, hsrc⟩
      · exact .inl ⟨hpos, rfl, hrest⟩
      · exact .inr ⟨hpos, .inl hsrc⟩
    · obtain ⟨-, -, -, -, -, hpos, -, hsrc⟩ := (performed_of_perform h).frame hm
      exact .inr ⟨hpos, hsrc⟩
  · refine step_relates (fun m s t => m = .poll → s.fault = none → s.phase = .arm →
      s.mode = .runningProgram → 3 ≤ srcAvail s → t.srcPos = s.srcPos + 3 ∧ t.src = s.src.drop 3)
      (fun _ _ _ _ h => h) (fun _ _ _ _ h => h) ?_ h hm hfault hphase hmode havail
    rintro m s t h rfl hfault hphase hmode havail
    exact polled_src_of_arm h hfault hphase hmode havail

/-! ## Modes -/

/-- The mode after a sub-step (42_pulse_scheduler.md R203, R204). -/
theorem polled_mode {s t : State} (h : Polled s t) : t.mode = s.mode
    ∨ (s.phase = .gate ∧ s.mode = .runningProgram ∧ programEnds s = false ∧ estop s = true
      ∧ t.mode = .pausedProgram)
    ∨ (s.phase = .gate ∧ s.mode = .runningProgram ∧ programEnds s = true ∧ t.mode = .idle) := by
  cases h with
  | stayed => exact .inl rfl
  | gate _ hphase =>
    cases hends : programEnds s with
    | true =>
      rw [gateStep_of_programEnds hends]
      exact .inr (.inr ⟨hphase, ((programEnds_iff s).1 hends).1, rfl, rfl⟩)
    | false =>
      by_cases hpause : s.mode = .runningProgram ∧ estop s = true
      · rw [gateStep_of_pause hends hpause.1 hpause.2]
        exact .inr (.inl ⟨hphase, hpause.1, rfl, hpause.2, rfl⟩)
      · rw [gateStep_of_pass hends hpause]
        exact .inl rfl
  | arm _ _ hsource => left; rw [armEvent_frame, hsource.frame]
  | fired => left; rw [fire_eq]
  | ended => exact .inl rfl

/-- Settles O36. -/
theorem modeTransitionsAreTheListedOnes : Obligations.ModeTransitionsAreTheListedOnes := by
  intro s t h
  refine step_relates (fun m s t => t.mode ≠ s.mode →
    (m = .programStart ∧ (s.mode = .idle ∨ s.mode = .manualControl) ∧ estop s = false
        ∧ t.mode = .runningProgram)
      ∨ (m = .poll ∧ s.phase = .gate ∧ s.mode = .runningProgram ∧ programEnds s = false
        ∧ estop s = true ∧ t.mode = .pausedProgram)
      ∨ (m = .resume ∧ s.mode = .pausedProgram ∧ estop s = false ∧ t.mode = .runningProgram)
      ∨ (m = .poll ∧ s.phase = .gate ∧ s.mode = .runningProgram ∧ programEnds s = true
        ∧ t.mode = .idle)
      ∨ (Toggles m s ∧ s.mode = .idle ∧ t.mode = .manualControl)
      ∨ (Toggles m s ∧ s.mode = .manualControl ∧ t.mode = .idle))
    (fun _ _ _ _ h => h) (fun _ _ _ _ h => h) ?_ h
  intro m s t h hchange
  cases performed_of_perform h with
  | poll hm hpolled =>
    rcases polled_mode hpolled with hsame | hpause | hend
    · exact absurd hsame hchange
    · exact .inr (.inl ⟨hm, hpause⟩)
    · exact .inr (.inr (.inr (.inl ⟨hm, hend⟩)))
  | start hm hmode hstop => exact .inl ⟨hm, hmode, hstop, rfl⟩
  | resume hm hmode hstop => exact .inr (.inr (.inl ⟨hm, hmode, hstop, rfl⟩))
  | enter hm hmode => exact .inr (.inr (.inr (.inr (.inl ⟨hm, hmode, rfl⟩))))
  | exit hm hmode => exact .inr (.inr (.inr (.inr (.inr ⟨hm, hmode, rfl⟩))))
  | input _ hframe => exact absurd (by rw [hframe]) hchange

/-! ## Pause (42_pulse_scheduler.md R220) -/

/-- Only a pause at GATE enters PausedProgram, and while paused the other agents' moves output
nothing. -/
theorem Performed.paused {m : Move} {s t : State} (hm : m ≠ .poll) (h : Performed m s t) :
    (t.mode = .pausedProgram → s.mode = .pausedProgram)
      ∧ (s.mode = .pausedProgram → t.trace = s.trace) := by
  cases h with
  | poll hpoll => exact absurd hpoll hm
  | start _ hmode =>
    refine ⟨nofun, fun hs => ?_⟩
    rw [hs] at hmode
    rcases hmode with hmode | hmode <;> cases hmode
  | resume => exact ⟨nofun, fun _ => rfl⟩
  | enter _ hmode => exact ⟨nofun, fun hs => by rw [hs] at hmode; cases hmode⟩
  | exit _ hmode => exact ⟨nofun, fun hs => by rw [hs] at hmode; cases hmode⟩
  | input _ hframe => rw [hframe]; exact ⟨id, fun _ => rfl⟩

/-- A poll keeps that a paused scheduler is at GATE. -/
theorem polled_pausedAtGate {s t : State} (h : Polled s t)
    (hs : s.mode = .pausedProgram → s.phase = .gate) (ht : t.mode = .pausedProgram) :
    t.phase = .gate := by
  cases h with
  | stayed => exact hs ht
  | gate => rw [gateStep_phase, if_neg (fun hclear => hclear.2 ht)]
  | arm _ hphase hsource =>
    rw [armEvent_frame, hsource.frame] at ht
    rw [hs ht] at hphase
    cases hphase
  | fired _ hphase =>
    rw [fire_eq] at ht
    rw [hs ht] at hphase
    cases hphase
  | ended => rfl

/-- A poll at GATE while paused changes at most `ZREC`. -/
theorem polled_of_paused {s t : State} (h : Polled s t) (hs : s.mode = .pausedProgram)
    (hphase : s.phase = .gate) : t = { s with zrec := t.zrec } := by
  have hrun : s.mode ≠ .runningProgram := by rw [hs]; decide
  cases h with
  | stayed => rfl
  | gate =>
    rw [gateStep_of_pass ((programEnds_eq_false_iff s).2 (.inl hrun)) (fun h => hrun h.1),
      if_pos (.inr hs), ← hphase]
  | arm _ hother => rw [hphase] at hother; cases hother
  | fired _ hother => rw [hphase] at hother; cases hother
  | ended _ hother => rw [hphase] at hother; cases hother

/-- Settles O40. -/
theorem pauseHoldsTheSchedulerAtGate : Obligations.PauseHoldsTheSchedulerAtGate := by
  refine ⟨fun b => nofun, fun s t hs h => ?_⟩
  refine step_relates (fun _ s t => (s.mode = .pausedProgram → s.phase = .gate) →
    (t.mode = .pausedProgram → t.phase = .gate)
      ∧ (s.mode = .pausedProgram → t.pos = s.pos ∧ t.ev = s.ev ∧ t.timer.dur = s.timer.dur
        ∧ ∀ d, TraceEvent.arm d ∉ t.trace.drop s.trace.length))
    (fun _ _ _ _ h => h) (fun _ _ _ _ h => h) ?_ h hs
  intro m s t h hs
  have hquiet : t.trace = s.trace → ∀ d, TraceEvent.arm d ∉ t.trace.drop s.trace.length := by
    intro htrace d
    rw [htrace, List.drop_length]
    exact List.not_mem_nil
  by_cases hm : m = .poll
  · subst hm
    have hpolled := polled_of_poll h
    refine ⟨polled_pausedAtGate hpolled hs, fun hmode => ?_⟩
    have hframe := polled_of_paused hpolled hmode (hs hmode)
    have htrace : t.trace = s.trace := by rw [hframe]
    refine ⟨?_, ?_, ?_, hquiet htrace⟩ <;> rw [hframe]
  · obtain ⟨-, hphase, hpos, hev, -, -, hdur, -⟩ := (performed_of_perform h).frame hm
    obtain ⟨hpaused, htrace⟩ := (performed_of_perform h).paused hm
    exact ⟨fun ht => hphase.trans (hs (hpaused ht)),
      fun hmode => ⟨hpos, hev, hdur, hquiet (htrace hmode)⟩⟩

/-! ## An event in flight -/

/-- Starting an event does not read the e-stop (42_pulse_scheduler.md R218). -/
theorem armEvent_setEstopN (ev : StepEvent) (consumed : Bool) (s : State) (level : Bool) :
    armEvent ev consumed (s.setEstopN level) = (armEvent ev consumed s).setEstopN level := by
  rcases armEvent_cases ev consumed s with ⟨hzero, he⟩ | ⟨hpos, hmax, he⟩ | ⟨hpos, hmax, hbusy, he⟩
    | ⟨hpos, hmax, hready, he⟩ <;> rw [he]
  · rw [armEvent_zero hzero]; rfl
  · rw [armEvent_out_of_range (s := s.setEstopN level) hpos hmax]; rfl
  · rw [armEvent_busy (s := s.setEstopN level) hpos hmax hbusy]; rfl
  · rw [armEvent_started (s := s.setEstopN level) hpos hready hmax]; rfl

/-- The ARM sub-step does not read the e-stop. -/
theorem armStep_setEstopN (s : State) (level : Bool) :
    armStep (s.setEstopN level) = mapNext (fun t => t.setEstopN level) (armStep s) := by
  have hfetch : fetchRecord (s.setEstopN level)
      = (fetchRecord s).map (fun r => (r.1, r.2.setEstopN level)) := by
    rcases fetchRecord_cases s with ⟨b0, b1, b2, rest, hsrc, he⟩ | ⟨hshort, he⟩ <;> rw [he]
    · obtain ⟨_, _, _, _, hsrc', he'⟩ | ⟨hshort, -⟩ := fetchRecord_cases (s.setEstopN level)
      · rw [State.setEstopN_src, hsrc] at hsrc'
        cases hsrc'
        rw [he']
        rfl
      · rw [State.setEstopN_src, hsrc] at hshort
        simp only [List.length_cons] at hshort
        omega
    · rw [(fetchRecord_eq_none_iff _).2 (by exact hshort)]
      rfl
  unfold armStep
  rw [State.setEstopN_mode, hfetch]
  cases s.mode with
  | idle => exact congrArg Host.Outcome.next (armEvent_setEstopN _ _ _ _)
  | pausedProgram => exact congrArg Host.Outcome.next (armEvent_setEstopN _ _ _ _)
  | manualControl => exact congrArg Host.Outcome.next (armEvent_setEstopN _ _ (s.setSyn ⟨s.vel, s.tick⟩) level)
  | runningProgram =>
    cases fetchRecord s with
    | none => exact congrArg Host.Outcome.next (armEvent_setEstopN _ _ _ _)
    | some r =>
      simp only [Option.map_some, exec_eq, mapNext, armEvent_setEstopN]

/-- Settles O33. -/
theorem emergencyStopDoesNotAbortAPulse : Obligations.EmergencyStopDoesNotAbortAPulse := by
  intro s level hphase
  change poll (s.setEstopN level) = mapNext (fun t => t.setEstopN level) (poll s)
  rcases poll_cases s with ⟨hf, he⟩ | ⟨-, hgate, -⟩ | ⟨hf, hp, he⟩ | ⟨-, hp, hc, he⟩ | ⟨hf, hp, hc, he⟩
    | ⟨-, hp, hc, he⟩ | ⟨hf, hp, hc, he⟩
  · rw [he, poll_of_fault (s := s.setEstopN level) hf]; rfl
  · exact absurd hgate hphase
  · rw [he, poll_of_arm (s := s.setEstopN level) hf hp, armStep_setEstopN]
  · rw [he, poll_of_suspended (s := s.setEstopN level) (.inl ⟨hp, hc⟩)]; rfl
  · rw [he, poll_of_matched (s := s.setEstopN level) hf hp hc]
    simp only [mapNext, fire_eq]
    rfl
  · rw [he, poll_of_suspended (s := s.setEstopN level) (.inr ⟨hp, hc⟩)]; rfl
  · rw [he, poll_of_elapsed (s := s.setEstopN level) hf hp hc]; rfl

/-- Settles O34. -/
theorem modeChangeDoesNotAlterAPulse : Obligations.ModeChangeDoesNotAlterAPulse := by
  intro s t m hflight h
  change ∃ u, poll (s.setMode m) = .next u ∧ _
  rcases poll_cases s with ⟨hf, he⟩ | ⟨-, hp, -⟩ | ⟨-, hp, -⟩ | ⟨-, hp, hc, he⟩ | ⟨hf, hp, hc, he⟩
    | ⟨-, hp, hc, he⟩ | ⟨hf, hp, hc, he⟩
  · rw [he] at h
    cases h
    rw [poll_of_fault (s := s.setMode m) hf]
    exact ⟨_, rfl, rfl, rfl, rfl, rfl, rfl, rfl, rfl, rfl, rfl, rfl, rfl, rfl⟩
  · rcases hflight with h | h <;> rw [hp] at h <;> cases h
  · rcases hflight with h | h <;> rw [hp] at h <;> cases h
  · rw [he] at h
    cases h
    rw [poll_of_suspended (s := s.setMode m) (.inl ⟨hp, hc⟩)]
    exact ⟨_, rfl, rfl, rfl, rfl, rfl, rfl, rfl, rfl, rfl, rfl, rfl, rfl, rfl⟩
  · rw [he] at h
    cases h
    rw [poll_of_matched (s := s.setMode m) hf hp hc]
    refine ⟨_, rfl, ?_⟩
    rw [fire_eq, fire_eq]
    exact ⟨rfl, rfl, rfl, rfl, rfl, rfl, rfl, rfl, rfl, rfl, rfl, rfl⟩
  · rw [he] at h
    cases h
    rw [poll_of_suspended (s := s.setMode m) (.inr ⟨hp, hc⟩)]
    exact ⟨_, rfl, rfl, rfl, rfl, rfl, rfl, rfl, rfl, rfl, rfl, rfl, rfl, rfl⟩
  · rw [he] at h
    cases h
    rw [poll_of_elapsed (s := s.setMode m) hf hp hc]
    exact ⟨_, rfl, rfl, rfl, rfl, rfl, rfl, rfl, rfl, rfl, rfl, rfl, rfl, rfl⟩

end Sys2Proof.Machine
end

section
/-! PROOFS. Every move of every agent keeps the invariant of the machine (42_pulse_scheduler.md section 5,
60_exceptions.md section 3). -/

namespace Sys2Proof.Machine

/-! ## Velocity components -/

theorem velocitiesWf_iff (p : Params) (v : Axis3 Velocity) :
    velocitiesWf p v = true ↔ ∀ a, velocityWf p (v.get a) = true := by
  simp only [velocitiesWf, Bool.and_eq_true]
  exact ⟨fun ⟨⟨hx, hy⟩, hz⟩ a => by cases a <;> assumption, fun h => ⟨⟨h .x, h .y⟩, h .z⟩⟩

/-- One component written. -/
theorem velocitiesWf_set {p : Params} {v : Axis3 Velocity} (h : velocitiesWf p v = true) (a : Axis)
    {c : Velocity} (hc : velocityWf p c = true) : velocitiesWf p (v.set a c) = true := by
  rw [velocitiesWf_iff] at h ⊢
  intro b
  rw [axis3_get_set]
  split
  · exact hc
  · exact h b

theorem velocityWf_hostVelocity (p : Params) (x : RealNumber) :
    velocityWf p (hostVelocity x) = true := by
  cases x <;> rfl

theorem sq_le_normSq (n : Axis3 ℤ) (a : Axis) : (n.get a).natAbs * (n.get a).natAbs ≤ normSq n := by
  cases a <;> simp only [Axis3.get, normSq] <;> omega

/-- Snapping keeps components or drops them (45_collaborators.md R305). -/
theorem normSq_axisSnap_le (p : Params) (n : Axis3 ℤ) : normSq (axisSnap p n) ≤ normSq n := by
  unfold axisSnap
  split
  · simp [normSq]
  · split <;> simp [normSq]
    omega
  · split <;> simp [normSq]
    omega

/-- A component of 8-bit samples has at most 255 units (45_collaborators.md R301). -/
theorem natAbs_normalised_le {p : Params} (hp : p.valid = true) (raw zero : Axis3 Byte) (a : Axis) :
    ((normalised p raw zero).get a).natAbs ≤ 255 := by
  obtain ⟨-, -, -, -, -, -, horient, -⟩ := (valid_iff p).1 hp
  have hone : (p.orient.get a).natAbs = 1 := by
    rcases horient a with h | h <;> rw [h] <;> rfl
  have hget : (normalised p raw zero).get a
      = (((raw.get a).toNat : ℤ) - (zero.get a).toNat) * p.orient.get a := by
    cases a <;> rfl
  have hraw := (raw.get a).isLt
  have hzero := (zero.get a).isLt
  rw [hget, Int.natAbs_mul, hone, Nat.mul_one]
  omega

theorem normSq_normalised_le {p : Params} (hp : p.valid = true) (raw zero : Axis3 Byte) :
    normSq (normalised p raw zero) ≤ 195075 := by
  have hsq : ∀ a, ((normalised p raw zero).get a).natAbs * ((normalised p raw zero).get a).natAbs
      ≤ 255 * 255 := fun a =>
    Nat.mul_le_mul (natAbs_normalised_le hp raw zero a) (natAbs_normalised_le hp raw zero a)
  have hx := hsq .x
  have hy := hsq .y
  have hz := hsq .z
  simp only [Axis3.get] at hx hy hz
  simp only [normSq]
  omega

/-- The shaper's components are well formed (45_collaborators.md R308). -/
theorem velocityWf_shape {p : Params} (hp : p.valid = true) (raw zero : Axis3 Byte) (a : Axis) :
    velocityWf p ((shape p raw zero).get a) = true := by
  cases hin : inDeadzone p (normSq (normalised p raw zero)) with
  | true => rw [shape_of_inDeadzone hin]; rfl
  | false =>
    rw [shape_of_not_inDeadzone hin, shapedComponent]
    split
    · rfl
    · next hc =>
      exact (velocityWf_shaped_iff _ _ _ _).2 ⟨hc, sq_le_normSq _ a, normSq_axisSnap_le p _,
        normSq_normalised_le hp raw zero, hin⟩

/-! ## The registers of the invariant -/

theorem valid_of_inv {s : State} (h : Inv s) (hfault : s.fault ≠ some .param) :
    s.params.valid = true :=
  Bool.eq_true_of_not_eq_false fun hinvalid => hfault (h.paramFault.2 hinvalid)

/-- The coming moves are no part of the invariant. -/
theorem Inv.setInputs {s : State} (h : Inv s) (ms : List Move) : Inv (s.setInputs ms) := { h with }

theorem Inv.setMoveCount {s : State} (h : Inv s) (n : Nat) : Inv (s.setMoveCount n) := { h with }

theorem Inv.logAppend {s : State} (h : Inv s) (e : LogEvent) : Inv (Machine.logAppend e s) := { h with }

/-- No mode but PausedProgram binds the phase (42_pulse_scheduler.md R220). -/
theorem Inv.setMode {s : State} (h : Inv s) {mode : Mode} (hmode : mode ≠ .pausedProgram) :
    Inv (s.setMode mode) := { h with
  pausedAtGate := fun hpaused => absurd hpaused hmode }

/-! ## The scheduler -/

/-- Wrapped steps stay in range (42_pulse_scheduler.md R212). -/
theorem posFits_stepPos {n : Nat} (hn : 1 ≤ n) (ev : Latch) {pos : Axis3 Int}
    (h : ∀ a, posFits n (pos.get a)) (a : Axis) : posFits n ((stepPos n ev pos).get a) := by
  have hget : (stepPos n ev pos).get a = stepAxis n ev a (pos.get a) := by
    cases a <;> rfl
  rw [hget, stepAxis]
  split
  · exact wrapN_range hn _
  · exact h a

/-- GATE and ARM: an event is in flight exactly at the other two phases. -/
theorem not_inFlight_iff (s : State) : ¬ inFlight s ↔ s.phase = .gate ∨ s.phase = .arm := by
  unfold inFlight
  cases s.phase <;> simp

/-- The registers a GATE sub-step, or an ARM sub-step without motion, may write: with no event in flight
before and after, they are bound only by the pause and by `ZREC`. -/
theorem Inv.rest {s : State} (h : Inv s) (hs : ¬ inFlight s) {phase : Phase} {mode : Mode} {zrec : Bool}
    {speed : Speed} {log : EventLog} {trace : List TraceEvent} (hphase : phase = .gate ∨ phase = .arm)
    (hmode : mode = .pausedProgram → phase = .gate) (hzrec : phase ≠ .gate → zrec = false)
    (hspeed : speed.dur ≤ s.params.timerMax) :
    Inv { s with phase := phase, mode := mode, zrec := zrec, speed := speed, log := log, trace := trace } := by
  have hidle : ¬ inFlight { s with
      phase := phase, mode := mode, zrec := zrec, speed := speed, log := log, trace := trace } :=
    (not_inFlight_iff _).2 hphase
  have hlines : s.stepOut = 0#3 := by
    have hend : s.phase ≠ .waitEnd := fun hend => hs (.inr hend)
    rw [h.stepLines, if_neg hend]
  refine { h with
    ready := fun _ => h.ready hs
    beforeFire := fun hp => absurd (.inl hp) hidle
    afterFire := fun hp => absurd (.inr hp) hidle
    armedDur := fun hf => absurd hf hidle
    minWidth := fun hf => absurd hf hidle
    dirLatched := fun hf => absurd hf hidle
    speedRange := hspeed
    stepLines := ?_
    pausedAtGate := hmode
    zrecAtArm := hzrec }
  change s.stepOut = if phase = .waitEnd then s.ev.step else 0#3
  rw [hlines, if_neg (by rcases hphase with rfl | rfl <;> decide)]

theorem Inv.gateStep {s : State} (h : Inv s) (hphase : s.phase = .gate) : Inv (Machine.gateStep s) := by
  have hnext := gateStep_phase s
  rw [gateStep_frame]
  refine h.rest ((not_inFlight_iff s).2 (.inl hphase)) ?_ ?_ (fun _ => rfl) h.speedRange
  · rw [hnext]
    split
    · exact .inr rfl
    · exact .inl rfl
  · intro hmode
    rw [hnext, if_neg (fun hclear => hclear.2 hmode)]

/-- A step source consumes a whole record or writes the synthesizer's telemetry. -/
theorem Inv.armSource {s u : State} {ev : StepEvent} {consumed : Bool} (h : Inv s)
    (hsource : ArmSource s ev consumed u) : Inv u := by
  cases hsource with
  | record => exact { h with framing := (Nat.add_mod_right _ _).trans h.framing }
  | exhausted => exact h
  | manual => exact { h with synVelocities := h.velocities, synTickRange := h.tickRange }
  | none => exact h

/-- A model fault is no refusal of the parameters and no busy timer. -/
theorem Inv.fault {s : State} (h : Inv s) (hvalid : s.params.valid = true) :
    Inv { s with fault := some .timerRange } :=
  { h with
    paramFault := by
      change some FaultReason.timerRange = some .param ↔ s.params.valid = false
      simp [hvalid]
    neverBusy := nofun }

/-- A started event is latched with the timer running (42_pulse_scheduler.md R217). -/
theorem Inv.armedState {s : State} {ev : StepEvent} (h : Inv s) (hphase : s.phase = .arm)
    (hmax : Machine.armedDur s.params s.mode ev.dur (popcount ev.step).val ≤ s.params.timerMax) :
    Inv (Machine.armedState ev s) := by
  obtain ⟨-, hcmp, helapsed⟩ := timerBusy_eq_false.1 (h.ready ((not_inFlight_iff s).2 (.inr hphase)))
  have hlines : s.stepOut = 0#3 := by rw [h.stepLines, hphase]; rfl
  have hrun : s.mode ≠ .pausedProgram := by
    intro hpaused
    rw [h.pausedAtGate hpaused] at hphase
    cases hphase
  rw [armedState_eq rfl]
  exact { h with
    ready := fun hidle => absurd (.inl rfl) hidle
    beforeFire := fun _ => .inl ⟨rfl, hcmp, helapsed⟩
    afterFire := nofun
    armedDur := fun _ => rfl
    minWidth := fun _ => two_le_armedDur _ _ _ _
    evRange := hmax
    evCount := rfl
    dirLatched := fun _ => rfl
    stepLines := hlines
    pausedAtGate := fun hpaused => absurd hpaused hrun
    zrecAtArm := fun _ => rfl }

theorem Inv.armEvent {s : State} (h : Inv s) (hphase : s.phase = .arm) (hfault : s.fault = none)
    (hvalid : s.params.valid = true) (ev : StepEvent) (consumed : Bool) :
    Inv (Machine.armEvent ev consumed s) := by
  have hidle : ¬ inFlight s := (not_inFlight_iff s).2 (.inr hphase)
  rcases armEvent_cases ev consumed s with ⟨-, he⟩ | ⟨-, -, he⟩ | ⟨-, -, hbusy, -⟩ | ⟨-, hmax, -, he⟩
  · rw [he]
    exact h.rest hidle (.inl rfl) (fun _ => rfl) (fun hgate => absurd rfl hgate) (Nat.zero_le _)
  · have hzrec : Inv (s.setZrec false) := { h with zrecAtArm := fun _ => rfl }
    rw [he, raiseFault_of_none (s := s.setZrec false) hfault]
    exact hzrec.fault hvalid
  · rw [h.ready hidle] at hbusy
    cases hbusy
  · rw [he]
    exact h.armedState hphase hmax

/-- The compare-match is handled: lines asserted, Position counted (42_pulse_scheduler.md R210 to
R213). -/
theorem Inv.fire {s : State} (h : Inv s) (hphase : s.phase = .waitCmp) (hcmp : s.timer.cmp = true)
    (hvalid : s.params.valid = true) : Inv (Machine.fire s) := by
  have hflight : inFlight s := .inl hphase
  obtain ⟨-, hbits, -⟩ := widths_of_valid hvalid
  have hafter : timerAfterFire { s.timer with cmp := false } := by
    rcases h.beforeFire hphase with ⟨-, hno, -⟩ | ⟨hstate, -, helapsed⟩ | ⟨hstate, -, helapsed⟩
    · rw [hcmp] at hno; cases hno
    · exact .inl ⟨hstate, rfl, helapsed⟩
    · exact .inr ⟨hstate, rfl, helapsed⟩
  have hgate : s.phase ≠ .gate := by rw [hphase]; decide
  rw [fire_eq]
  exact { h with
    ready := fun hidle => absurd (.inr rfl) hidle
    beforeFire := nofun
    afterFire := fun _ => hafter
    armedDur := fun _ => h.armedDur hflight
    minWidth := fun _ => h.minWidth hflight
    dirLatched := fun _ => rfl
    speedRange := h.evRange
    stepLines := rfl
    pausedAtGate := fun hpaused => absurd (h.pausedAtGate hpaused) hgate
    zrecAtArm := fun _ => h.zrecAtArm hgate
    posRange := posFits_stepPos (one_le_two.trans hbits) s.ev h.posRange }

/-- The end of the period is handled (42_pulse_scheduler.md R214). -/
theorem Inv.released {s : State} (h : Inv s) (hphase : s.phase = .waitEnd)
    (helapsed : s.timer.elapsed = true) : Inv (Machine.released s) := by
  have hstopped : s.timer.state = .stopped ∧ s.timer.cmp = false := by
    rcases h.afterFire hphase with ⟨-, -, hno⟩ | ⟨hstate, hcmp, -⟩
    · rw [helapsed] at hno; cases hno
    · exact ⟨hstate, hcmp⟩
  have hidle : ¬ inFlight (Machine.released s) := (not_inFlight_iff _).2 (.inl rfl)
  exact { h with
    ready := fun _ => timerBusy_eq_false.2 ⟨hstopped.1, hstopped.2, rfl⟩
    beforeFire := nofun
    afterFire := nofun
    armedDur := fun hf => absurd hf hidle
    minWidth := fun hf => absurd hf hidle
    dirLatched := fun hf => absurd hf hidle
    stepLines := rfl
    pausedAtGate := fun _ => rfl
    zrecAtArm := fun hgate => absurd rfl hgate }

theorem Inv.polled {s t : State} (h : Inv s) (hvalid : s.params.valid = true) (hpolled : Polled s t) :
    Inv t := by
  cases hpolled with
  | stayed => exact h
  | gate _ hphase => exact h.gateStep hphase
  | arm hfault hphase hsource =>
    have hu := h.armSource hsource
    rw [hsource.frame] at hu ⊢
    exact hu.armEvent hphase hfault hvalid _ _
  | fired _ hphase hcmp => exact h.fire hphase hcmp hvalid
  | ended _ hphase helapsed => exact h.released hphase helapsed

/-! ## The timer (60_exceptions.md R353, R354) -/

/-- The timer runs only before the compare-match is raised. -/
theorem Inv.of_run {s : State} (h : Inv s) (hstate : s.timer.state = .run) :
    s.phase = .waitCmp ∧ s.timer.cmp = false ∧ s.timer.elapsed = false := by
  cases hphase : s.phase with
  | waitCmp =>
    rcases h.beforeFire hphase with ⟨-, hcmp, helapsed⟩ | ⟨hother, -⟩ | ⟨hother, -⟩
    · exact ⟨rfl, hcmp, helapsed⟩
    all_goals rw [hstate] at hother; cases hother
  | waitEnd =>
    rcases h.afterFire hphase with ⟨hother, -⟩ | ⟨hother, -⟩ <;> rw [hstate] at hother <;> cases hother
  | gate =>
    obtain ⟨hother, -⟩ := timerBusy_eq_false.1 (h.ready ((not_inFlight_iff s).2 (.inl hphase)))
    rw [hstate] at hother
    cases hother
  | arm =>
    obtain ⟨hother, -⟩ := timerBusy_eq_false.1 (h.ready ((not_inFlight_iff s).2 (.inr hphase)))
    rw [hstate] at hother
    cases hother

theorem Inv.timerCompare {s : State} (h : Inv s) : Inv (Machine.timerCompare s) := by
  unfold Machine.timerCompare
  split
  · next hstate =>
    obtain ⟨hphase, -, helapsed⟩ := h.of_run hstate
    exact { h with
      ready := fun hidle => absurd (.inl hphase) hidle
      beforeFire := fun _ => .inr (.inl ⟨rfl, rfl, helapsed⟩)
      afterFire := fun hend => by rw [State.setTimer_phase, hphase] at hend; cases hend }
  · exact h

/-- A timer at its compare-match belongs to an event in flight. -/
theorem Inv.of_cmpd {s : State} (h : Inv s) (hstate : s.timer.state = .cmpd) :
    inFlight s ∧ (s.phase = .waitCmp → s.timer.cmp = true) ∧ (s.phase = .waitEnd → s.timer.cmp = false) := by
  refine ⟨?_, fun hphase => ?_, fun hphase => ?_⟩
  · by_contra hidle
    obtain ⟨hother, -⟩ := timerBusy_eq_false.1 (h.ready hidle)
    rw [hstate] at hother
    cases hother
  · rcases h.beforeFire hphase with ⟨hother, -⟩ | ⟨-, hcmp, -⟩ | ⟨-, hcmp, -⟩
    · rw [hstate] at hother; cases hother
    · exact hcmp
    · exact hcmp
  · rcases h.afterFire hphase with ⟨-, hcmp, -⟩ | ⟨-, hcmp, -⟩ <;> exact hcmp

theorem Inv.timerPeriod {s : State} (h : Inv s) : Inv (Machine.timerPeriod s) := by
  unfold Machine.timerPeriod
  split
  · next hstate =>
    obtain ⟨hflight, hbefore, hafter⟩ := h.of_cmpd hstate
    exact { h with
      ready := fun hidle => absurd hflight hidle
      beforeFire := fun hphase => .inr (.inr ⟨rfl, hbefore hphase, rfl⟩)
      afterFire := fun hphase => .inr ⟨rfl, hafter hphase, rfl⟩ }
  · exact h

/-! ## The tick context and the commands -/

theorem Inv.toggleManual {s : State} (h : Inv s) : Inv (toggleManual s).2 := by
  rcases toggleManual_cases s with ⟨-, he⟩ | ⟨-, he⟩ | ⟨-, he⟩ <;> rw [he]
  · have hzero : Inv (s.setZero s.raw) := { h with }
    exact (hzero.setMode (by decide)).logAppend _
  · exact (h.setMode (by decide)).logAppend _
  · exact h

theorem Inv.setDb {s : State} (h : Inv s) {d : Debouncer} (hd : d.count ≤ s.params.dbCap) :
    Inv (s.setDb d) := { h with dbRange := hd }

/-- The count never passes the cap (45_collaborators.md R313). -/
theorem debounceCount_le {cap : Nat} {d : Debouncer} (hcap : 1 ≤ cap) (hd : d.count ≤ cap) (b : Bool) :
    (debounceCount cap d b).count ≤ cap := by
  unfold debounceCount
  split
  · exact hcap
  · split
    · next hless => exact hless
    · exact hd

theorem Inv.debounceSample {s : State} (h : Inv s) (hvalid : s.params.valid = true) (b : Bool) :
    Inv (debounceSample b s) := by
  have hcount := debounceCount_le (dbCap_pos_of_valid hvalid) h.dbRange b
  obtain ⟨d, rfl, ⟨-, -, -, he⟩ | ⟨-, -, he⟩ | ⟨-, he⟩⟩ := debounceSample_cases b s <;> rw [he]
  · refine (h.setDb hcount).toggleManual.setDb ?_
    rw [toggleManual_frame]
    exact hcount
  · exact h.setDb hcount
  · exact h.setDb hcount

theorem dutiesAt_wf (p : Params) (t : Nat) : (dutiesAt p t).all (dutyWf p) = true := by
  unfold dutiesAt
  split <;> split <;> rfl

theorem Inv.tickContext {s : State} (h : Inv s) (hvalid : s.params.valid = true) :
    Inv (Machine.tickContext s) := by
  have hduties := h.duties
  rcases tickContext_cases s with ⟨-, he⟩ | ⟨ds, hduty, he⟩ | ⟨ds, hduty, he⟩ | ⟨a, v, ds, hduty, he⟩
  · rw [he]
    exact { h with tickRange := Nat.mod_lt _ (Nat.two_pow_pos _), duties := dutiesAt_wf _ _ }
  all_goals rw [hduty, List.all_cons, Bool.and_eq_true] at hduties
  · have hrest : Inv (s.setTickTodo ds) := { h with duties := hduties.2 }
    rw [he]
    exact hrest.debounceSample hvalid s.button
  · have hshape : ∀ b, velocityWf s.params ((shape s.params s.raw s.zero).get b) = true :=
      velocityWf_shape hvalid s.raw s.zero
    rw [he]
    refine { h with duties := ?_ }
    simp only [State.setTickTodo_tickTodo, State.setTickTodo_params, velWrites, List.cons_append,
      List.nil_append, List.all_cons, dutyWf, hduties.2, Bool.and_true, Bool.and_eq_true]
    exact ⟨hshape .x, hshape .y, hshape .z⟩
  · rw [he]
    exact { h with velocities := velocitiesWf_set h.velocities a hduties.1, duties := hduties.2 }

/-! ## Every move -/

theorem Inv.perform {m : Move} {s t : State} (h : Inv s) (hvalid : s.params.valid = true)
    (hmove : perform m s = .next t) : Inv t := by
  cases m with
  | poll => exact h.polled hvalid (polled_of_poll hmove)
  | timerCompare => cases hmove; exact h.timerCompare
  | timerPeriod => cases hmove; exact h.timerPeriod
  | tickContext => cases hmove; exact h.tickContext hvalid
  | manualToggle => cases hmove; exact h.toggleManual
  | programStart =>
    cases hmove
    rcases cmdProgramStart_cases s with ⟨-, -, he⟩ | ⟨-, he⟩ <;> rw [he]
    · exact (h.setMode (by decide)).logAppend _
    · exact h
  | resume =>
    cases hmove
    rcases cmdResume_cases s with ⟨-, -, he⟩ | ⟨-, he⟩ <;> rw [he]
    · exact h.setMode (by decide)
    · exact h
  | velInput a x =>
    cases hmove
    exact { h with velocities := velocitiesWf_set h.velocities a (velocityWf_hostVelocity _ x) }
  | srcDropTail => cases hmove; rw [srcDropTail_eq]; exact { h with }
  | srcAppend bytes => cases hmove; exact { h with }
  | estopPin level => cases hmove; exact { h with }
  | buttonPin level => cases hmove; exact { h with }
  | rawSample a v => cases hmove; exact { h with }
  | readPos a => cases hmove; exact { h with }
  | telemetryRead => cases hmove; exact h

/-- Settles O57. -/
theorem everyStepKeepsTheInvariant : Obligations.EveryStepKeepsTheInvariant := fun _ _ h hstep =>
  step_preserves Inv (fun _ ms h => h.setInputs ms) (fun _ n h => h.setMoveCount n)
    (fun _ _ _ hfault h hmove => h.perform (valid_of_inv h hfault) hmove) h hstep

end Sys2Proof.Machine
end

section
/-! PROOFS. Whole runs: the life of a timed record, and the end of a program run
(40_program_records.md section 2, 42_pulse_scheduler.md section 4, 70_reset_and_hazards.md section 5). -/

namespace Sys2Proof.Machine

/-! ## The life of a timed record -/

theorem three_le_srcAvail {s : State} {i : Instr} {rest : List Byte} (h : s.src = encode i ++ rest) :
    3 ≤ srcAvail s := by
  rw [srcAvail, h, List.length_append]
  exact Nat.le_add_right 3 _

/-- A poll at ARM that starts the record at the front of the source. -/
theorem poll_arm_record {s : State} {i : Instr} {rest : List Byte} {d : Nat} (hfault : s.fault = none)
    (hphase : s.phase = .arm) (hmode : s.mode = .runningProgram) (hready : timerReady s)
    (hdecode : decode s.src = .ok (i, rest)) (hdur : (recordEvent i).dur ≠ 0)
    (hd : max (recordEvent i).dur (minDur s.params (popcount (recordEvent i).step).val) = d)
    (hmax : d ≤ s.params.timerMax) :
    poll s = .next { s with
      zrec := false
      src := rest
      srcPos := s.srcPos + 3
      timer := { s.timer with state := .run, dur := d }
      dirOut := (recordEvent i).dir ^^^ s.params.polarity
      ev := ⟨d, (recordEvent i).step, (recordEvent i).dir, popcount (recordEvent i).step⟩
      phase := .waitCmp
      trace := s.trace ++ [.arm d, .dir ((recordEvent i).dir ^^^ s.params.polarity)] } := by
  have harmed : armedDur s.params s.mode (recordEvent i).dur (popcount (recordEvent i).step).val = d := by
    rw [hmode, armedDur_clamped (by decide), hd]
  rw [poll_of_arm hfault hphase, armStep_of_fetchRecord hmode (fetchRecord_of_decode hdecode), exec_eq,
    armEvent_started (s := { s with src := rest, srcPos := s.srcPos + 3 }) (Nat.pos_of_ne_zero hdur)
      hready (harmed.trans_le hmax),
    armedState_eq (s := { s with src := rest, srcPos := s.srcPos + 3 }) harmed]

/-- From GATE through ARM: the record is consumed and its pulse started. -/
theorem run_gate_arm {s : State} {i : Instr} {rest : List Byte} {ms : List Move} {d : Nat} (n : Nat)
    (hwf : i.wf = true) (hdur : (recordEvent i).dur ≠ 0) (hinputs : s.inputs = .poll :: .poll :: ms)
    (hphase : s.phase = .gate) (hmode : s.mode = .runningProgram) (hfault : s.fault = none)
    (hready : timerReady s) (hstop : estop s = false)
    (hzero : s.params.zeroRecordEndsProgram = false ∨ s.zrec = false)
    (hsrc : s.src = encode i ++ rest)
    (hd : max (recordEvent i).dur (minDur s.params (popcount (recordEvent i).step).val) = d)
    (hmax : d ≤ s.params.timerMax) :
    Sys2Proof.core.run (n + 2) s = Sys2Proof.core.run n { s with
      inputs := ms
      zrec := false
      src := rest
      srcPos := s.srcPos + 3
      timer := { s.timer with state := .run, dur := d }
      dirOut := (recordEvent i).dir ^^^ s.params.polarity
      ev := ⟨d, (recordEvent i).step, (recordEvent i).dir, popcount (recordEvent i).step⟩
      phase := .waitCmp
      trace := s.trace ++ [.arm d, .dir ((recordEvent i).dir ^^^ s.params.polarity)] } := by
  have hparam : s.fault ≠ some .param := by rw [hfault]; decide
  have hgate : perform .poll (s.setInputs (.poll :: ms))
      = .next { s with inputs := .poll :: ms, zrec := false, phase := .arm } := by
    have hends : programEnds (s.setInputs (.poll :: ms)) = false :=
      (programEnds_eq_false_iff _).2 (.inr ⟨three_le_srcAvail hsrc, hzero⟩)
    have hclear : estop (s.setInputs (.poll :: ms)) = false := hstop
    refine (poll_of_gate (s := s.setInputs (.poll :: ms)) hfault hphase).trans ?_
    rw [gateStep_of_pass hends (by simp [hclear]), hclear]
    simp only [State.setInputs_mode, hmode]
    rfl
  have hdecode : decode s.src = .ok (i, rest) := by
    rw [hsrc]
    exact decodeInvertsEncode i rest hwf
  rw [core_run_listed (n + 1) hparam hinputs hgate]
  exact core_run_listed (s := { s with inputs := .poll :: ms, zrec := false, phase := .arm }) n hparam rfl
    (poll_arm_record (s := { s with inputs := ms, zrec := false, phase := .arm }) hfault rfl hmode hready
      hdecode hdur hd hmax)

/-- The compare-match and its poll. -/
theorem run_compare_fire {s : State} {ms : List Move} (n : Nat)
    (hinputs : s.inputs = .timerCompare :: .poll :: ms) (hphase : s.phase = .waitCmp)
    (hfault : s.fault = none) (hstate : s.timer.state = .run) :
    Sys2Proof.core.run (n + 2) s = Sys2Proof.core.run n
      (fire { s with inputs := ms, timer := { s.timer with state := .cmpd, cmp := true } }) := by
  have hparam : s.fault ≠ some .param := by rw [hfault]; decide
  rw [core_run_listed (n + 1) hparam hinputs (timerMovesRaiseTheirFlags.1 _ hstate)]
  exact core_run_listed n hparam rfl (poll_of_matched hfault hphase rfl)

/-- The end of the period and its poll. -/
theorem run_period_release {s : State} {ms : List Move} (n : Nat)
    (hinputs : s.inputs = .timerPeriod :: .poll :: ms) (hphase : s.phase = .waitEnd)
    (hfault : s.fault = none) (hstate : s.timer.state = .cmpd) :
    Sys2Proof.core.run (n + 2) s = Sys2Proof.core.run n
      (released { s with inputs := ms, timer := { s.timer with state := .stopped, elapsed := true } }) := by
  have hparam : s.fault ≠ some .param := by rw [hfault]; decide
  rw [core_run_listed (n + 1) hparam hinputs (timerMovesRaiseTheirFlags.2 _ hstate)]
  exact core_run_listed n hparam rfl (poll_of_elapsed hfault hphase rfl)

/-- While a program runs `Moved` is due under policy every_step only (42_pulse_scheduler.md R213). -/
theorem movedDue_running_iff (policy : MovedPolicy) (k : Fin 4) :
    movedDue policy .runningProgram k = true ↔ policy = .everyStep ∧ 1 ≤ k.val := by
  cases policy <;> simp [movedDue]

/-- Settles O35: GATE and ARM, compare-match, end of period. -/
theorem timedRecordRunsFromGateToGate : Obligations.TimedRecordRunsFromGateToGate := by
  intro i s rest ms hwf hdur hinputs hphase hmode hfault hready hstop _ hzero hsrc ev k d lv hmax
  have hrun : Sys2Proof.core.run 6 s = _ :=
    (run_gate_arm 4 hwf hdur hinputs hphase hmode hfault hready hstop hzero hsrc rfl hmax).trans
      (run_compare_fire 2 rfl rfl hfault rfl)
  rw [fire_eq] at hrun
  refine ⟨_, hrun.trans (run_period_release 0 rfl rfl hfault rfl), ?_⟩
  refine ⟨rfl, hmode, hfault, rfl, rfl, rfl, rfl, rfl, rfl, rfl, rfl, ?_⟩
  simp only [hmode, movedDue_running_iff]
  simp [released, dirLevels, lv, d, ev, k]

/-! ## The end of a program run -/

theorem KeepsHistory.trans {s t u : State} (hst : KeepsHistory s t) (htu : KeepsHistory t u) :
    KeepsHistory s u := by
  obtain ⟨hparams, hfault, htrace⟩ := hst
  obtain ⟨hparams', hfault', htrace'⟩ := htu
  exact ⟨hparams'.trans hparams, fun r hr => hfault' r (hfault r hr), htrace.trans htrace'⟩

/-- The newest entry of the ring stands before its head (44_mode_and_events.md R281). -/
theorem newest_push (l : EventLog) (e : LogEvent) :
    (l.push e).ring[((l.push e).head + 3 : Fin 4)] = e := by
  obtain ⟨ring, head⟩ := l
  fin_cases head <;> simp [EventLog.push]

/-- A step that ends the program at GATE: its registers, and that it is the end of a run
(42_pulse_scheduler.md R203). -/
theorem step_program_end {s t : State} (h : step s = .next t) (hm : (nextMove s).1 = .poll)
    (hphase : s.phase = .gate) (hends : programEnds s = true) (hmode : t.mode ≠ s.mode) :
    AtEnd t ∧ t.src = s.src ∧ t.srcPos = s.srcPos ∧ t.trace = s.trace ++ [.log .programEnd] := by
  refine step_relates (fun m s t => m = .poll → s.phase = .gate → programEnds s = true →
    t.mode ≠ s.mode → AtEnd t ∧ t.src = s.src ∧ t.srcPos = s.srcPos
      ∧ t.trace = s.trace ++ [TraceEvent.log .programEnd])
    (fun _ _ _ _ h => h) (fun _ _ _ _ h => h) ?_ h hm hphase hends hmode
  rintro m s t h rfl hphase hends hmode
  cases polled_of_poll h with
  | stayed => exact absurd rfl hmode
  | gate hfault =>
    rw [gateStep_of_programEnds hends]
    exact ⟨⟨hfault, rfl, newest_push s.log .programEnd⟩, rfl, rfl, rfl⟩
  | arm _ hother => rw [hphase] at hother; cases hother
  | fired _ hother => rw [hphase] at hother; cases hother
  | ended _ hother => rw [hphase] at hother; cases hother

/-- A run has consumed the first `n` records of its program. -/
def Consumed (program : List (BitVec 24)) (s u : State) (n : Nat) : Prop :=
  n ≤ program.length ∧ u.srcPos = s.srcPos + 3 * n ∧ u.src = (program.drop n).flatMap wordBytes

/-- What holds of a run before its end. -/
structure RunInv (program : List (BitVec 24)) (s u : State) : Prop where
  history : KeepsHistory s u
  mode : u.mode = .runningProgram ∨ u.mode = .pausedProgram
  consumed : ∃ n, Consumed program s u n

theorem runInv_launch {program : List (BitVec 24)} {s : State} (h : Launch program s) :
    RunInv program s s where
  history := .refl s
  mode := .inl h.mode
  consumed := ⟨0, Nat.zero_le _, rfl, h.src⟩

/-- A run that has not ended runs or is paused: nothing but program end leaves these modes without a
command. -/
theorem mode_of_commandFreeStep {t u : State} (h : CommandFreeStep t u) (hno : ¬ EndStep t u)
    (hmode : t.mode = .runningProgram ∨ t.mode = .pausedProgram) :
    u.mode = .runningProgram ∨ u.mode = .pausedProgram := by
  have hfree := h.free
  by_cases hsame : u.mode = t.mode
  · rwa [hsame]
  · rcases modeTransitionsAreTheListedOnes t u h.next hsame with ⟨hm, -⟩ | ⟨-, -, -, -, -, hpaused⟩
      | ⟨hm, -⟩ | ⟨hm, hphase, -, hends, -⟩ | ⟨-, hidle, -⟩ | ⟨-, hmanual, -⟩
    · rw [hm] at hfree; cases hfree
    · exact .inr hpaused
    · rw [hm] at hfree; cases hfree
    · obtain ⟨hatEnd, -⟩ := step_program_end h.next hm hphase hends hsame
      exact absurd ⟨h.next, hm, hphase, hatEnd⟩ hno
    · rw [hidle] at hmode
      rcases hmode with hmode | hmode <;> cases hmode
    · rw [hmanual] at hmode
      rcases hmode with hmode | hmode <;> cases hmode

/-- Three bytes taken from what is left of a program are its next record. -/
theorem flatMap_wordBytes_drop {program : List (BitVec 24)} {n : Nat} {b0 b1 b2 : Byte}
    {rest : List Byte} (h : (program.drop n).flatMap wordBytes = b0 :: b1 :: b2 :: rest) :
    n < program.length ∧ (program.drop (n + 1)).flatMap wordBytes = rest := by
  have hn : n < program.length := by
    by_contra hge
    rw [List.drop_eq_nil_of_le (Nat.le_of_not_lt hge)] at h
    cases h
  refine ⟨hn, ?_⟩
  rw [List.drop_eq_getElem_cons hn, List.flatMap_cons] at h
  simp only [wordBytes, List.cons_append, List.nil_append, List.cons.injEq] at h
  exact h.2.2.2

/-- Without appends a running or paused program loses bytes to its consumed records only. -/
theorem consumed_of_commandFreeStep {program : List (BitVec 24)} {s t u : State} {n : Nat}
    (h : CommandFreeStep t u) (hmode : t.mode = .runningProgram ∨ t.mode = .pausedProgram)
    (hconsumed : Consumed program s t n) : ∃ n', Consumed program s u n' := by
  have hfree := h.free
  obtain ⟨hn, hpos, hsrc⟩ := hconsumed
  rcases sourcePositionCountsConsumedBytes.1 t u h.next with
    ⟨hpos', -, -, -, -, b0, b1, b2, htake⟩ | ⟨hpos', hsame | ⟨bytes, hm, -⟩ | ⟨-, -, hother, -⟩⟩
  · obtain ⟨hlt, hrest⟩ := flatMap_wordBytes_drop (hsrc.symm.trans htake)
    exact ⟨n + 1, hlt, by omega, hrest.symm⟩
  · exact ⟨n, hn, hpos'.trans hpos, hsame.trans hsrc⟩
  · rw [hm] at hfree; cases hfree
  · rcases hmode with hmode | hmode <;> rw [hmode] at hother <;> rcases hother with h | h <;> cases h

theorem RunInv.step {program : List (BitVec 24)} {s t u : State} (h : RunInv program s t)
    (hstep : CommandFreeStep t u) (hno : ¬ EndStep t u) : RunInv program s u where
  history := h.history.trans (noStepRewritesHistory t u hstep.next)
  mode := mode_of_commandFreeStep hstep hno h.mode
  consumed := by
    obtain ⟨n, hn⟩ := h.consumed
    exact consumed_of_commandFreeStep hstep h.mode hn

theorem runInv_of_running {program : List (BitVec 24)} {s u : State}
    (h : Running CommandFreeStep program s u) : RunInv program s u := by
  induction h with
  | launch hlaunch => exact runInv_launch hlaunch
  | step _ hstep hno ih => exact ih.step hstep hno

/-- The step that ends a run is the program end of GATE. -/
theorem programEnds_of_endStep {u t : State} (h : EndStep u t)
    (hmode : u.mode = .runningProgram ∨ u.mode = .pausedProgram) :
    programEnds u = true ∧ t.mode ≠ u.mode := by
  obtain ⟨-, hidle, -⟩ := h.ends
  have hchange : t.mode ≠ u.mode := by
    rw [hidle]
    rcases hmode with hmode | hmode <;> rw [hmode] <;> decide
  refine ⟨?_, hchange⟩
  rcases modeTransitionsAreTheListedOnes u t h.next hchange with ⟨hm, -⟩ | ⟨-, -, -, -, -, hpaused⟩
    | ⟨hm, -⟩ | ⟨-, -, -, hends, -⟩ | ⟨-, -, hmanual⟩ | ⟨-, hmanual, -⟩
  · rw [h.poll] at hm; cases hm
  · rw [hidle] at hpaused; cases hpaused
  · rw [h.poll] at hm; cases hm
  · exact hends
  · rw [hidle] at hmanual; cases hmanual
  · rw [hmanual] at hmode
    rcases hmode with hmode | hmode <;> cases hmode

theorem length_flatMap_wordBytes (ws : List (BitVec 24)) : (ws.flatMap wordBytes).length = 3 * ws.length := by
  induction ws with
  | nil => rfl
  | cons w ws ih =>
    rw [List.flatMap_cons, List.length_append, ih, List.length_cons]
    simp only [wordBytes, List.length_cons, List.length_nil]
    omega

/-- A step of a run that does not end it. -/
def Continues (t u : State) : Prop := step t = .next u ∧ ¬ EndStep t u

theorem continues_rightUnique : Relator.RightUnique Continues := by
  rintro t u v ⟨hu, -⟩ ⟨hv, -⟩
  rw [hu] at hv
  cases hv
  rfl

theorem continues_of_running {program : List (BitVec 24)} {s u : State}
    (h : Running CommandFreeStep program s u) : Relation.ReflTransGen Continues s u := by
  induction h with
  | launch => exact .refl
  | step _ hstep hno ih => exact ih.tail ⟨hstep.next, hno⟩

/-- Where one run ends no other goes on: they end alike. -/
theorem end_unique_of_continues {u v t w : State} (hu : EndStep u t) (hv : EndStep v w)
    (h : Relation.ReflTransGen Continues u v) : w = t := by
  rcases Relation.ReflTransGen.cases_head h with rfl | ⟨x, ⟨hstep, hno⟩, -⟩
  · have hnext := hv.next
    rw [hu.next] at hnext
    cases hnext
    rfl
  · rw [hu.next] at hstep
    cases hstep
    exact absurd hu hno

theorem endsBy_unique {program : List (BitVec 24)} {s t w : State}
    (ht : EndsBy CommandFreeStep program s t) (hw : EndsBy CommandFreeStep program s w) : w = t := by
  obtain ⟨u, hu, hut⟩ := ht
  obtain ⟨v, hv, hvw⟩ := hw
  rcases Relation.ReflTransGen.total_of_right_unique continues_rightUnique (continues_of_running hu)
    (continues_of_running hv) with huv | hvu
  · exact end_unique_of_continues hut hvw huv
  · exact (end_unique_of_continues hvw hut hvu).symm

/-- A program run is a run without host commands and appends. -/
theorem running_of_runStep {program : List (BitVec 24)} {s u : State}
    (h : Running RunStep program s u) : Running CommandFreeStep program s u := by
  induction h with
  | launch hlaunch => exact .launch hlaunch
  | step _ hstep hno ih => exact .step ih hstep.toCommandFreeStep hno

/-- Settles O60. -/
theorem anEndedRunHasConsumedItsProgram : Obligations.AnEndedRunHasConsumedItsProgram := by
  intro program s t
  refine ⟨fun ⟨u, hu, hend⟩ => ⟨u, running_of_runStep hu, hend⟩, fun hrun => ?_⟩
  have hunique : ∀ w, EndsBy CommandFreeStep program s w → w = t := fun w => endsBy_unique hrun
  obtain ⟨u, hu, hend⟩ := hrun
  obtain ⟨⟨hparams, -, outputs, htrace⟩, hmode, n, hn, hpos, hsrc⟩ := runInv_of_running hu
  obtain ⟨hends, hchange⟩ := programEnds_of_endStep hend hmode
  obtain ⟨-, htsrc, htpos, httrace⟩ := step_program_end hend.next hend.poll hend.gate hends hchange
  obtain ⟨hfault, hidle, -⟩ := hend.ends
  refine ⟨⟨n, hn, htpos.trans hpos, htsrc.trans hsrc, fun hzero => ?_⟩, hfault, hidle,
    ⟨outputs, by rw [httrace, htrace]⟩, hunique⟩
  obtain ⟨-, hshort | ⟨hyes, -⟩⟩ := (programEnds_iff u).1 hends
  · rw [srcAvail, hsrc, length_flatMap_wordBytes, List.length_drop] at hshort
    omega
  · rw [hparams, hzero] at hyes
    cases hyes

/-- Settles O31: no run ends in a state with a fault. -/
theorem faultedSchedulerStandsStill : Obligations.FaultedSchedulerStandsStill := by
  intro s hfault
  refine ⟨poll_of_fault hfault, fun program r => ⟨?_, ?_⟩⟩ <;>
    exact fun ⟨_, _, hend⟩ => hfault hend.ends.1

end Sys2Proof.Machine
end
